-- ==== Sys2Proof/Word.lean ====
section
/-! DEFINITION. The fixed word widths of the block's ports (R75, R76, R80): nothing here is computed. -/

namespace Sys2Proof

/-- A byte of a frame's data buffer (R33: "A byte is 8 bits") and one 8-bit operand field of a command word (R76). -/
abbrev Byte := BitVec 8

/-- The 32-bit values of the ports: the command word `cw`, the operand `xdata`, `Frame.id`, the result `rx` (R76, R80). -/
abbrev Word := BitVec 32

/-- The 64-bit values of the ports: the operand `wdata` and the result `rdata`, byte `j` in bits `[8j+7:8j]` (R76, R80). -/
abbrev DWord := BitVec 64

/-- An identifier or a routing key of the route table: 11 bits (R70, R20). -/
abbrev Ident := BitVec 11

end Sys2Proof
end

