-- ==== Sys2Proof/Syntax.lean ====
section
/-! DEFINITION. The commands of the block (R76, R78) as syntax: what one transfer on the command port carries, and one
constructor of `Instr` per row of spec/opcode_table.json, with the operands R77 gives that row. -/

namespace Sys2Proof

/-- One transfer on the command port (R76): the command word and the two operands. -/
structure Command where
  cw    : Word
  xdata : Word
  wdata : DWord
  deriving DecidableEq, Repr

/-- The number of a frame register, `F0` to `F3` (R23, R76 field `f`). -/
abbrev FReg := Fin 4

/-- A decoded command. Operands the operation ignores (R77 "-") are not part of it. Byte positions, sizes and lengths are
natural numbers (R53, R82 b, c), bounded by `Instr.wf`; fields that are masked or compared as bits are bit vectors. -/
inductive Instr where
  /-- R100: `PACK type, id, command`. -/
  | pack (type id command : Byte)
  /-- R103: `UNPACK ident`. -/
  | unpack (ident : Word)
  /-- R106: `RKEY ident`. -/
  | rkey (ident : Word)
  /-- R121: `WRITE.size Fd, start, value`. The value is all of `wdata`; the machine uses its low `8*size` bits. -/
  | write (fd : FReg) (start size : Nat) (value : DWord)
  /-- R125: `READ.size Fs, start`. -/
  | read (fs : FReg) (start size : Nat)
  /-- R141: `MAKE Fd, type, id, command, [bytes]`: `len = xdata`, the first eight bytes in `wdata`. -/
  | make (fd : FReg) (type id command : Byte) (len : Nat) (payload : DWord)
  /-- R182: `MSEND Fd, type, id, command, [bytes]`. -/
  | msend (fd : FReg) (type id command : Byte) (len : Nat) (payload : DWord)
  /-- R161: `ATTACH type, id, href`. `href` is all of `xdata`; the machine uses its low `H_W` bits. -/
  | attach (type id : Byte) (href : Word)
  /-- R165: `DETACHK type, id`. -/
  | detachk (type id : Byte)
  /-- R167: `DETACHD type, id, href`. -/
  | detachd (type id : Byte) (href : Word)
  /-- R170: `POLL`. -/
  | poll
  /-- R180: `SEND Fs`. -/
  | send (fs : FReg)
  /-- R144: `FLOAD Fd, id, dlc, flags, [bytes]`; `dlc` is the 4-bit field, 9 to 15 included. -/
  | fload (fd : FReg) (id : Word) (dlc : BitVec 4) (ext rtr err : Bool) (data : DWord)
  /-- R146: `FSTORE Fs`. -/
  | fstore (fs : FReg)
  /-- R147: `FEQ Fa, Fb`. -/
  | feq (fa fb : FReg)
  deriving DecidableEq, Repr

/-- The mnemonic of R78's opcode map. -/
def Instr.mnemonic : Instr → String
  | .pack _ _ _ => "PACK"
  | .unpack _ => "UNPACK"
  | .rkey _ => "RKEY"
  | .write _ _ _ _ => "WRITE"
  | .read _ _ _ => "READ"
  | .make _ _ _ _ _ _ => "MAKE"
  | .msend _ _ _ _ _ _ => "MSEND"
  | .attach _ _ _ => "ATTACH"
  | .detachk _ _ => "DETACHK"
  | .detachd _ _ _ => "DETACHD"
  | .poll => "POLL"
  | .send _ => "SEND"
  | .fload _ _ _ _ _ _ _ => "FLOAD"
  | .fstore _ => "FSTORE"
  | .feq _ _ => "FEQ"

/-! ## Spellings (R73, R86, R87): they add no command -/

/-- The typed suffixes of WRITE and READ (R86). -/
inductive ValueType where
  | u8 | i8 | u16 | i16 | u32 | i32 | f32 | u64 | i64 | f64
  /-- `.B1` to `.B8`. -/
  | bytes (n : Nat)
  deriving DecidableEq, Repr

/-- `size_of(T)`: all that the block sees of a type (R86, R120). -/
def ValueType.size : ValueType → Nat
  | .u8 => 1
  | .i8 => 1
  | .u16 => 2
  | .i16 => 2
  | .u32 => 4
  | .i32 => 4
  | .f32 => 4
  | .u64 => 8
  | .i64 => 8
  | .f64 => 8
  | .bytes n => n

/-- `FCLR Fd` (R87). -/
def Instr.fclr (fd : FReg) : Instr := .fload fd 0 0 false false false 0

/-- `KEYOF type, id` (R87). -/
def Instr.keyof (type id : Byte) : Instr := .pack type id 0

/-- `DEVSEND Fd, type, id, command, [bytes]` (R87, R185). -/
def Instr.devsend (fd : FReg) (type id command : Byte) (len : Nat) (payload : DWord) : Instr :=
  .msend fd type id command len payload

/-- `DEVATTACH type, id, href` (R87, R185). -/
def Instr.devattach (type id : Byte) (href : Word) : Instr := .attach type id href

/-- `DEVDETACH type, id, href` (R87, R185). -/
def Instr.devdetach (type id : Byte) (href : Word) : Instr := .detachd type id href

/-- The DeviceType values the source fixes (R73): MotorDriver 1, ServoDriver 2; and MotorDriver's Command Target, 1. -/
def motorDriver : Byte := 1
/-- ServoDriver (R73). -/
def servoDriver : Byte := 2
/-- MotorDriver's Command Target (R73). -/
def motorTarget : Byte := 1

end Sys2Proof
end

