-- ==== Sys2Proof/WellFormed.lean ====
section
/-! DEFINITION. Which instructions some command can carry: the natural-number operands fit their fields (R76, R82). -/

namespace Sys2Proof

/-- `start_byte` and `size` are 8-bit fields (R82 b), `len` is the 32-bit `xdata` (R82 c). Every other operand's type is
exactly its field. Reserved operand values (size 0, a dlc field of 9 to 15) are legal words (R88), so they are well formed. -/
def Instr.wf : Instr → Bool
  | .pack _ _ _ => true
  | .unpack _ => true
  | .rkey _ => true
  | .write _ start size _ => decide (start < 256) && decide (size < 256)
  | .read _ start size => decide (start < 256) && decide (size < 256)
  | .make _ _ _ _ len _ => decide (len < 4294967296)
  | .msend _ _ _ _ len _ => decide (len < 4294967296)
  | .attach _ _ _ => true
  | .detachk _ _ => true
  | .detachd _ _ _ => true
  | .poll => true
  | .send _ => true
  | .fload _ _ _ _ _ _ _ => true
  | .fstore _ => true
  | .feq _ _ => true

end Sys2Proof
end

