-- ==== Sys2Proof/Decode.lean ====
section
/-! DEFINITION. The command word's layout (R76), the decoder (R77, R79), the opcode map as a table (R78), and the encoder
written from the same tables. Decoding reads `cw` alone to choose the operation; `xdata` and `wdata` only supply operands. -/

namespace Sys2Proof

/-- `cw[31:28]` (R76). -/
def fieldOp (cw : Word) : BitVec 4 := cw.extractLsb' 28 4
/-- `cw[27:26]` (R76). -/
def fieldF (cw : Word) : BitVec 2 := cw.extractLsb' 26 2
/-- `cw[25:24]`, reserved (R76). -/
def fieldRsv (cw : Word) : BitVec 2 := cw.extractLsb' 24 2
/-- `cw[23:16]` (R76). -/
def fieldA (cw : Word) : Byte := cw.extractLsb' 16 8
/-- `cw[15:8]` (R76). -/
def fieldB (cw : Word) : Byte := cw.extractLsb' 8 8
/-- `cw[7:0]` (R76). -/
def fieldC (cw : Word) : Byte := cw.extractLsb' 0 8

/-- The command word of R76's figure with `rsv = 00`. -/
def mkWord (op : BitVec 4) (f : BitVec 2) (a b c : Byte) : Word :=
  op ++ f ++ 0#2 ++ a ++ b ++ c

/-- The frame register a 2-bit field names (R76). -/
def regOf (f : BitVec 2) : FReg := f.toFin

/-- The 2-bit field that names a frame register (R76). -/
def regBits (r : FReg) : BitVec 2 := BitVec.ofNat 2 r.val

/-- Why a command word is illegal (R79 lists the four ways). -/
inductive IllegalWord where
  /-- `op` is `0x0` or `0xF`. -/
  | unusedOpcode
  /-- `rsv != 00`. -/
  | reservedBits
  /-- A field that R77 marks "0" is not zero. -/
  | fieldNotZero
  /-- `op = 0x9` and `c` is neither `0x00` nor `0x01`. -/
  | detachSelector
  deriving DecidableEq, Repr

/-- `i` if the fields R77 marks "0" are all zero. -/
def ifZero (zero : Bool) (i : Instr) : Except IllegalWord Instr :=
  if zero then .ok i else .error .fieldNotZero

/-- The decoder (R77, R79): total, one instruction or the reason the word is illegal. -/
def decode (cmd : Command) : Except IllegalWord Instr :=
  let f := fieldF cmd.cw
  let a := fieldA cmd.cw
  let b := fieldB cmd.cw
  let c := fieldC cmd.cw
  if fieldRsv cmd.cw ≠ 0#2 then .error .reservedBits else
  match (fieldOp cmd.cw).toNat with
  | 0x1 => ifZero (f == 0#2) (.pack a b c)
  | 0x2 => ifZero (f == 0#2 && a == 0#8 && b == 0#8 && c == 0#8) (.unpack cmd.xdata)
  | 0x3 => ifZero (f == 0#2 && a == 0#8 && b == 0#8 && c == 0#8) (.rkey cmd.xdata)
  | 0x4 => ifZero (c == 0#8) (.write (regOf f) a.toNat b.toNat cmd.wdata)
  | 0x5 => ifZero (c == 0#8) (.read (regOf f) a.toNat b.toNat)
  | 0x6 => .ok (.make (regOf f) a b c cmd.xdata.toNat cmd.wdata)
  | 0x7 => .ok (.msend (regOf f) a b c cmd.xdata.toNat cmd.wdata)
  | 0x8 => ifZero (f == 0#2 && c == 0#8) (.attach a b cmd.xdata)
  | 0x9 =>
    if c = 0x00#8 then ifZero (f == 0#2) (.detachk a b)
    else if c = 0x01#8 then ifZero (f == 0#2) (.detachd a b cmd.xdata)
    else .error .detachSelector
  | 0xA => ifZero (f == 0#2 && a == 0#8 && b == 0#8 && c == 0#8) .poll
  | 0xB => ifZero (a == 0#8 && b == 0#8 && c == 0#8) (.send (regOf f))
  | 0xC => ifZero (a == 0#8 && b == 0#8 && !c.getLsbD 7)
      (.fload (regOf f) cmd.xdata (c.extractLsb' 0 4) (c.getLsbD 4) (c.getLsbD 5) (c.getLsbD 6) cmd.wdata)
  | 0xD => ifZero (a == 0#8 && b == 0#8 && c == 0#8) (.fstore (regOf f))
  | 0xE => ifZero (a.extractLsb' 2 6 == 0#6 && b == 0#8 && c == 0#8) (.feq (regOf f) (regOf (a.extractLsb' 0 2)))
  | _ => .error .unusedOpcode

/-- The `c` field of FLOAD (R77): `c[3:0]` = dlc, `c[4]` = ext, `c[5]` = rtr, `c[6]` = err, `c[7]` = 0. -/
def floadC (dlc : BitVec 4) (ext rtr err : Bool) : Byte :=
  0#1 ++ BitVec.ofBool err ++ BitVec.ofBool rtr ++ BitVec.ofBool ext ++ dlc

/-- The encoder (R77, R78). Operands the operation ignores are sent as zero. -/
def encode : Instr → Command
  | .pack t d c => ⟨mkWord 0x1 0 t d c, 0, 0⟩
  | .unpack ident => ⟨mkWord 0x2 0 0 0 0, ident, 0⟩
  | .rkey ident => ⟨mkWord 0x3 0 0 0 0, ident, 0⟩
  | .write fd start size value =>
      ⟨mkWord 0x4 (regBits fd) (BitVec.ofNat 8 start) (BitVec.ofNat 8 size) 0, 0, value⟩
  | .read fs start size =>
      ⟨mkWord 0x5 (regBits fs) (BitVec.ofNat 8 start) (BitVec.ofNat 8 size) 0, 0, 0⟩
  | .make fd t d c len payload => ⟨mkWord 0x6 (regBits fd) t d c, BitVec.ofNat 32 len, payload⟩
  | .msend fd t d c len payload => ⟨mkWord 0x7 (regBits fd) t d c, BitVec.ofNat 32 len, payload⟩
  | .attach t d href => ⟨mkWord 0x8 0 t d 0, href, 0⟩
  | .detachk t d => ⟨mkWord 0x9 0 t d 0x00, 0, 0⟩
  | .detachd t d href => ⟨mkWord 0x9 0 t d 0x01, href, 0⟩
  | .poll => ⟨mkWord 0xA 0 0 0 0, 0, 0⟩
  | .send fs => ⟨mkWord 0xB (regBits fs) 0 0 0, 0, 0⟩
  | .fload fd id dlc ext rtr err data => ⟨mkWord 0xC (regBits fd) 0 0 (floadC dlc ext rtr err), id, data⟩
  | .fstore fs => ⟨mkWord 0xD (regBits fs) 0 0 0, 0, 0⟩
  | .feq fa fb => ⟨mkWord 0xE (regBits fa) (0#6 ++ regBits fb) 0 0, 0, 0⟩

/-- A row of R78's opcode map: a word `w` selects the operation iff `w & mask = pattern`. -/
structure OpcodeRow where
  mnemonic : String
  mask     : Word
  pattern  : Word
  deriving DecidableEq, Repr

/-- R78's opcode map. The decoder is not written from it: that the two agree is a statement about the decoder. -/
def opcodeTable : List OpcodeRow :=
  [ ⟨"PACK",    0xFF000000, 0x10000000⟩
  , ⟨"UNPACK",  0xFFFFFFFF, 0x20000000⟩
  , ⟨"RKEY",    0xFFFFFFFF, 0x30000000⟩
  , ⟨"WRITE",   0xF30000FF, 0x40000000⟩
  , ⟨"READ",    0xF30000FF, 0x50000000⟩
  , ⟨"MAKE",    0xF3000000, 0x60000000⟩
  , ⟨"MSEND",   0xF3000000, 0x70000000⟩
  , ⟨"ATTACH",  0xFF0000FF, 0x80000000⟩
  , ⟨"DETACHK", 0xFF0000FF, 0x90000000⟩
  , ⟨"DETACHD", 0xFF0000FF, 0x90000001⟩
  , ⟨"POLL",    0xFFFFFFFF, 0xA0000000⟩
  , ⟨"SEND",    0xF3FFFFFF, 0xB0000000⟩
  , ⟨"FLOAD",   0xF3FFFF80, 0xC0000000⟩
  , ⟨"FSTORE",  0xF3FFFFFF, 0xD0000000⟩
  , ⟨"FEQ",     0xF3FCFFFF, 0xE0000000⟩ ]

/-- A command written as one number: `cw` in bits 31..0, `xdata` in bits 63..32, `wdata` in bits 127..64. The spec gives a
command no layout as one number (R76: three values of one transfer); this order is the model's (notes/assumptions/3.md). -/
def Command.ofBits (w : Nat) : Command :=
  ⟨BitVec.ofNat 32 w, BitVec.ofNat 32 (w / 4294967296), BitVec.ofNat 64 (w / 18446744073709551616)⟩

/-- The command a row of the opcode table stands for: its `nbits` bits, every bit above them 0 (operands of zeros). -/
def tableCommand (nbits w : Nat) : Command := Command.ofBits (w % 2 ^ nbits)

/-- The instruction the decoder reads from a word of spec/opcode_table.json. -/
def decodeTableWord (nbits w : Nat) : Option Instr := (decode (tableCommand nbits w)).toOption

end Sys2Proof
end

