-- ==== Sys2Proof/Config.lean ====
section
/-! DEFINITION. What an implementation fixes: the four open parameters of R9 as plain data (State carries one such record,
so every statement about every state holds for every choice of them), and the one value the spec leaves free. -/

namespace Sys2Proof.Config

/-- `DUP_POLICY` (R9, R161, D14): what ATTACH does with a key that is already registered. -/
inductive DupPolicy where
  | reject
  | overwrite
  deriving DecidableEq, Repr

/-- The open parameters of R9. -/
structure Params where
  /-- `CAPACITY`: the number of route table slots (R20, D13). -/
  capacity  : Nat
  /-- `DUP_POLICY` (R161, D14). -/
  dupPolicy : DupPolicy
  /-- `H_W`: the width in bits of a handler reference (R22, D17). -/
  hrefBits  : Nat
  /-- `TYPE_KNOWN`: bit `t` is 1 when DeviceType value `t` has an enumeration member (R104, D6). -/
  typeKnown : BitVec 16
  deriving DecidableEq, Repr

/-- The defaults R9 gives: `CAPACITY = 16`, `DUP_POLICY = reject`, `H_W = 32`, `TYPE_KNOWN = 0xFFFF`. -/
def Params.default : Params :=
  { capacity := 16, dupPolicy := .reject, hrefBits := 32, typeKnown := 0xFFFF#16 }

/-- What R9 asks of the parameters: at least one slot; `H_W >= 1` and, since a reference is `xdata[H_W-1:0]` (R82 g), at
most the 32 bits of `xdata` (DEDUCED, notes/assumptions/4.md); bits 1 and 2 of `TYPE_KNOWN` are 1. -/
def Params.wf (p : Params) : Bool :=
  decide (1 ≤ p.capacity) && decide (1 ≤ p.hrefBits) && decide (p.hrefBits ≤ 32) &&
    p.typeKnown.getLsbD 1 && p.typeKnown.getLsbD 2

/-- FREE VALUE (R215, U9, D31: "any bit, per request"): the Transceiver's answer to its `n`-th send request, used where the
state carries no scripted answer. It has no body: no proof can learn a value of it (notes/assumptions/6.md). -/
opaque freeSendAnswer : Nat → Bool

end Sys2Proof.Config
end

