-- ==== Sys2Proof/Machine/State.lean ====
section
/-! DEFINITION. The machine's state as plain data: the block's own state (route table, frame registers, `in_poll`: R20, R23,
R27), its ports (command, response, Transceiver, dispatch: R75, R76, R80, R215, R216, R218) and its parameters (R9); and the
state after reset (R35). -/

namespace Sys2Proof.Machine

/-- The Frame record of R11. `dlc` is a natural number; the Frame invariant (R24) is `Frame.wf` in Safety.lean. -/
structure Frame where
  id   : Word
  data : Vector Byte 8
  dlc  : Nat
  ext  : Bool
  rtr  : Bool
  err  : Bool
  deriving DecidableEq, Repr

/-- `ZERO_FRAME` (R11). -/
def zeroFrame : Frame :=
  { id := 0, data := Vector.replicate 8 0, dlc := 0, ext := false, rtr := false, err := false }

/-- The 103 signals that carry a frame wherever it crosses a port (R75): `Frame.toPort` gives a Frame's signals and `normFrame`
the Frame that signals denote. Signals may break the Frame invariant: `dlc` is any 4-bit value and any data byte may be set
(R143). -/
structure PortFrame where
  id   : Word
  data : DWord
  dlc  : BitVec 4
  ext  : Bool
  rtr  : Bool
  err  : Bool
  deriving DecidableEq, Repr

/-- One slot of the route table (R20). A handler reference is kept in 32 bits, of which `H_W` can be set (R22). -/
structure Slot where
  valid : Bool
  key   : Ident
  href  : Word
  deriving DecidableEq, Repr

/-- A free slot as reset leaves it (R35): `valid = 0`. The spec leaves `key` and `href` unspecified and unread; the model
holds zeros there (DESIGN CHOICE, notes/assumptions/2.md). -/
def freeSlot : Slot := { valid := false, key := 0, href := 0 }

/-- The cause codes of R201; their 3-bit numbers are `Cause.code` in Flags.lean. -/
inductive Cause where
  /-- `ok = 1`. -/
  | noFailure
  /-- WRITE, READ: `start + size > 8`. -/
  | encBound
  /-- READ: `start + size <= 8` and `start + size > dlc`. -/
  | encDlc
  /-- ATTACH: the key is not registered and every slot is valid. -/
  | capacity
  /-- ATTACH: `DUP_POLICY = reject` and the key is registered. -/
  | duplicate
  /-- SEND, MSEND: the Transceiver answered 0. -/
  | transport
  /-- Illegal command word, `size = 0`, dlc field 9 to 15, POLL while a POLL is open. -/
  | illegal
  deriving DecidableEq, Repr

/-- The signals of the response port (R80). -/
structure Response where
  ok    : Bool
  cause : BitVec 3
  rx    : Word
  rdata : DWord
  rmeta : BitVec 7
  deriving DecidableEq, Repr

/-- An open request on the dispatch port (R208, R218): the handler reference and the Frame's signals (R75) being driven. -/
structure DispatchRequest where
  href  : Word
  frame : PortFrame
  deriving DecidableEq, Repr

/-- What the outside world presents to the block, one item a step. Commands come from the one thread of execution (R205):
while a dispatch is open they are the running handler's (R209), otherwise the host's. -/
inductive Input where
  /-- A command on the command port (R76). -/
  | command (c : Command)
  /-- The completion signal of the dispatch port (R210, R218). It ends an open dispatch; with none open it has no effect. -/
  | completion
  /-- The reset input is driven to a level (R230): `true` asserts it, `false` releases it. It keeps the level until the next
  input of this kind. -/
  | reset (asserted : Bool)
  /-- The Transceiver's receive queue now holds `q`, head first, whatever its driver did to it (R216: "filled from the bus by
  a producer the block does not see, possibly while a POLL is running"). `more` says that its answer after those frames is
  not settled yet: it comes with a later input of this kind. -/
  | receiveQueue (q : List PortFrame) (more : Bool)
  deriving DecidableEq, Repr

/-- What the block did on its ports: an event of the model's record (notes/assumptions/5.md). -/
inductive PortEvent where
  /-- A response on the response port (R80). -/
  | response (r : Response)
  /-- One `XCV.send` request, with the 103 signals it presents (R75), and the Transceiver's answer (R215). -/
  | send (p : PortFrame) (accepted : Bool)
  /-- One `XCV.receive()` request and its answer (R216). -/
  | receive (answer : Option PortFrame)
  /-- One request on the dispatch port, with the reference and the 103 signals it drives (R208, R218). -/
  | dispatch (href : Word) (p : PortFrame)
  deriving DecidableEq, Repr

/-- The whole state. No step changes `cfg`. -/
structure State where
  /-- The open parameters of R9 (a parameter of the model, not state of the block). -/
  cfg         : Config.Params
  /-- The route table `RT`, slot 0 first (R20). -/
  rt          : List Slot
  /-- The frame registers `F[0]` to `F[3]` (R23). -/
  f           : Vector Frame 4
  /-- The hidden bit `in_poll` (R27). -/
  inPoll      : Bool
  /-- The dispatch port: the request that waits for completion, if one is open (R208 to R211, R218). -/
  dispatch    : Option DispatchRequest
  /-- The level of the reset input: whether it is asserted (R230). -/
  inReset     : Bool
  /-- Environment: what is still to be presented to the block, next first (R30, R205). -/
  input       : List Input
  /-- Environment: the Transceiver's receive queue `RXQ`, head first (R216, D31). -/
  rxq         : List PortFrame
  /-- Environment: whether the Transceiver's answer after `rxq` is still to come (`false`: it is `none`, R216). A drain that
  has used `rxq` up then goes on with the next `receiveQueue` input, and never ends if none comes (R171, R240). -/
  rxMore      : Bool
  /-- Environment: the Transceiver's answers to the next send requests, next first (R215, D31). When it is empty the answer
  is the free value `Config.freeSendAnswer`. -/
  sendAnswers : List Bool
  /-- The model's own counter of `XCV.send` requests; it picks the next free answer. -/
  sendCount   : Nat
  /-- The model's own record of what happened on the ports, newest first. -/
  trace       : List PortEvent
  deriving DecidableEq, Repr

/-- Why the machine stops: for no reason. The block never traps or halts (R200), whatever command is executed and whatever
signal reaches a port, so the type has no constructor and nothing raises a fault. -/
inductive Fault where
  deriving DecidableEq, Repr

/-- Why a command has no meaning. Every command of R78 has one, and an illegal word is answered by a response (R79). -/
inductive Refusal where
  /-- Raised by an arm of `exec` for a command that has no meaning yet: by none. Safe. -/
  | notModelled (mnemonic : String)
  deriving DecidableEq, Repr

/-- The state after reset for given parameters (R35): every slot free, every frame register `ZERO_FRAME`, `in_poll = 0`, and
the reset input released (R230). The environment's fields are empty: nothing is presented, the Transceiver holds nothing (notes/assumptions/2.md). -/
def State.resetWith (p : Config.Params) : State :=
  { cfg := p
    rt := List.replicate p.capacity freeSlot
    f := Vector.replicate 4 zeroFrame
    inPoll := false
    dispatch := none
    inReset := false
    input := []
    rxq := []
    rxMore := false
    sendAnswers := []
    sendCount := 0
    trace := [] }

/-- The machine right after reset, with the default parameters of R9. -/
def State.reset : State := State.resetWith Config.Params.default

end Sys2Proof.Machine
end

