-- ==== Sys2Proof/Machine/Flags.lean ====
section
/-! DEFINITION. The outcome of a command (R31: the block has no flag register; a command's outcome is its response's `ok` bit
and `cause` code): the code numbers of R201 and the shapes of a response (R12 `respond` and `fail`, R80). -/

namespace Sys2Proof.Machine

/-- The 3-bit numbers of R201; 7 is never produced. -/
def Cause.code : Cause → BitVec 3
  | .noFailure => 0
  | .encBound => 1
  | .encDlc => 2
  | .capacity => 3
  | .duplicate => 4
  | .transport => 5
  | .illegal => 6

/-- `respond(ok = 1, cause = 0)` with every result component zero (R12). -/
def okResponse : Response :=
  { ok := true, cause := Cause.noFailure.code, rx := 0, rdata := 0, rmeta := 0 }

/-- The response of a failed command: `ok = 0`, the cause, every result component zero (R12, R80). -/
def failResponse (c : Cause) : Response :=
  { ok := false, cause := c.code, rx := 0, rdata := 0, rmeta := 0 }

/-- The response of SEND and MSEND: `ok` is the Transceiver's answer, 0 gives cause TRANSPORT (R180, R182). -/
def sendResponse (accepted : Bool) : Response :=
  { ok := accepted
    cause := if accepted then Cause.noFailure.code else Cause.transport.code
    rx := 0, rdata := 0, rmeta := 0 }

end Sys2Proof.Machine
end

