-- ==== Sys2Proof/Machine/Operands.lean ====
section
/-! DEFINITION. Operand assembly (R82), the identifier's fields (R70, R71), the routing key (R106, R108), and the byte lanes
of 64-bit operands and results (R51, R75). -/

namespace Sys2Proof.Machine

/-- `type & 0xF` or `id & 0xF` (R82 a): the low 4 bits of an 8-bit operand. -/
def nibble (b : Byte) : BitVec 4 := (b &&& 0x0F#8).setWidth 4

/-- `command & 0x7` (R82 a): the low 3 bits of an 8-bit operand. -/
def triple (b : Byte) : BitVec 3 := (b &&& 0x07#8).setWidth 3

/-- `pack(t, d, c)` (R100, R70): `(t & 0xF) << 7 | (d & 0xF) << 3 | (c & 0x7)` on 11 bits. -/
def pack (t d c : Byte) : Ident :=
  ((nibble t).setWidth 11 <<< 7) ||| ((nibble d).setWidth 11 <<< 3) ||| (triple c).setWidth 11

/-- `devkey(t, d)` (R108): the routing key of a device. -/
def devKey (t d : Byte) : Ident :=
  ((nibble t).setWidth 11 <<< 7) ||| ((nibble d).setWidth 11 <<< 3)

/-- The DeviceType field of a 32-bit identifier operand, `ident[10:7]` (R103). -/
def identType (i : Word) : BitVec 4 := ((i >>> 7) &&& 0xF#32).setWidth 4

/-- The DeviceId field, `ident[6:3]` (R103). -/
def identDev (i : Word) : BitVec 4 := ((i >>> 3) &&& 0xF#32).setWidth 4

/-- The Command field, `ident[2:0]` (R103). -/
def identCommand (i : Word) : BitVec 3 := (i &&& 0x7#32).setWidth 3

/-- `tk = TYPE_KNOWN[t]` (R103, R104 c). -/
def typeKnown (p : Config.Params) (t : BitVec 4) : Bool := p.typeKnown.getLsbD t.toNat

/-- The result word of UNPACK (R80, R103): `tk` in bit 31, the type in `[23:16]`, the id in `[15:8]`, the command in `[7:0]`. -/
def unpackWord (p : Config.Params) (i : Word) : Word :=
  ((BitVec.ofBool (typeKnown p (identType i))).setWidth 32 <<< 31) |||
    ((identType i).setWidth 32 <<< 16) ||| ((identDev i).setWidth 32 <<< 8) ||| (identCommand i).setWidth 32

/-- `rkey(i) = i & 0xFFFFFFF8` on 32 bits (R106; 90_conflicts.md C1). -/
def rkey (i : Word) : Word := i &&& 0xFFFFFFF8#32

/-- `xdata[H_W-1:0]` (R82 g): the handler reference in an operand. -/
def hrefOf (p : Config.Params) (xdata : Word) : Word := BitVec.ofNat 32 (xdata.toNat % 2 ^ p.hrefBits)

/-- Byte lane `j` of a 64-bit operand, bits `[8j+7:8j]` (R51, R76). -/
def laneOf (v : DWord) (j : Nat) : Byte := v.extractLsb' (8 * j) 8

/-- The 64-bit value whose byte lane `j` is `g j` (R51, R75, R146): `g 7 ++ ... ++ g 0`. -/
def ofLanes (g : Nat → Byte) : DWord :=
  g 7 ++ g 6 ++ g 5 ++ g 4 ++ g 3 ++ g 2 ++ g 1 ++ g 0

/-- The 8-byte buffer whose byte `j` is `g j` (R11, R50). -/
def bufferOf (g : Nat → Byte) : Vector Byte 8 := Vector.ofFn fun j => g j.val

/-- `min(len, 8)` (R82 c): the number of payload bytes of MAKE and MSEND. -/
def payloadBytes (len : Nat) : Nat := min len 8

end Sys2Proof.Machine
end

