-- ==== Sys2Proof/Machine/Ops.lean ====
section
/-! DEFINITION. The named operations of the machine: responding (R12), the frame registers and their data buffers (R23, R50
to R53), frames that enter and are built (R141, R143), the route table (R20, R161, R165, R167, R173), the Transceiver port
(R215, R216), and the block's only control transfer, dispatch entry and return (R208 to R210), with the drain loop of POLL
(R170) they are part of. -/

namespace Sys2Proof.Machine

/-! ## Ports and responses -/

/-- Record one event on the block's ports. -/
def State.emit (e : PortEvent) (s : State) : State := { s with trace := e :: s.trace }

/-- `respond(...)` (R12): the command ends and the response port carries `r`. -/
def State.respond (r : Response) (s : State) : State := s.emit (.response r)

/-- `fail(cause)` (R12): a failed response and no other change of state. -/
def State.fail (c : Cause) (s : State) : State := s.respond (failResponse c)

/-! ## Frame registers and their data buffers -/

/-- `F[i]` (R12). -/
def State.getF (s : State) (i : FReg) : Frame := s.f[i]

/-- `F[i] <- fr` (R12). -/
def State.setF (i : FReg) (fr : Frame) (s : State) : State := { s with f := s.f.set i fr }

/-- `data[a]` (R50). Addresses 8 and above do not exist; every access that reaches one is refused before it gets here
(R53). -/
def Frame.byte (fr : Frame) (a : Nat) : Byte := fr.data[a]?.getD 0

/-- `MemRead(i, a, n)` (R12, R51), zero-extended to 64 bits: byte lane `j` is `data[a+j]` for `j < n`. -/
def Frame.memRead (fr : Frame) (a n : Nat) : DWord :=
  ofLanes fun j => if j < n then fr.byte (a + j) else 0

/-- `MemWrite(i, a, n, v)` (R12, R51): `data[a+j] <- v[8j+7:8j]` for `j < n`, no other byte. -/
def Frame.memWrite (fr : Frame) (a n : Nat) (v : DWord) : Frame :=
  { fr with data := bufferOf fun k => if a ≤ k ∧ k < a + n then laneOf v (k - a) else fr.byte k }

/-- The effect of a successful WRITE on the register (R121): the bytes, then `dlc <- max(dlc, start + size)`. -/
def Frame.write (fr : Frame) (start size : Nat) (v : DWord) : Frame :=
  { fr.memWrite start size v with dlc := max fr.dlc (start + size) }

/-- The 8 data bytes of a Frame as the 64 data signals of a port (R75, R146). -/
def Frame.lanes (fr : Frame) : DWord := ofLanes fr.byte

/-- The 103 signals of a Frame that crosses a port (R75): the FSTORE result, the send port, the dispatch port. -/
def Frame.toPort (fr : Frame) : PortFrame :=
  { id := fr.id, data := fr.lanes, dlc := BitVec.ofNat 4 fr.dlc, ext := fr.ext, rtr := fr.rtr, err := fr.err }

/-- The `rmeta` signals of FSTORE (R80, R146): `err`, `rtr`, `ext`, then the 4 bits of `dlc`. -/
def PortFrame.metaBits (p : PortFrame) : BitVec 7 :=
  BitVec.ofBool p.err ++ BitVec.ofBool p.rtr ++ BitVec.ofBool p.ext ++ p.dlc

/-- Frame equality (R147): id, dlc, flags, and exactly the first `dlc` data bytes. -/
def Frame.eqv (x y : Frame) : Bool :=
  x.id == y.id && x.dlc == y.dlc && x.ext == y.ext && x.rtr == y.rtr && x.err == y.err &&
    (List.range x.dlc).all fun j => x.byte j == y.byte j

/-- `mkframe(type, id, command, len, pl)` (R141). -/
def mkFrame (t d c : Byte) (len : Nat) (payload : DWord) : Frame :=
  { id := (pack t d c).setWidth 32
    data := bufferOf fun j => if j < payloadBytes len then laneOf payload j else 0
    dlc := payloadBytes len
    ext := false, rtr := false, err := false }

/-- R143 `norm`: a port value whose `dlc` is above 8 is no Frame; otherwise the bytes at index `>= dlc` become zero. -/
def normFrame (p : PortFrame) : Option Frame :=
  if p.dlc.toNat > 8 then none
  else some
    { id := p.id
      data := bufferOf fun j => if j < p.dlc.toNat then laneOf p.data j else 0
      dlc := p.dlc.toNat
      ext := p.ext, rtr := p.rtr, err := p.err }

/-! ## The route table -/

/-- A valid slot with key `k` (R161, R165). -/
def Slot.holds (k : Ident) (sl : Slot) : Bool := sl.valid && sl.key == k

/-- A valid slot with key `k` and handler reference `h` (R167). -/
def Slot.holdsDevice (k : Ident) (h : Word) (sl : Slot) : Bool := sl.valid && sl.key == k && sl.href == h

/-- A valid slot whose key, zero-extended to 32 bits, equals `k` (R173). -/
def Slot.routes (k : Word) (sl : Slot) : Bool := sl.valid && sl.key.setWidth 32 == k

/-- `RT[s].valid <- 0`: `key` and `href` stay where they are, unread (R26, R165). -/
def Slot.cleared (sl : Slot) : Slot := ⟨false, sl.key, sl.href⟩

/-- `RT[s].href <- h` (R161, `DUP_POLICY = overwrite`). -/
def Slot.withHref (h : Word) (sl : Slot) : Slot := ⟨sl.valid, sl.key, h⟩

/-- `RT[s].valid <- 0` in the first slot that meets `p`, if there is one; no other slot changes or moves (R26). -/
def removeSlot (p : Slot → Bool) (rt : List Slot) : List Slot :=
  match rt.findIdx? p with
  | some i => rt.modify i Slot.cleared
  | none => rt

/-- The lookup of R173 and R106: the handler reference of the valid slot whose key is `rkey` of the frame's id. -/
def route (rt : List Slot) (id : Word) : Option Word := (rt.find? (Slot.routes (rkey id))).map Slot.href

/-- ATTACH of key `k` with handler reference `h` (R161): the new table, or why there is none. The duplicate test comes before
the capacity test (R203); a new registration takes the free slot with the lowest index (R26). -/
def attachTable (policy : Config.DupPolicy) (k : Ident) (h : Word) (rt : List Slot) : Except Cause (List Slot) :=
  match rt.findIdx? (Slot.holds k) with
  | some i =>
    match policy with
    | .reject => .error .duplicate
    | .overwrite => .ok (rt.modify i (Slot.withHref h))
  | none =>
    match rt.findIdx? fun sl => !sl.valid with
    | none => .error .capacity
    | some i => .ok (rt.set i ⟨true, k, h⟩)

/-- `RT <- rt`. -/
def State.setRt (rt : List Slot) (s : State) : State := { s with rt := rt }

/-! ## The Transceiver's send port -/

/-- The Transceiver's answer to the next `XCV.send` request (R215): the environment's script if it has one left, else a free
value. -/
def State.sendAnswer (s : State) : Bool :=
  match s.sendAnswers with
  | a :: _ => a
  | [] => Config.freeSendAnswer s.sendCount

/-- One `XCV.send(fr)` request, which presents the Frame's signals (R215, R75); its answer is `s.sendAnswer`. -/
def State.xcvSend (fr : Frame) (s : State) : State :=
  { s with
    sendAnswers := s.sendAnswers.tail
    sendCount := s.sendCount + 1
    trace := .send fr.toPort s.sendAnswer :: s.trace }

/-! ## Dispatch entry, the drain loop of POLL, dispatch return -/

/-- Dispatch entry (R208, R173, R25): `F[3] <- fr`, then the dispatch port drives `h` and the signals of `fr` (R75) and waits. Nothing else is
saved and nothing else changes. -/
def enterDispatch (h : Word) (fr : Frame) (s : State) : State :=
  ({ s with f := s.f.set 3 fr, dispatch := some ⟨h, fr.toPort⟩ }).emit (.dispatch h fr.toPort)

/-- The drain has received `none` (R170, R171): POLL ends and responds. -/
def endPoll (s : State) : State := ({ s with inPoll := false }).respond okResponse

/-- A POLL is between two `XCV.receive()` requests: it is open and no dispatch is. The host is waiting for its response, so
no command can be presented (R205). -/
def State.draining (s : State) : Bool := s.inPoll && s.dispatch.isNone

/-- The loop of POLL (R170) over the Transceiver's queue, until a frame is dispatched or `XCV.receive()` answers `none`. A
value that is no Frame (R172) and a frame whose key is not registered (R174) are dropped and change no state of the block.
Where the answer after the queue is still to come (`rxMore`), the POLL stays open between two requests. -/
def drain : List PortFrame → State → State
  | [], s =>
    if s.rxMore then { s with rxq := [] }
    else endPoll (({ s with rxq := [] }).emit (.receive none))
  | p :: q, s =>
    match normFrame p with
    | none => drain q (s.emit (.receive (some p)))
    | some fr =>
      match route s.rt fr.id with
      | none => drain q (s.emit (.receive (some p)))
      | some h => enterDispatch h fr (({ s with rxq := q }).emit (.receive (some p)))

/-- Dispatch return (R210): the request closes, nothing is restored, and the drain loop of POLL goes on with the next
`XCV.receive()`. -/
def leaveDispatch (s : State) : State := drain s.rxq { s with dispatch := none }

/-- The Transceiver's receive queue changes (R216). A POLL that is between two requests goes on with the next one; in any
other state nothing asks the Transceiver for a frame. -/
def changeQueue (q : List PortFrame) (more : Bool) (s : State) : State :=
  if s.draining then drain q { s with rxq := q, rxMore := more } else { s with rxq := q, rxMore := more }

/-! ## Reset -/

/-- The reset of the block (R230, R231): its state becomes the reset state and an open POLL and an open dispatch are abandoned
without a response. The environment is not touched. -/
def resetBlock (s : State) : State :=
  { s with
    rt := List.replicate s.cfg.capacity freeSlot
    f := Vector.replicate 4 zeroFrame
    inPoll := false
    dispatch := none }

/-- The reset input is driven to a level (R230). It resets the block while it is asserted, so the block is reset from the moment
it is asserted and is exactly so when it is released; releasing an input that is not asserted is no event. -/
def setReset (asserted : Bool) (s : State) : State :=
  if asserted || s.inReset then { resetBlock s with inReset := asserted } else s

end Sys2Proof.Machine
end

