-- ==== Sys2Proof/Machine/FrameOps.lean ====
section
/-! DEFINITION. The frame operations: MAKE, FLOAD, FSTORE, FEQ. -/

namespace Sys2Proof.Machine

/-- MAKE (R141). -/
def execMake (fd : FReg) (t d c : Byte) (len : Nat) (payload : DWord) (s : State) :
    Host.Outcome State Fault Refusal :=
  .next ((s.setF fd (mkFrame t d c len payload)).respond okResponse)

/-- FLOAD (R144, R143). -/
def execFload (fd : FReg) (id : Word) (dlc : BitVec 4) (ext rtr err : Bool) (data : DWord) (s : State) :
    Host.Outcome State Fault Refusal :=
  match normFrame { id := id, data := data, dlc := dlc, ext := ext, rtr := rtr, err := err } with
  | none => .next (s.fail .illegal)
  | some fr => .next ((s.setF fd fr).respond okResponse)

/-- FSTORE (R146): the register's signals (R75) on the response port. -/
def execFstore (fs : FReg) (s : State) : Host.Outcome State Fault Refusal :=
  .next (s.respond { okResponse with
    rx := (s.getF fs).toPort.id, rdata := (s.getF fs).toPort.data, rmeta := (s.getF fs).toPort.metaBits })

/-- FEQ (R147): the verdict is `rx[0]`. -/
def execFeq (fa fb : FReg) (s : State) : Host.Outcome State Fault Refusal :=
  .next (s.respond { okResponse with rx := (BitVec.ofBool ((s.getF fa).eqv (s.getF fb))).setWidth 32 })

end Sys2Proof.Machine
end

