-- ==== Sys2Proof/Machine/IdentifierCodec.lean ====
section
/-! DEFINITION. The identifier codec (IDC): PACK, UNPACK, RKEY. They read and write no state and cannot fail. -/

namespace Sys2Proof.Machine

/-- PACK (R100). -/
def execPack (t d c : Byte) (s : State) : Host.Outcome State Fault Refusal :=
  .next (s.respond { okResponse with rx := (pack t d c).setWidth 32 })

/-- UNPACK (R103, R104). -/
def execUnpack (ident : Word) (s : State) : Host.Outcome State Fault Refusal :=
  .next (s.respond { okResponse with rx := unpackWord s.cfg ident })

/-- RKEY (R106). -/
def execRkey (ident : Word) (s : State) : Host.Outcome State Fault Refusal :=
  .next (s.respond { okResponse with rx := rkey ident })

end Sys2Proof.Machine
end

