-- ==== Sys2Proof/Machine/PayloadMarshaller.lean ====
section
/-! DEFINITION. The payload marshaller (PLM): WRITE, READ. The tests stand in R203's order. -/

namespace Sys2Proof.Machine

/-- WRITE (R121, R53, R130). -/
def execWrite (fd : FReg) (start size : Nat) (value : DWord) (s : State) : Host.Outcome State Fault Refusal :=
  if size = 0 then .next (s.fail .illegal)
  else if start + size > 8 then .next (s.fail .encBound)
  else .next ((s.setF fd ((s.getF fd).write start size value)).respond okResponse)

/-- READ (R125, R53, R56, R130). -/
def execRead (fs : FReg) (start size : Nat) (s : State) : Host.Outcome State Fault Refusal :=
  if size = 0 then .next (s.fail .illegal)
  else if start + size > 8 then .next (s.fail .encBound)
  else if start + size > (s.getF fs).dlc then .next (s.fail .encDlc)
  else .next (s.respond { okResponse with rdata := (s.getF fs).memRead start size })

end Sys2Proof.Machine
end

