-- ==== Sys2Proof/Machine/Router.lean ====
section
/-! DEFINITION. The frame router (RTR): ATTACH, DETACHK, DETACHD, POLL, SEND, MSEND. -/

namespace Sys2Proof.Machine

/-- ATTACH (R161). -/
def execAttach (t d : Byte) (href : Word) (s : State) : Host.Outcome State Fault Refusal :=
  match attachTable s.cfg.dupPolicy (devKey t d) (hrefOf s.cfg href) s.rt with
  | .error c => .next (s.fail c)
  | .ok rt => .next ((s.setRt rt).respond okResponse)

/-- DETACHK (R165): an absent key is a no-op, not an error. -/
def execDetachk (t d : Byte) (s : State) : Host.Outcome State Fault Refusal :=
  .next ((s.setRt (removeSlot (Slot.holds (devKey t d)) s.rt)).respond okResponse)

/-- DETACHD (R167): key and handler reference must both match. -/
def execDetachd (t d : Byte) (href : Word) (s : State) : Host.Outcome State Fault Refusal :=
  .next ((s.setRt (removeSlot (Slot.holdsDevice (devKey t d) (hrefOf s.cfg href)) s.rt)).respond okResponse)

/-- POLL (R170): refused while a POLL is open; otherwise it opens and drains up to its first dispatch, or to its response.
After a dispatch the handler's commands follow as steps of their own, and its completion resumes the drain
(`leaveDispatch`). -/
def execPoll (s : State) : Host.Outcome State Fault Refusal :=
  if s.inPoll then .next (s.fail .illegal)
  else .next (drain s.rxq { s with inPoll := true })

/-- SEND (R180). -/
def execSend (fs : FReg) (s : State) : Host.Outcome State Fault Refusal :=
  .next ((s.xcvSend (s.getF fs)).respond (sendResponse s.sendAnswer))

/-- MSEND (R182): the built frame stays in `Fd` whatever the answer. -/
def execMsend (fd : FReg) (t d c : Byte) (len : Nat) (payload : DWord) (s : State) :
    Host.Outcome State Fault Refusal :=
  .next (((s.setF fd (mkFrame t d c len payload)).xcvSend (mkFrame t d c len payload)).respond
    (sendResponse s.sendAnswer))

end Sys2Proof.Machine
end

