-- ==== Sys2Proof/Machine/Dispatch.lean ====
section
/-! DEFINITION. The one place that gives every instruction its meaning: one arm per constructor of Instr. -/

namespace Sys2Proof.Machine

def exec (i : Instr) (s : State) : Host.Outcome State Fault Refusal :=
  match i with
  -- IDC
  | .pack t d c => Sys2Proof.Machine.execPack t d c s
  | .unpack ident => Sys2Proof.Machine.execUnpack ident s
  | .rkey ident => Sys2Proof.Machine.execRkey ident s
  -- PLM
  | .write fd start size value => Sys2Proof.Machine.execWrite fd start size value s
  | .read fs start size => Sys2Proof.Machine.execRead fs start size s
  -- frame
  | .make fd t d c len payload => Sys2Proof.Machine.execMake fd t d c len payload s
  -- RTR
  | .msend fd t d c len payload => Sys2Proof.Machine.execMsend fd t d c len payload s
  | .attach t d href => Sys2Proof.Machine.execAttach t d href s
  | .detachk t d => Sys2Proof.Machine.execDetachk t d s
  | .detachd t d href => Sys2Proof.Machine.execDetachd t d href s
  | .poll => Sys2Proof.Machine.execPoll s
  | .send fs => Sys2Proof.Machine.execSend fs s
  -- frame
  | .fload fd id dlc ext rtr err data => Sys2Proof.Machine.execFload fd id dlc ext rtr err data s
  | .fstore fs => Sys2Proof.Machine.execFstore fs s
  | .feq fa fb => Sys2Proof.Machine.execFeq fa fb s

end Sys2Proof.Machine
end

