-- ==== Sys2Proof/Machine/Inputs.lean ====
section
/-! DEFINITION. What each kind of input does to the block: a command is decoded and executed (R79, R202), a completion ends
the open dispatch (R210), reset (R230), and a change of the Transceiver's receive queue (R216). -/

namespace Sys2Proof.Machine

/-- A command on the command port: its operation's meaning, or `fail(ILLEGAL)` for an illegal word (R79, R202). -/
def runCommand (c : Command) (s : State) : Host.Outcome State Fault Refusal :=
  match decode c with
  | .ok i => exec i s
  | .error _ => .next (s.fail .illegal)

/-- A command presented on the command port. While reset is asserted no command is accepted (R230): the block does nothing with
it, and it gets no response (notes/assumptions/10.md). -/
def takeCommand (c : Command) (s : State) : Host.Outcome State Fault Refusal :=
  if s.inReset then .next s else runCommand c s

/-- The completion signal of the dispatch port: it ends the open dispatch (R210). With no request open there is nothing that it
could end, and the block holds its state (R219; notes/assumptions/8.md). -/
def takeCompletion (s : State) : Host.Outcome State Fault Refusal :=
  match s.dispatch with
  | some _ => .next (leaveDispatch s)
  | none => .next s

/-- The effect of one input on the state it has been taken from. -/
def takeInput (e : Input) (s : State) : Host.Outcome State Fault Refusal :=
  match e with
  | .command c => takeCommand c s
  | .completion => takeCompletion s
  | .reset asserted => .next (setReset asserted s)
  | .receiveQueue q more => .next (changeQueue q more s)

/-- A command is taken only when the previous one (at the same nesting level) has responded (R30, R205): while a POLL is
between two requests a command waits. One that is presented while reset is asserted waits for nothing: it is not accepted
(R230). Every other input is taken at once. -/
def mustWait (e : Input) (s : State) : Bool :=
  match e with
  | .command _ => s.draining && !s.inReset
  | .completion => false
  | .reset _ => false
  | .receiveQueue _ _ => false

/-- Present a command of the opcode table as the next input. -/
def presentWord (nbits w : Nat) (s : State) : State :=
  { s with input := .command (tableCommand nbits w) :: s.input }

end Sys2Proof.Machine
end

