-- ==== Sys2Proof/Machine/Step.lean ====
section
/-! DEFINITION. One step of the machine: it takes the next input that is presented to the block. There is no program counter
and nothing is fetched (R30). -/

namespace Sys2Proof.Machine

/-- The next input is taken. With none, and while a command has to wait for an open POLL, the block holds its state (R219,
R240). -/
def step (s : State) : Host.Outcome State Fault Refusal :=
  match s.input with
  | [] => .next s
  | e :: rest => if mustWait e s then .next s else takeInput e { s with input := rest }

/-- The state in which the next step runs the command that a word of spec/opcode_table.json stands for: the command is
presented on the command port, before whatever else is to be presented (in a state where a POLL is between two requests no
command can run, R205, nor while reset is asserted, R230). -/
def State.withFetchWord (s : State) (nbits w : Nat) : State := presentWord nbits w s

end Sys2Proof.Machine
end

