-- ==== Sys2Proof/Safety.lean ====
section
/-! DEFINITION. What a state that a run can reach looks like, and the notions the statements use: the Frame invariant (R24), the
route table invariants (R21), what the ports may carry (R75, R80, R201), what a drain does (R170), and which command may
change what (R20, R23). -/

namespace Sys2Proof.Machine

/-! ## Invariants -/

/-- The Frame invariant (R24): `dlc <= 8`, and the bytes at index `>= dlc` are zero. -/
abbrev Frame.wf (fr : Frame) : Prop :=
  fr.dlc ≤ 8 ∧ ∀ j : Fin 8, fr.dlc ≤ j.val → fr.data[j] = 0#8

/-- The signals of a Frame (R75, R24): `dlc <= 8`, and the byte lanes at index `>= dlc` are zero. -/
abbrev PortFrame.wf (p : PortFrame) : Prop :=
  p.dlc.toNat ≤ 8 ∧ ∀ j : Fin 8, p.dlc.toNat ≤ j.val → laneOf p.data j = 0#8

/-- R21.2 for one slot: a valid slot's key has `key[2:0] = 0`; and its reference has `H_W` bits (R22). -/
abbrev Slot.wf (p : Config.Params) (sl : Slot) : Prop :=
  sl.valid = true → sl.key &&& 0x007#11 = 0#11 ∧ sl.href.toNat < 2 ^ p.hrefBits

/-- R21.1: two different valid slots have different keys. -/
abbrev uniqueKeys (rt : List Slot) : Prop :=
  rt.Pairwise fun a b => a.valid = true → b.valid = true → a.key ≠ b.key

/-- R21, and R20's number of slots (which gives R21.3). -/
abbrev tableWf (p : Config.Params) (rt : List Slot) : Prop :=
  rt.length = p.capacity ∧ uniqueKeys rt ∧ ∀ sl ∈ rt, sl.wf p

/-- The block's state is that of R35: every slot free, every frame register `ZERO_FRAME`, no POLL and no dispatch open. -/
abbrev blockIsReset (s : State) : Prop :=
  (∀ sl ∈ s.rt, sl.valid = false) ∧ (∀ k : FReg, s.getF k = zeroFrame) ∧ s.inPoll = false ∧ s.dispatch = none

/-- The states the machine keeps to: parameters R9 admits, R21, R24, a dispatch only inside a POLL (R208, R27) and with the
signals of a Frame on its port (R75); a POLL between two requests has used up the queue it was given; and the block is reset
while reset is asserted (R230). -/
abbrev Inv (s : State) : Prop :=
  s.cfg.wf = true ∧ tableWf s.cfg s.rt ∧ (∀ i : FReg, (s.getF i).wf) ∧
    (∀ d ∈ s.dispatch, s.inPoll = true ∧ d.frame.wf) ∧
    (s.draining = true → s.rxq = [] ∧ s.rxMore = true) ∧ (s.inReset = true → blockIsReset s)

/-- R80 and R201 of one response: `cause = 0` exactly when `ok = 1`, 7 is never produced, and the results are zero whenever
`ok = 0`. -/
abbrev Response.wf (r : Response) : Prop :=
  (r.ok = true ↔ r.cause = 0#3) ∧ r.cause ≠ 7#3 ∧
    (r.ok = false → r.rx = 0#32 ∧ r.rdata = 0#64 ∧ r.rmeta = 0#7)

/-- What the output ports may carry: responses of R80's form, and the signals of Frames (R24, R75) on the send and dispatch
ports. -/
def PortEvent.wf : PortEvent → Prop
  | .response r => r.wf
  | .send p _ => p.wf
  | .receive _ => True
  | .dispatch _ p => p.wf

/-! ## The record of the ports -/

/-- Whether an event is a response. -/
def PortEvent.isResponse : PortEvent → Bool
  | .response _ => true
  | .send _ _ => false
  | .receive _ => false
  | .dispatch _ _ => false

/-- Whether an event is a dispatch request. -/
def PortEvent.isDispatch : PortEvent → Bool
  | .response _ => false
  | .send _ _ => false
  | .receive _ => false
  | .dispatch _ _ => true

/-- Number of responses in a record. -/
def responses (tr : List PortEvent) : Nat := tr.countP PortEvent.isResponse

/-- Number of commands that have been taken and have not responded, POLL being the only one that can be (R27, R80). -/
def openCommands (s : State) : Nat := if s.inPoll then 1 else 0

/-- What the send requests in a record present (newest first, as the record is). -/
def sentFrames (tr : List PortEvent) : List PortFrame :=
  tr.filterMap fun e => match e with
    | .response _ => none
    | .send p _ => some p
    | .receive _ => none
    | .dispatch _ _ => none

/-- In a record (newest first) every dispatch stands directly after the receive request whose answer is its frame: it drives the
signals of the Frame that `norm` makes of the answer. -/
def dispatchFollowsReceive : List PortEvent → Prop
  | [] => True
  | .dispatch _ d :: tr =>
    (∃ p tr' fr, tr = .receive (some p) :: tr' ∧ normFrame p = some fr ∧ d = fr.toPort) ∧ dispatchFollowsReceive tr
  | .response _ :: tr => dispatchFollowsReceive tr
  | .send _ _ :: tr => dispatchFollowsReceive tr
  | .receive _ :: tr => dispatchFollowsReceive tr

/-! ## What a drain does (R170) -/

/-- A received value that POLL drops: it is no Frame (R172), or no valid slot's key, zero-extended to 32 bits, equals its id
with the Command bits cleared (R173, R174). -/
def dropped (rt : List Slot) (p : PortFrame) : Prop :=
  p.dlc.toNat > 8 ∨ ∀ sl ∈ rt, sl.valid = true → sl.key.setWidth 32 ≠ p.id &&& 0xFFFFFFF8#32

/-- The receive requests answered by the frames `q` (head first), as a record (newest first). -/
def received (q : List PortFrame) : List PortEvent := q.reverse.map fun p => .receive (some p)

/-- What the loop of POLL does to an open POLL (R170), from a state where no dispatch is open. -/
inductive DrainOutcome (s : State) : State → Prop where
  /-- Every frame is dropped, then `XCV.receive()` answers `none`: `in_poll <- 0` and POLL responds (R171). -/
  | ends (hd : ∀ p ∈ s.rxq, dropped s.rt p) (hm : s.rxMore = false) :
      DrainOutcome s { s with
        rxq := [], inPoll := false
        trace := .response ⟨true, 0#3, 0#32, 0#64, 0#7⟩ :: .receive none :: (received s.rxq ++ s.trace) }
  /-- Frames `pre` are dropped and the next one, `p`, has a registration: it is put in `F3` and dispatched to the slot's
  handler, and nothing of the frames `post` behind it is touched (R173, R25, R208). -/
  | dispatches (pre : List PortFrame) (p : PortFrame) (post : List PortFrame) (fr : Frame) (sl : Slot)
      (hq : s.rxq = pre ++ p :: post) (hd : ∀ x ∈ pre, dropped s.rt x) (hn : normFrame p = some fr)
      (hs : sl ∈ s.rt) (hv : sl.valid = true) (hk : sl.key.setWidth 32 = p.id &&& 0xFFFFFFF8#32) :
      DrainOutcome s { s with
        rxq := post, f := s.f.set 3 fr, dispatch := some ⟨sl.href, fr.toPort⟩
        trace := .dispatch sl.href fr.toPort :: .receive (some p) :: (received pre ++ s.trace) }
  /-- Every frame is dropped and the Transceiver's next answer is still to come: the POLL stays open. -/
  | waits (hd : ∀ p ∈ s.rxq, dropped s.rt p) (hm : s.rxMore = true) :
      DrainOutcome s { s with rxq := [], trace := received s.rxq ++ s.trace }

/-! ## Which command may change what -/

/-- The frame registers a command may write (the "writes" column of R23's table). -/
def writesReg (i : Instr) (k : FReg) : Bool :=
  match i with
  | .pack _ _ _ => false
  | .unpack _ => false
  | .rkey _ => false
  | .write fd _ _ _ => fd == k
  | .read _ _ _ => false
  | .make fd _ _ _ _ _ => fd == k
  | .msend fd _ _ _ _ _ => fd == k
  | .attach _ _ _ => false
  | .detachk _ _ => false
  | .detachd _ _ _ => false
  | .poll => k == 3
  | .send _ => false
  | .fload fd _ _ _ _ _ _ => fd == k
  | .fstore _ => false
  | .feq _ _ => false

/-- The commands that replace a whole frame register (R122: MAKE, MSEND, FLOAD, a dispatch into `F3`). -/
def replacesReg (i : Instr) (k : FReg) : Bool :=
  match i with
  | .pack _ _ _ => false
  | .unpack _ => false
  | .rkey _ => false
  | .write _ _ _ _ => false
  | .read _ _ _ => false
  | .make fd _ _ _ _ _ => fd == k
  | .msend fd _ _ _ _ _ => fd == k
  | .attach _ _ _ => false
  | .detachk _ _ => false
  | .detachd _ _ _ => false
  | .poll => k == 3
  | .send _ => false
  | .fload fd _ _ _ _ _ _ => fd == k
  | .fstore _ => false
  | .feq _ _ => false

/-- The bytes a command may store to: byte `a` of `F[k]`. A WRITE that is not refused stores to
`[start, start + size)` of `Fd` (R121), the commands that replace a register to all of it (R57). -/
def storesTo (i : Instr) (k : FReg) (a : Nat) : Bool :=
  match i with
  | .write fd start size _ => fd == k && decide (start + size ≤ 8) && decide (start ≤ a) && decide (a < start + size)
  | .pack _ _ _ => false
  | .unpack _ => false
  | .rkey _ => false
  | .read _ _ _ => false
  | .make fd _ _ _ _ _ => fd == k
  | .msend fd _ _ _ _ _ => fd == k
  | .attach _ _ _ => false
  | .detachk _ _ => false
  | .detachd _ _ _ => false
  | .poll => k == 3
  | .send _ => false
  | .fload fd _ _ _ _ _ _ => fd == k
  | .fstore _ => false
  | .feq _ _ => false

/-- The commands that write the route table (R20, R21). -/
def writesTable (i : Instr) : Bool :=
  match i with
  | .pack _ _ _ => false
  | .unpack _ => false
  | .rkey _ => false
  | .write _ _ _ _ => false
  | .read _ _ _ => false
  | .make _ _ _ _ _ _ => false
  | .msend _ _ _ _ _ _ => false
  | .attach _ _ _ => true
  | .detachk _ _ => true
  | .detachd _ _ _ => true
  | .poll => false
  | .send _ => false
  | .fload _ _ _ _ _ _ _ => false
  | .fstore _ => false
  | .feq _ _ => false

/-- What a command presents to the Transceiver, given the frame registers before it (R180, R182, R75). -/
def sends (i : Instr) (s : State) : List PortFrame :=
  match i with
  | .pack _ _ _ => []
  | .unpack _ => []
  | .rkey _ => []
  | .write _ _ _ _ => []
  | .read _ _ _ => []
  | .make _ _ _ _ _ _ => []
  | .msend _ t d c len payload => [(mkFrame t d c len payload).toPort]
  | .attach _ _ _ => []
  | .detachk _ _ => []
  | .detachd _ _ _ => []
  | .poll => []
  | .send fs => [(s.getF fs).toPort]
  | .fload _ _ _ _ _ _ _ => []
  | .fstore _ => []
  | .feq _ _ => []

/-- `k` is registered in no slot. -/
def unregistered (k : Ident) (rt : List Slot) : Prop := ∀ sl ∈ rt, sl.valid = true → sl.key ≠ k

/-- Commands executed one after another (R30). -/
def execAll : List Instr → State → Host.Outcome State Fault Refusal
  | [], s => .next s
  | i :: is, s =>
    match exec i s with
    | .next t => execAll is t
    | .fault r => .fault r
    | .refused r => .refused r

/-- No command of the sequence, executed from `s`, writes the bytes `[a, a + n)` of `F[k]` or replaces the register (R127):
each either does not store there or leaves the register as it was (a refused FLOAD, a POLL that dispatches nothing). -/
def noneWrites (k : FReg) (a n : Nat) : List Instr → State → Prop
  | [], _ => True
  | i :: is, s => ∀ t, exec i s = .next t →
      ((∀ j < n, storesTo i k (a + j) = false) ∨ t.getF k = s.getF k) ∧ noneWrites k a n is t

/-- No command of the sequence, executed from `s`, replaces `F[k]` (R122: MAKE, MSEND, FLOAD or a dispatched frame). -/
def noneReplaces (k : FReg) : List Instr → State → Prop
  | [], _ => True
  | i :: is, s => ∀ t, exec i s = .next t →
      (replacesReg i k = false ∨ t.getF k = s.getF k) ∧ noneReplaces k is t

/-- `start + size` of a WRITE to `F[k]` that succeeds (R121), 0 for every other command. -/
def writeEnd (k : FReg) (i : Instr) : Nat :=
  match i with
  | .write fd start size _ => if fd = k ∧ size ≠ 0 ∧ start + size ≤ 8 then start + size else 0
  | .pack _ _ _ => 0
  | .unpack _ => 0
  | .rkey _ => 0
  | .read _ _ _ => 0
  | .make _ _ _ _ _ _ => 0
  | .msend _ _ _ _ _ _ => 0
  | .attach _ _ _ => 0
  | .detachk _ _ => 0
  | .detachd _ _ _ => 0
  | .poll => 0
  | .send _ => 0
  | .fload _ _ _ _ _ _ _ => 0
  | .fstore _ => 0
  | .feq _ _ => 0

/-- What commands executed one after another present to the Transceiver, in order. -/
def sendsAll : List Instr → State → List PortFrame
  | [], _ => []
  | i :: is, s =>
    match exec i s with
    | .next t => sends i s ++ sendsAll is t
    | .fault _ => []
    | .refused _ => []

/-- `ok = 1`, `cause = 0`, no results: the response of a command that only acts (R12). -/
def plainOk : PortEvent := .response ⟨true, 0#3, 0#32, 0#64, 0#7⟩

/-- `ok = 0` with a cause code, no results (R12 `fail`). -/
def failed (cause : BitVec 3) : PortEvent := .response ⟨false, cause, 0#32, 0#64, 0#7⟩

/-- `ok = 1`, `cause = 0` and the given results (R80). -/
def okWith (rx : Word) (rdata : DWord) (rmeta : BitVec 7) : PortEvent := .response ⟨true, 0#3, rx, rdata, rmeta⟩

end Sys2Proof.Machine
end

