-- ==== Sys2Proof/Certificates/Slice0/Obligations.lean ====
section
/-! DEFINITION. The statements about the model, for the provers. Each docstring names the rule of spec/ it formalises. In every
statement of the form "exec answers the next state …" the whole next state is given, or every part that may differ from the
state before; everything else is then unchanged (the statement is the instruction's frame too). A response, and every other
event on a port, is read off the model's record `trace` (the record is the model's own, notes/assumptions/5.md; what it
records is the spec's). -/

open Sys2Proof Sys2Proof.Machine

/-! ## Encoding -/

/-- Decoding an encoded well-formed instruction gives it back, for every instruction and every operand (R77). -/
def Obligations.DecodeEncodeRoundTrip : Prop :=
  ∀ i : Instr, i.wf = true → decode (encode i) = .ok i

/-- A legal command has one meaning: the instruction read from it is well formed, and encoding it gives back the command word;
the operands are given back or were ignored and come back as zero (R77). -/
def Obligations.LegalWordHasOneMeaning : Prop :=
  ∀ (cmd : Command) (i : Instr), decode cmd = .ok i →
    i.wf = true ∧ (encode i).cw = cmd.cw ∧
    ((encode i).xdata = cmd.xdata ∨ (encode i).xdata = 0#32) ∧
    ((encode i).wdata = cmd.wdata ∨ (encode i).wdata = 0#64)

/-- R78: a word selects a row's operation iff `w & mask = match`; the fifteen patterns are pairwise disjoint; `op = 0x0` and
`op = 0xF` select nothing. The mask and match columns are `opcodeTable`. -/
def Obligations.DecoderFollowsOpcodeMap : Prop :=
  (∀ r ∈ opcodeTable, ∀ cmd : Command,
    cmd.cw &&& r.mask = r.pattern ↔ ∃ i, decode cmd = .ok i ∧ i.mnemonic = r.mnemonic) ∧
  (∀ r ∈ opcodeTable, ∀ r' ∈ opcodeTable, ∀ w : Word,
    w &&& r.mask = r.pattern → w &&& r'.mask = r'.pattern → r = r') ∧
  (∀ cmd : Command, fieldOp cmd.cw = 0x0#4 ∨ fieldOp cmd.cw = 0xF#4 → ∀ i, decode cmd ≠ .ok i)

/-- R79: decoding is total; a word is illegal exactly when its `op` is unused, `rsv != 0`, a field R77 marks "0" is not zero, or
`op = 0x9` with another selector; an illegal command changes no state and responds `fail(ILLEGAL)`; decoding looks at `cw`
only. -/
def Obligations.IllegalWordsAreExactlyThese : Prop :=
  (∀ cmd : Command, (∃ e, decode cmd = .error e) ↔
    fieldOp cmd.cw = 0x0#4 ∨ fieldOp cmd.cw = 0xF#4 ∨ fieldRsv cmd.cw ≠ 0#2 ∨
    (fieldF cmd.cw ≠ 0#2 ∧ fieldOp cmd.cw ∈ [0x1#4, 0x2#4, 0x3#4, 0x8#4, 0x9#4, 0xA#4]) ∨
    (fieldA cmd.cw ≠ 0#8 ∧ fieldOp cmd.cw ∈ [0x2#4, 0x3#4, 0xA#4, 0xB#4, 0xC#4, 0xD#4]) ∨
    ((fieldA cmd.cw).extractLsb' 2 6 ≠ 0#6 ∧ fieldOp cmd.cw = 0xE#4) ∨
    (fieldB cmd.cw ≠ 0#8 ∧ fieldOp cmd.cw ∈ [0x2#4, 0x3#4, 0xA#4, 0xB#4, 0xC#4, 0xD#4, 0xE#4]) ∨
    (fieldC cmd.cw ≠ 0#8 ∧ fieldOp cmd.cw ∈ [0x2#4, 0x3#4, 0x4#4, 0x5#4, 0x8#4, 0xA#4, 0xB#4, 0xD#4, 0xE#4]) ∨
    ((fieldC cmd.cw).getLsbD 7 = true ∧ fieldOp cmd.cw = 0xC#4) ∨
    (fieldOp cmd.cw = 0x9#4 ∧ fieldC cmd.cw ≠ 0x00#8 ∧ fieldC cmd.cw ≠ 0x01#8)) ∧
  (∀ cmd : Command, (∃! r, r ∈ opcodeTable ∧ cmd.cw &&& r.mask = r.pattern) ∨ ∃ e, decode cmd = .error e) ∧
  (∀ (cmd : Command) (e : IllegalWord) (s : State), decode cmd = .error e →
    runCommand cmd s = .next { s with trace := failed 6#3 :: s.trace }) ∧
  (∀ (cmd cmd' : Command), cmd.cw = cmd'.cw →
    (decode cmd).map Instr.mnemonic = (decode cmd').map Instr.mnemonic)

/-- Command words written out from R76, R77 and 95_test_vectors.md decode to what they stand for. -/
def Obligations.DecodesWordsWrittenOut : Prop :=
  decodeTableWord 32 0x10010101 = some (.pack 1 1 1) ∧
  decode ⟨0x40030200#32, 0, 0xBEEF#64⟩ = .ok (.write 0 3 2 0xBEEF#64) ∧
  decode ⟨0x5C000400#32, 0, 0⟩ = .ok (.read 3 0 4) ∧
  decode ⟨0x74010104#32, 1, 0xAA#64⟩ = .ok (.msend 1 1 1 4 1 0xAA#64) ∧
  decode ⟨0x90010101#32, 0xB2#32, 0⟩ = .ok (.detachd 1 1 0xB2#32) ∧
  decode ⟨0xC8000018#32, 0x1ABCDE89#32, 0x0807060504030201#64⟩ =
    .ok (.fload 2 0x1ABCDE89#32 8#4 true false false 0x0807060504030201#64) ∧
  decode ⟨0xE8020000#32, 0, 0⟩ = .ok (.feq 2 2)

/-! ## The step, reset, the invariant -/

/-- A step runs the decoded command: when a command is presented, no POLL is between two requests and reset is not asserted, the
step is `exec` of the decoded instruction, at the state without that input; a word placed by `withFetchWord` is the one that
runs. -/
def Obligations.StepRunsDecodedCommand : Prop :=
  (∀ (s : State) (cmd : Command) (rest : List Input) (i : Instr),
    s.input = .command cmd :: rest → s.draining = false → s.inReset = false → decode cmd = .ok i →
    step s = exec i { s with input := rest }) ∧
  (∀ (s : State) (nbits w : Nat) (i : Instr),
    s.draining = false → s.inReset = false → decodeTableWord nbits w = some i → step (s.withFetchWord nbits w) = exec i s)

/-- R219: "when no command is being executed the block is idle and holds its state". With nothing presented the step answers the
same state; while no POLL is open, an input that is neither a command nor a level of the reset input changes nothing of the
block and puts nothing on a port; so a completion signal with no dispatch open has no effect, the one that comes after reset
has abandoned its dispatch among them. And a command is not taken before the POLL that is between two requests has responded
(R205). That a waiting or idle step answers the same state is the model's way of saying it (notes/assumptions/9.md), and that
a completion signal with no request open is without effect while a POLL is between two requests is the model's choice
(notes/assumptions/8.md). -/
def Obligations.IdleBlockHoldsItsState : Prop :=
  (∀ s : State, (s.input = [] ∨
    ∃ cmd rest, s.input = .command cmd :: rest ∧ s.draining = true ∧ s.inReset = false) → step s = .next s) ∧
  (∀ s t : State, s.inPoll = false → s.dispatch = none → (∀ cmd rest, s.input ≠ .command cmd :: rest) →
    (∀ b rest, s.input ≠ .reset b :: rest) → step s = .next t →
    t = { s with input := t.input, rxq := t.rxq, rxMore := t.rxMore }) ∧
  (∀ (s : State) (rest : List Input), s.input = .completion :: rest → s.dispatch = none →
    step s = .next { s with input := rest })

/-- R35: the state after reset has the values of R35's table (a free slot's key and reference are not looked at: the spec gives
them none) and reset is not asserted. Asserting the reset input, and releasing it, leave those values, abandon an open POLL and
an open dispatch without a response (R230) and touch nothing outside the block (R231, which the spec derives from R230);
releasing an input that is not asserted changes nothing. That the input's level changes between two steps only, and that the
block is reset as soon as it is asserted, is the model's choice (notes/assumptions/10.md). -/
def Obligations.ResetInputLeavesResetState : Prop :=
  ((∀ sl ∈ State.reset.rt, sl.valid = false) ∧ State.reset.inPoll = false ∧
    (∀ k : FReg, State.reset.getF k = zeroFrame) ∧ State.reset.inReset = false) ∧
  (zeroFrame.id = 0#32 ∧ (∀ a < 8, zeroFrame.byte a = 0#8) ∧ zeroFrame.dlc = 0 ∧
    zeroFrame.ext = false ∧ zeroFrame.rtr = false ∧ zeroFrame.err = false) ∧
  (∀ (s : State) (asserted : Bool) (rest : List Input), s.input = .reset asserted :: rest →
    asserted = true ∨ s.inReset = true →
    ∃ t, step s = .next t ∧ (∀ sl ∈ t.rt, sl.valid = false) ∧ t.rt.length = s.cfg.capacity ∧
      (∀ k : FReg, t.getF k = zeroFrame) ∧ t = { s with
        input := rest, rt := t.rt, f := t.f, inPoll := false, dispatch := none, inReset := asserted }) ∧
  (∀ (s : State) (rest : List Input), s.input = .reset false :: rest → s.inReset = false →
    step s = .next { s with input := rest })

/-- R200, first sentence: no command traps or halts the block. Nothing else does: every step, whatever its input, answers a next
state. -/
def Obligations.NoCommandStopsTheBlock : Prop :=
  (∀ (cmd : Command) (s : State), ∃ t, runCommand cmd s = .next t) ∧
  (∀ (i : Instr) (s : State), ∃ t, exec i s = .next t) ∧
  (∀ s : State, ∃ t, step s = .next t)

/-- R200 and R12 `fail`, on the model's record: a command that responds `ok = 0` carries zero results and has changed no state, except the frame a
refused MSEND leaves in `Fd` (and, for SEND and MSEND, the answer it used up on the Transceiver's side). -/
def Obligations.FailedCommandChangesNoState : Prop :=
  ∀ (i : Instr) (s t : State) (r : Response) (tr : List PortEvent),
    exec i s = .next t → t.trace = .response r :: tr → s.trace.length ≤ tr.length → r.ok = false →
    r.rx = 0#32 ∧ r.rdata = 0#64 ∧ r.rmeta = 0#7 ∧
    ((t = { s with trace := t.trace }) ∨
     (∃ fs, i = .send fs ∧ r.cause = 5#3 ∧ t = { s with
        sendAnswers := t.sendAnswers, sendCount := t.sendCount, trace := t.trace }) ∨
     (∃ fd ty d c len pl, i = .msend fd ty d c len pl ∧ r.cause = 5#3 ∧ t = { s with
        f := s.f.set fd (mkFrame ty d c len pl)
        sendAnswers := t.sendAnswers, sendCount := t.sendCount, trace := t.trace }))

/-- R203: the tests of a command are made in R203's order and the first that fails decides the cause: an illegal word before
anything else; then, whenever a command responds, the cause it gives. The last column of the order for SEND and MSEND is the
Transceiver's answer, the `send` event before the response. -/
def Obligations.FirstFailingTestGivesTheCause : Prop :=
  (∀ (cmd : Command) (e : IllegalWord) (s : State), decode cmd = .error e →
    runCommand cmd s = .next { s with trace := failed 6#3 :: s.trace }) ∧
  (∀ (i : Instr) (s t : State) (r : Response) (tr : List PortEvent),
    exec i s = .next t → t.trace = .response r :: tr → s.trace.length ≤ tr.length →
    r.cause = (match i with
      | .write _ start size _ => if size = 0 then 6#3 else if start + size > 8 then 1#3 else 0#3
      | .read fs start size =>
        if size = 0 then 6#3 else if start + size > 8 then 1#3 else if start + size > (s.getF fs).dlc then 2#3 else 0#3
      | .fload _ _ dlc _ _ _ _ => if dlc.toNat > 8 then 6#3 else 0#3
      | .attach ty d _ =>
        if s.rt.any (fun sl => sl.valid && sl.key == devKey ty d) then
          (if s.cfg.dupPolicy = .reject then 4#3 else 0#3)
        else if s.rt.all (fun sl => sl.valid) then 3#3 else 0#3
      | .poll => if s.inPoll then 6#3 else 0#3
      | .send fs => if tr = .send (s.getF fs).toPort true :: s.trace then 0#3 else 5#3
      | .msend _ ty d c len pl => if tr = .send (mkFrame ty d c len pl).toPort true :: s.trace then 0#3 else 5#3
      | .pack _ _ _ => 0#3
      | .unpack _ => 0#3
      | .rkey _ => 0#3
      | .make _ _ _ _ _ _ => 0#3
      | .detachk _ _ => 0#3
      | .detachd _ _ _ => 0#3
      | .fstore _ => 0#3
      | .feq _ _ => 0#3))

/-- Every step keeps the invariant: parameters, R21's three invariants of the route table, R24 of every frame register and of a
dispatched frame, a dispatch only inside a POLL, R35's values while reset is asserted; and no step changes a parameter. -/
def Obligations.StepsKeepTheInvariant : Prop :=
  ∀ s t : State, Inv s → step s = .next t → Inv t ∧ t.cfg = s.cfg

/-- The reset state meets the invariant, for the defaults and for every choice of the parameters R9 admits. -/
def Obligations.ResetStateMeetsTheInvariant : Prop :=
  Inv State.reset ∧ ∀ p : Config.Params, p.wf = true → Inv (State.resetWith p)

/-- R80, R201, R215, R208: whatever a step puts on the ports (the model's record `trace`, notes/assumptions/5.md) is well formed: a response has `cause = 0` exactly when `ok = 1`,
never cause 7, and zero results when `ok = 0`; what is sent or dispatched is a Frame. -/
def Obligations.PortTrafficIsWellFormed : Prop :=
  ∀ s t : State, Inv s → (∀ e ∈ s.trace, e.wf) → step s = .next t → ∀ e ∈ t.trace, e.wf

/-- R80 "Every command produces exactly one response", on the model's record (notes/assumptions/5.md): over every step but a
change of the reset input, responses given plus commands still open grow by one exactly when a command is accepted. -/
def Obligations.EveryCommandGetsOneResponse : Prop :=
  ∀ s t : State, Inv s → step s = .next t → (∀ b rest, s.input ≠ .reset b :: rest) →
    ((∃ cmd rest, s.input = .command cmd :: rest ∧ s.draining = false ∧ s.inReset = false) →
      responses t.trace + openCommands t = responses s.trace + openCommands s + 1) ∧
    ((¬ ∃ cmd rest, s.input = .command cmd :: rest ∧ s.draining = false ∧ s.inReset = false) →
      responses t.trace + openCommands t = responses s.trace + openCommands s)

/-- R31: no later command reads the outcome of an earlier one: what a step does is the same whatever the model's record of the
answers given before holds (notes/assumptions/5.md). -/
def Obligations.OutcomesAreNotRemembered : Prop :=
  ∀ (s t : State) (tr : List PortEvent), step s = .next t →
    ∃ es, t.trace = es ++ s.trace ∧ step { s with trace := tr } = .next { t with trace := es ++ tr }

/-! ## Identifier codec -/

/-- R100, whole: the words that select PACK and its operands; the identifier as a number; `ok = 1`; nothing else changes. -/
def Obligations.PackGivesTheIdentifier : Prop :=
  (∀ cmd : Command, cmd.cw &&& 0xFF000000#32 = 0x10000000#32 →
    decode cmd = .ok (.pack (fieldA cmd.cw) (fieldB cmd.cw) (fieldC cmd.cw))) ∧
  (∀ (ty d c : Byte) (s : State), exec (.pack ty d c) s = .next { s with
    trace := okWith (BitVec.ofNat 32 (ty.toNat % 16 * 128 + d.toNat % 16 * 8 + c.toNat % 8)) 0#64 0#7 :: s.trace })

/-- R101 (the spec derives it from R100 and R70): `pack` is a function of the triple alone, injective on valid triples and onto the 2048 identifiers, masks its
operands, and never exceeds `0x7FF`. -/
def Obligations.PackIsABijectionOnValidTriples : Prop :=
  (∀ (ty d c : Byte) (s s' : State), ∃ r : Response,
    exec (.pack ty d c) s = .next (s.respond r) ∧ exec (.pack ty d c) s' = .next (s'.respond r)) ∧
  (∀ ty d c ty' d' c' : Byte, ty.toNat ≤ 15 → d.toNat ≤ 15 → c.toNat ≤ 7 → ty'.toNat ≤ 15 → d'.toNat ≤ 15 →
    c'.toNat ≤ 7 → pack ty d c = pack ty' d' c' → ty = ty' ∧ d = d' ∧ c = c') ∧
  (∀ i : Ident, ∃ ty d c : Byte, ty.toNat ≤ 15 ∧ d.toNat ≤ 15 ∧ c.toNat ≤ 7 ∧ pack ty d c = i) ∧
  (∀ ty d c : Byte, pack ty d c = pack (ty &&& 0xF#8) (d &&& 0xF#8) (c &&& 0x7#8)) ∧
  (∀ ty d c : Byte, (pack ty d c).toNat ≤ 0x7FF)

/-- R103, whole: the word that selects UNPACK; the fields of the 32-bit operand and the `tk` bit of TYPE_KNOWN in their places
of the result; `ok = 1`; nothing else changes. -/
def Obligations.UnpackGivesTheFields : Prop :=
  (∀ cmd : Command, cmd.cw = 0x20000000#32 → decode cmd = .ok (.unpack cmd.xdata)) ∧
  (∀ (ident : Word) (s : State), exec (.unpack ident) s = .next { s with
    trace := okWith (BitVec.ofNat 32 (
      (if s.cfg.typeKnown.getLsbD (ident.toNat / 128 % 16) then 1 else 0) * 2147483648 +
        ident.toNat / 128 % 16 * 65536 + ident.toNat / 8 % 16 * 256 + ident.toNat % 8)) 0#64 0#7 :: s.trace })

/-- R105 (the spec says its parts b and c follow from R100 and R103): unpacking a packed triple gives the masked triple, and packing an unpacked identifier gives its low 11 bits. -/
def Obligations.PackAndUnpackRoundTrip : Prop :=
  (∀ ty d c : Byte,
    (identType ((pack ty d c).setWidth 32)).toNat = ty.toNat % 16 ∧
    (identDev ((pack ty d c).setWidth 32)).toNat = d.toNat % 16 ∧
    (identCommand ((pack ty d c).setWidth 32)).toNat = c.toNat % 8) ∧
  (∀ i : Word, ((pack ((identType i).setWidth 8) ((identDev i).setWidth 8)
    ((identCommand i).setWidth 8)).setWidth 32 : Word) = i &&& 0x7FF#32)

/-- R106, whole: the word that selects RKEY; the operand with bits `[2:0]` cleared and all others kept; `ok = 1`; nothing else
changes; for an identifier proper the key is `ident & 0x7F8` and is made of its DeviceType and DeviceId; with any of bits
31..11 set it is no 11-bit key. -/
def Obligations.RkeyClearsTheCommandBits : Prop :=
  (∀ cmd : Command, cmd.cw = 0x30000000#32 → decode cmd = .ok (.rkey cmd.xdata)) ∧
  (∀ (ident : Word) (s : State), exec (.rkey ident) s = .next { s with
    trace := okWith (BitVec.ofNat 32 (ident.toNat / 8 * 8)) 0#64 0#7 :: s.trace }) ∧
  (∀ ident : Word, ident.toNat ≤ 0x7FF → rkey ident = ident &&& 0x7F8#32 ∧
    (rkey ident).toNat = (identType ident).toNat * 128 + (identDev ident).toNat * 8) ∧
  (∀ (ident : Word) (k : Ident), 0x7FF < ident.toNat → k.setWidth 32 ≠ rkey ident)

/-- R107: the routing key does not depend on the Command bits. -/
def Obligations.RoutingKeyIgnoresTheCommand : Prop :=
  (∀ i c : Word, c.toNat ≤ 7 → rkey (i ||| c) = rkey i) ∧
  (∀ ty d c c' : Byte, rkey ((pack ty d c).setWidth 32) = rkey ((pack ty d c').setWidth 32))

/-- R108 (the spec derives it from R100 and R106): the key of a device: its value, its Command bits, the identifiers it is the key of, and that there are exactly the
256 values with clear Command bits. -/
def Obligations.DeviceKeysAreTheKeysOfTheirIdentifiers : Prop :=
  (∀ ty d : Byte, (devKey ty d).toNat = ty.toNat % 16 * 128 + d.toNat % 16 * 8 ∧ devKey ty d &&& 0x007#11 = 0#11 ∧
    devKey ty d = pack ty d 0) ∧
  (∀ ty d c : Byte, rkey ((pack ty d c).setWidth 32) = (devKey ty d).setWidth 32) ∧
  (∀ k : Ident, k &&& 0x007#11 = 0#11 → ∃! td : BitVec 4 × BitVec 4,
    devKey (td.1.setWidth 8) (td.2.setWidth 8) = k)

/-! ## Payload marshaller -/

/-- R121, whole: the words that select WRITE; size 0 and the bound are refused without a change; otherwise exactly the bytes
`start .. start+size-1` of `Fd` become the value's bytes, least significant first, `dlc` rises to `start + size` if it was
smaller, and nothing else changes. -/
def Obligations.WriteStoresTheValue : Prop :=
  (∀ cmd : Command, cmd.cw &&& 0xF30000FF#32 = 0x40000000#32 →
    decode cmd = .ok (.write (fieldF cmd.cw).toFin (fieldA cmd.cw).toNat (fieldB cmd.cw).toNat cmd.wdata)) ∧
  (∀ (fd : FReg) (start : Nat) (v : DWord) (s : State),
    exec (.write fd start 0 v) s = .next { s with trace := failed 6#3 :: s.trace }) ∧
  (∀ (fd : FReg) (start size : Nat) (v : DWord) (s : State), size ≠ 0 → start + size > 8 →
    exec (.write fd start size v) s = .next { s with trace := failed 1#3 :: s.trace }) ∧
  (∀ (fd : FReg) (start size : Nat) (v : DWord) (s : State), size ≠ 0 → start + size ≤ 8 →
    ∃ t, exec (.write fd start size v) s = .next t ∧
      t = { s with f := t.f, trace := plainOk :: s.trace } ∧
      (∀ j < size, (t.getF fd).byte (start + j) = v.extractLsb' (8 * j) 8) ∧
      (∀ a < 8, a < start ∨ start + size ≤ a → (t.getF fd).byte a = (s.getF fd).byte a) ∧
      (t.getF fd).dlc = max (s.getF fd).dlc (start + size) ∧
      (t.getF fd).id = (s.getF fd).id ∧ (t.getF fd).ext = (s.getF fd).ext ∧
      (t.getF fd).rtr = (s.getF fd).rtr ∧ (t.getF fd).err = (s.getF fd).err ∧
      (∀ k, k ≠ fd → t.getF k = s.getF k))

/-- R125, whole: the words that select READ; the three refusals in their order; otherwise the bytes `start .. start+size-1`,
least significant first, zero-extended, and no state changes. -/
def Obligations.ReadReturnsTheDeclaredBytes : Prop :=
  (∀ cmd : Command, cmd.cw &&& 0xF30000FF#32 = 0x50000000#32 →
    decode cmd = .ok (.read (fieldF cmd.cw).toFin (fieldA cmd.cw).toNat (fieldB cmd.cw).toNat)) ∧
  (∀ (fs : FReg) (start : Nat) (s : State),
    exec (.read fs start 0) s = .next { s with trace := failed 6#3 :: s.trace }) ∧
  (∀ (fs : FReg) (start size : Nat) (s : State), size ≠ 0 → start + size > 8 →
    exec (.read fs start size) s = .next { s with trace := failed 1#3 :: s.trace }) ∧
  (∀ (fs : FReg) (start size : Nat) (s : State), size ≠ 0 → start + size ≤ 8 → start + size > (s.getF fs).dlc →
    exec (.read fs start size) s = .next { s with trace := failed 2#3 :: s.trace }) ∧
  (∀ (fs : FReg) (start size : Nat) (s : State), size ≠ 0 → start + size ≤ 8 → start + size ≤ (s.getF fs).dlc →
    ∃ v : DWord, exec (.read fs start size) s = .next { s with trace := okWith 0#32 v 0#7 :: s.trace } ∧
      (∀ j < size, v.extractLsb' (8 * j) 8 = (s.getF fs).byte (start + j)) ∧ v.toNat < 2 ^ (8 * size))

/-- R53 and R130: an access is admitted exactly under R53's conditions, size 0 never (cause ILLEGAL), and one that is not
admitted is refused whole: no state changes and no byte is returned. -/
def Obligations.AccessIsAdmittedOrRefusedWhole : Prop :=
  (∀ (fd : FReg) (start size : Nat) (v : DWord) (s : State), ∃ r t,
    exec (.write fd start size v) s = .next t ∧ t.trace = .response r :: s.trace ∧
    (r.ok = true ↔ 1 ≤ size ∧ size ≤ 8 ∧ start + size ≤ 8) ∧
    (r.ok = false → t = { s with trace := t.trace }) ∧ (size = 0 → r.cause = 6#3)) ∧
  (∀ (fs : FReg) (start size : Nat) (s : State), ∃ r t,
    exec (.read fs start size) s = .next t ∧ t.trace = .response r :: s.trace ∧
    (r.ok = true ↔ 1 ≤ size ∧ size ≤ 8 ∧ start + size ≤ 8 ∧ start + size ≤ (s.getF fs).dlc) ∧
    (r.ok = false → t = { s with trace := t.trace } ∧ r.rdata = 0#64) ∧ (size = 0 → r.cause = 6#3))

/-- R52 (the spec derives it from R51 and R12): after a WRITE of `n` bytes at `a`, a READ of `m` bytes at `a + j` inside them returns bits `[8(j+m)-1 : 8j]` of the
value. -/
def Obligations.MixedWidthReadSeesBytes : Prop :=
  ∀ (fd : FReg) (a n j m : Nat) (v : DWord) (s t : State), n ≠ 0 → a + n ≤ 8 → m ≠ 0 → j + m ≤ n →
    exec (.write fd a n v) s = .next t →
    exec (.read fd (a + j) m) t = .next { t with
      trace := okWith 0#32 (BitVec.ofNat 64 (v.toNat / 2 ^ (8 * j) % 2 ^ (8 * m))) 0#7 :: t.trace }

/-- R127: after a successful WRITE, the READ of the same bytes returns the value, also after any commands that do not write those
bytes and do not replace the register. -/
def Obligations.WrittenValueReadsBack : Prop :=
  ∀ (fd : FReg) (a n : Nat) (v : DWord) (cmds : List Instr) (s t u : State), n ≠ 0 → a + n ≤ 8 →
    exec (.write fd a n v) s = .next t →
    noneWrites fd a n cmds t → execAll cmds t = .next u →
    exec (.read fd a n) u = .next { u with
      trace := okWith 0#32 (BitVec.ofNat 64 (v.toNat % 2 ^ (8 * n))) 0#7 :: u.trace }

/-- R122: over any sequence of commands none of which replaces the register, its `dlc` ends as the maximum of its starting value
and of `start + size` over the successful WRITEs to it; WRITE keeps the Frame invariant; and no step lowers a register's `dlc`
but one that replaces the whole register (MAKE, MSEND, FLOAD, a dispatch into `F3`) or resets the block. -/
def Obligations.DlcOnlyGrowsUnderWrites : Prop :=
  (∀ (fd : FReg) (cmds : List Instr) (s t : State), noneReplaces fd cmds s → execAll cmds s = .next t →
    (t.getF fd).dlc = cmds.foldl (fun m i => max m (writeEnd fd i)) (s.getF fd).dlc) ∧
  (∀ (fd : FReg) (start size : Nat) (v : DWord) (s t : State), exec (.write fd start size v) s = .next t →
    ∀ k, (s.getF k).wf → (t.getF k).wf) ∧
  (∀ (s t : State) (k : FReg), step s = .next t → (t.getF k).dlc < (s.getF k).dlc →
    (∃ cmd rest i, s.input = .command cmd :: rest ∧ decode cmd = .ok i ∧ replacesReg i k = true) ∨
    (k = 3 ∧ ∃ h tr, t.trace = .dispatch h (t.getF 3).toPort :: tr) ∨ ∃ b rest, s.input = .reset b :: rest)

/-- R57's last sentences (the spec derives them from R53 and R13): READ, FSTORE and FEQ change no state and repeating one returns the same result; repeating a WRITE leaves the same
state as doing it once. -/
def Obligations.ReadsAndWritesAreIdempotent : Prop :=
  (∀ (i : Instr) (s : State), (∃ fs start size, i = .read fs start size) ∨ (∃ fs, i = .fstore fs) ∨
      (∃ fa fb, i = .feq fa fb) →
    ∃ r, exec i s = .next (s.respond r) ∧ exec i (s.respond r) = .next ((s.respond r).respond r)) ∧
  (∀ (fd : FReg) (start size : Nat) (v : DWord) (s : State), ∃ t r,
    exec (.write fd start size v) s = .next t ∧ exec (.write fd start size v) t = .next (t.respond r) ∧
    t.trace = .response r :: s.trace)

/-! ## Frame operations -/

/-- R141, whole: the words that select MAKE; the frame built from the triple and the payload, over-long payloads truncated and
short ones zero-filled; the register is replaced whole, `ok = 1`, and nothing else changes; the result meets R24. -/
def Obligations.MakeBuildsTheFrame : Prop :=
  (∀ cmd : Command, cmd.cw &&& 0xF3000000#32 = 0x60000000#32 →
    decode cmd = .ok (.make (fieldF cmd.cw).toFin (fieldA cmd.cw) (fieldB cmd.cw) (fieldC cmd.cw)
      cmd.xdata.toNat cmd.wdata)) ∧
  (∀ (fd : FReg) (ty d c : Byte) (len : Nat) (pl : DWord) (s : State),
    ∃ t, exec (.make fd ty d c len pl) s = .next t ∧
      t = { s with f := t.f, trace := plainOk :: s.trace } ∧
      (t.getF fd).id = BitVec.ofNat 32 (ty.toNat % 16 * 128 + d.toNat % 16 * 8 + c.toNat % 8) ∧
      (∀ j < 8, (t.getF fd).byte j = if j < min len 8 then pl.extractLsb' (8 * j) 8 else 0#8) ∧
      (t.getF fd).dlc = min len 8 ∧
      (t.getF fd).ext = false ∧ (t.getF fd).rtr = false ∧ (t.getF fd).err = false ∧
      (t.getF fd).wf ∧ (∀ k, k ≠ fd → t.getF k = s.getF k))

/-- R143: `norm` refuses a dlc above 8, otherwise keeps the components and forces the bytes at index `>= dlc` to zero; on a
value that meets the invariant it is the identity. -/
def Obligations.NormBringsPortValuesToFrames : Prop :=
  (∀ p : PortFrame, p.dlc.toNat > 8 → normFrame p = none) ∧
  (∀ p : PortFrame, p.dlc.toNat ≤ 8 → ∃ fr, normFrame p = some fr ∧ fr.id = p.id ∧ fr.dlc = p.dlc.toNat ∧
    fr.ext = p.ext ∧ fr.rtr = p.rtr ∧ fr.err = p.err ∧
    ∀ j < 8, fr.byte j = if j < p.dlc.toNat then p.data.extractLsb' (8 * j) 8 else 0#8) ∧
  (∀ fr : Frame, fr.wf → normFrame fr.toPort = some fr)

/-- R144, whole: the words that select FLOAD; a dlc field of 9 to 15 is refused without a change; otherwise the register becomes
the frame given, bytes at index `>= dlc` zero, and nothing else changes. -/
def Obligations.FloadLoadsTheFrame : Prop :=
  (∀ cmd : Command, cmd.cw &&& 0xF3FFFF80#32 = 0xC0000000#32 →
    decode cmd = .ok (.fload (fieldF cmd.cw).toFin cmd.xdata ((fieldC cmd.cw).extractLsb' 0 4)
      ((fieldC cmd.cw).getLsbD 4) ((fieldC cmd.cw).getLsbD 5) ((fieldC cmd.cw).getLsbD 6) cmd.wdata)) ∧
  (∀ (fd : FReg) (id : Word) (dlc : BitVec 4) (ext rtr err : Bool) (data : DWord) (s : State), dlc.toNat > 8 →
    exec (.fload fd id dlc ext rtr err data) s = .next { s with trace := failed 6#3 :: s.trace }) ∧
  (∀ (fd : FReg) (id : Word) (dlc : BitVec 4) (ext rtr err : Bool) (data : DWord) (s : State), dlc.toNat ≤ 8 →
    ∃ t, exec (.fload fd id dlc ext rtr err data) s = .next t ∧
      t = { s with f := t.f, trace := plainOk :: s.trace } ∧
      (t.getF fd).id = id ∧ (t.getF fd).dlc = dlc.toNat ∧
      (t.getF fd).ext = ext ∧ (t.getF fd).rtr = rtr ∧ (t.getF fd).err = err ∧
      (∀ j < 8, (t.getF fd).byte j = if j < dlc.toNat then data.extractLsb' (8 * j) 8 else 0#8) ∧
      (∀ k, k ≠ fd → t.getF k = s.getF k))

/-- R146, whole: the words that select FSTORE; the whole register on the response port, all eight bytes whatever `dlc` is;
`ok = 1`; no state changes; and by R24 no byte that READ would refuse is anything but zero. -/
def Obligations.FstoreReturnsTheWholeFrame : Prop :=
  (∀ cmd : Command, cmd.cw &&& 0xF3FFFFFF#32 = 0xD0000000#32 → decode cmd = .ok (.fstore (fieldF cmd.cw).toFin)) ∧
  (∀ (fs : FReg) (s : State), ∃ v : DWord,
    exec (.fstore fs) s = .next { s with
      trace := okWith (s.getF fs).id v (BitVec.ofNat 7 (
        (if (s.getF fs).err then 1 else 0) * 64 + (if (s.getF fs).rtr then 1 else 0) * 32 +
        (if (s.getF fs).ext then 1 else 0) * 16 + (s.getF fs).dlc % 16)) :: s.trace } ∧
    (∀ j < 8, v.extractLsb' (8 * j) 8 = (s.getF fs).byte j) ∧
    ((s.getF fs).wf → ∀ j < 8, (s.getF fs).dlc ≤ j → v.extractLsb' (8 * j) 8 = 0#8))

/-- R147: the words that select FEQ; the verdict in `rx[0]`, `ok = 1`, no state changes; the verdict is equality of id, dlc,
flags and exactly the first `dlc` bytes. -/
def Obligations.FeqComparesFrames : Prop :=
  (∀ cmd : Command, cmd.cw &&& 0xF3FCFFFF#32 = 0xE0000000#32 →
    decode cmd = .ok (.feq (fieldF cmd.cw).toFin ((fieldA cmd.cw).extractLsb' 0 2).toFin)) ∧
  (∀ (fa fb : FReg) (s : State), ∃ eq : Bool,
    exec (.feq fa fb) s = .next { s with trace := okWith (if eq then 1#32 else 0#32) 0#64 0#7 :: s.trace } ∧
    (eq = true ↔ (s.getF fa).id = (s.getF fb).id ∧ (s.getF fa).dlc = (s.getF fb).dlc ∧
      (s.getF fa).ext = (s.getF fb).ext ∧ (s.getF fa).rtr = (s.getF fb).rtr ∧ (s.getF fa).err = (s.getF fb).err ∧
      ∀ j < (s.getF fa).dlc, (s.getF fa).byte j = (s.getF fb).byte j))

/-- R147's corner case d (the spec derives it from R24): in every state that meets the invariant, FEQ's verdict is equality of
the two registers, all 103 bits; so FEQ of a register with itself is 1. -/
def Obligations.FeqIsEqualityInsideTheBlock : Prop :=
  ∀ (fa fb : FReg) (s : State), Inv s →
    exec (.feq fa fb) s = .next { s with
      trace := okWith (if s.getF fa = s.getF fb then 1#32 else 0#32) 0#64 0#7 :: s.trace }

/-- R87's pseudo-commands that are not another name of one command: FCLR makes its register `ZERO_FRAME` and changes nothing
else; KEYOF answers the device's routing key and changes nothing. -/
def Obligations.PseudoCommandsDoWhatTheySay : Prop :=
  (∀ (fd : FReg) (s : State), exec (.fclr fd) s = .next { s with f := s.f.set fd zeroFrame, trace := plainOk :: s.trace }) ∧
  (∀ (ty d : Byte) (s : State), exec (.keyof ty d) s = .next { s with
    trace := okWith ((devKey ty d).setWidth 32) 0#64 0#7 :: s.trace })

/-! ## Frame router: the route table -/

/-- R161, whole: the words that select ATTACH; a registered key is rejected or its reference overwritten in the same slot, by
DUP_POLICY and before the capacity test; a full table is refused; otherwise the free slot with the lowest index takes the
registration. Nothing else changes. -/
def Obligations.AttachRegistersTheHandler : Prop :=
  (∀ cmd : Command, cmd.cw &&& 0xFF0000FF#32 = 0x80000000#32 →
    decode cmd = .ok (.attach (fieldA cmd.cw) (fieldB cmd.cw) cmd.xdata)) ∧
  (∀ (ty d : Byte) (x : Word) (k : Ident) (s : State),
    k = BitVec.ofNat 11 (ty.toNat % 16 * 128 + d.toNat % 16 * 8) →
    (∃ sl ∈ s.rt, sl.valid = true ∧ sl.key = k) → s.cfg.dupPolicy = .reject →
    exec (.attach ty d x) s = .next { s with trace := failed 4#3 :: s.trace }) ∧
  (∀ (ty d : Byte) (x : Word) (k : Ident) (s : State),
    k = BitVec.ofNat 11 (ty.toNat % 16 * 128 + d.toNat % 16 * 8) → uniqueKeys s.rt →
    (∃ sl ∈ s.rt, sl.valid = true ∧ sl.key = k) → s.cfg.dupPolicy = .overwrite →
    exec (.attach ty d x) s = .next { s with
      rt := s.rt.map fun sl =>
        if sl.valid = true ∧ sl.key = k then ⟨true, k, BitVec.ofNat 32 (x.toNat % 2 ^ s.cfg.hrefBits)⟩ else sl
      trace := plainOk :: s.trace }) ∧
  (∀ (ty d : Byte) (x : Word) (k : Ident) (s : State),
    k = BitVec.ofNat 11 (ty.toNat % 16 * 128 + d.toNat % 16 * 8) →
    (∀ sl ∈ s.rt, sl.valid = true ∧ sl.key ≠ k) →
    exec (.attach ty d x) s = .next { s with trace := failed 3#3 :: s.trace }) ∧
  (∀ (ty d : Byte) (x : Word) (k : Ident) (s : State) (n : Nat) (sl : Slot),
    k = BitVec.ofNat 11 (ty.toNat % 16 * 128 + d.toNat % 16 * 8) →
    (∀ sl ∈ s.rt, sl.valid = true → sl.key ≠ k) → s.rt[n]? = some sl → sl.valid = false →
    (∀ m sl', m < n → s.rt[m]? = some sl' → sl'.valid = true) →
    exec (.attach ty d x) s = .next { s with
      rt := s.rt.set n ⟨true, k, BitVec.ofNat 32 (x.toNat % 2 ^ s.cfg.hrefBits)⟩
      trace := plainOk :: s.trace })

/-- R162: from an empty table, CAPACITY ATTACHes with pairwise different keys all succeed; a further key is refused with
CAPACITY and the table unchanged, and no frame of that key finds an entry; after a DETACH of one of them, by key or by device,
ATTACH succeeds again. -/
def Obligations.CapacityIsTheNumberOfRegistrations : Prop :=
  ∀ (s : State) (devs : List (Byte × Byte × Word)),
    s.rt.length = s.cfg.capacity → (∀ sl ∈ s.rt, sl.valid = false) → devs.length = s.cfg.capacity →
    (devs.map fun v => devKey v.1 v.2.1).Nodup →
    ∃ t, execAll (devs.map fun v => .attach v.1 v.2.1 v.2.2) s = .next t ∧
      t.trace = List.replicate s.cfg.capacity plainOk ++ s.trace ∧
      ∀ (ty d : Byte) (x : Word), devKey ty d ∉ devs.map (fun v => devKey v.1 v.2.1) →
        exec (.attach ty d x) t = .next { t with trace := failed 3#3 :: t.trace } ∧
        (∀ p : PortFrame, rkey p.id = (devKey ty d).setWidth 32 → dropped t.rt p) ∧
        (∀ v ∈ devs, ∀ i, i = .detachk v.1 v.2.1 ∨ i = .detachd v.1 v.2.1 v.2.2 →
          ∃ u w, exec i t = .next u ∧ exec (.attach ty d x) u = .next w ∧ w.trace = plainOk :: plainOk :: t.trace)

/-- R165, whole: the words that select DETACHK; the valid slot with the device's key, if there is one, becomes free and no other
slot changes or moves; `ok = 1` in both cases; nothing else changes. -/
def Obligations.DetachkRemovesTheKey : Prop :=
  (∀ cmd : Command, cmd.cw &&& 0xFF0000FF#32 = 0x90000000#32 →
    decode cmd = .ok (.detachk (fieldA cmd.cw) (fieldB cmd.cw))) ∧
  (∀ (ty d : Byte) (k : Ident) (s : State),
    k = BitVec.ofNat 11 (ty.toNat % 16 * 128 + d.toNat % 16 * 8) → uniqueKeys s.rt →
    exec (.detachk ty d) s = .next { s with
      rt := s.rt.map fun sl => if sl.valid = true ∧ sl.key = k then { sl with valid := false } else sl
      trace := plainOk :: s.trace })

/-- R167, whole: the words that select DETACHD; the valid slot with the device's key and its handler reference, if there is one,
becomes free and no other slot changes or moves; a different handler's registration stays; `ok = 1` in every case. -/
def Obligations.DetachdRemovesTheDevice : Prop :=
  (∀ cmd : Command, cmd.cw &&& 0xFF0000FF#32 = 0x90000001#32 →
    decode cmd = .ok (.detachd (fieldA cmd.cw) (fieldB cmd.cw) cmd.xdata)) ∧
  (∀ (ty d : Byte) (x : Word) (k : Ident) (h : Word) (s : State),
    k = BitVec.ofNat 11 (ty.toNat % 16 * 128 + d.toNat % 16 * 8) →
    h = BitVec.ofNat 32 (x.toNat % 2 ^ s.cfg.hrefBits) → uniqueKeys s.rt →
    exec (.detachd ty d x) s = .next { s with
      rt := s.rt.map fun sl =>
        if sl.valid = true ∧ sl.key = k ∧ sl.href = h then { sl with valid := false } else sl
      trace := plainOk :: s.trace })

/-- R26: the table is slot-stable. A command changes at most one slot of it, and every other slot stays where it is: DETACHK and
DETACHD clear the `valid` bit of a valid slot and nothing else of it; ATTACH (overwrite) changes the reference of the valid slot
that holds the key; ATTACH of a key that no valid slot holds puts the registration in the free slot with the lowest index. So
no valid entry moves to another slot. And a step that takes neither a command nor reset leaves the table as it is. -/
def Obligations.SlotsNeverMove : Prop :=
  (∀ (i : Instr) (s t : State), exec i s = .next t →
    t.rt = s.rt ∨ ∃ (n : Nat) (a b : Slot), s.rt[n]? = some a ∧ t.rt = s.rt.set n b ∧
      ((((∃ ty d, i = .detachk ty d) ∨ ∃ ty d x, i = .detachd ty d x) ∧ a.valid = true ∧ b = { a with valid := false }) ∨
       (∃ ty d x, i = .attach ty d x ∧ s.cfg.dupPolicy = .overwrite ∧ a.valid = true ∧ a.key = devKey ty d ∧
          b = { a with href := hrefOf s.cfg x }) ∨
       (∃ ty d x, i = .attach ty d x ∧ (∀ sl ∈ s.rt, sl.valid = true → sl.key ≠ devKey ty d) ∧
          a.valid = false ∧ b = ⟨true, devKey ty d, hrefOf s.cfg x⟩ ∧
          ∀ m c, m < n → s.rt[m]? = some c → c.valid = true))) ∧
  (∀ s t : State, step s = .next t → (∀ cmd rest, s.input ≠ .command cmd :: rest) →
    (∀ b rest, s.input ≠ .reset b :: rest) → t.rt = s.rt)

/-- R168: once a DETACHK, or a DETACHD of the registered handler, has cleared a key's entry, the key stays unregistered and no
frame with that key is dispatched, through any inputs but an ATTACH of that key; a dispatch that is running is not cut short. -/
def Obligations.DetachedKeyIsNotDispatched : Prop :=
  (∀ (ty d : Byte) (s t : State), uniqueKeys s.rt → exec (.detachk ty d) s = .next t →
    unregistered (devKey ty d) t.rt ∧ t.dispatch = s.dispatch) ∧
  (∀ (ty d : Byte) (x : Word) (s t : State), uniqueKeys s.rt →
    (∃ sl ∈ s.rt, sl.valid = true ∧ sl.key = devKey ty d ∧ sl.href = hrefOf s.cfg x) →
    exec (.detachd ty d x) s = .next t → unregistered (devKey ty d) t.rt ∧ t.dispatch = s.dispatch) ∧
  (∀ (k : Ident) (s t : State), unregistered k s.rt → step s = .next t →
    (∀ cmd rest ty d x, s.input = .command cmd :: rest → decode cmd = .ok (.attach ty d x) → devKey ty d ≠ k) →
    unregistered k t.rt ∧
    ∀ es, t.trace = es ++ s.trace → ∀ h fr, PortEvent.dispatch h fr ∈ es → rkey fr.id ≠ k.setWidth 32)

/-! ## Frame router: POLL and dispatch -/

/-- R170 and R210: the word that selects POLL; a POLL issued while one is open is refused with no change; otherwise `in_poll`
becomes 1 and the loop runs: every received value is dropped (R172, R174) until one has a registration, which is put in `F3`
and dispatched, or until `XCV.receive()` answers `none` and POLL responds; and the end of a dispatch restores nothing and goes
on with the loop. `rxMore = false` is R240's premise for one stretch of the drain: the Transceiver's answers after its queue
are `none` (frames that arrive while a handler runs are in the queue by then, R171). -/
def Obligations.PollDrainsAndDispatches : Prop :=
  (∀ cmd : Command, cmd.cw = 0xA0000000#32 → decode cmd = .ok .poll) ∧
  (∀ s : State, s.inPoll = true → exec .poll s = .next { s with trace := failed 6#3 :: s.trace }) ∧
  (∀ s : State, s.inPoll = false → s.rxMore = false →
    ∃ t, exec .poll s = .next t ∧ DrainOutcome { s with inPoll := true } t) ∧
  (∀ (s : State) (rest : List Input) (d : DispatchRequest), s.input = .completion :: rest → s.dispatch = some d →
    s.rxMore = false → ∃ t, step s = .next t ∧ DrainOutcome { s with input := rest, dispatch := none } t)

/-- POLL and the end of a dispatch without the premise of R240: where the Transceiver's answer after its queue is still to come
(`rxMore`), the POLL stays open between two requests, and a later change of the queue resumes the drain. That case is the
model's choice (notes/assumptions/7.md). -/
def Obligations.PollStaysOpenUntilAnswered : Prop :=
  (∀ s : State, s.inPoll = false → ∃ t, exec .poll s = .next t ∧ DrainOutcome { s with inPoll := true } t) ∧
  (∀ (s : State) (rest : List Input) (d : DispatchRequest), s.input = .completion :: rest → s.dispatch = some d →
    ∃ t, step s = .next t ∧ DrainOutcome { s with input := rest, dispatch := none } t) ∧
  (∀ (s : State) (rest : List Input) (q : List PortFrame) (more : Bool), s.input = .receiveQueue q more :: rest →
    (s.draining = true →
      ∃ t, step s = .next t ∧ DrainOutcome { s with input := rest, rxq := q, rxMore := more } t) ∧
    (s.draining = false → step s = .next { s with input := rest, rxq := q, rxMore := more }))

/-- R174, with the premise R240 asks for: a POLL whose received values are all dropped (no Frame, R172, or no registration) asks
until the answer is `none`, makes no dispatch, and responds `ok = 1` with the block's state as it was. -/
def Obligations.PollDropsForeignTrafficAndEnds : Prop :=
  ∀ s : State, s.inPoll = false → s.rxMore = false →
    (∀ p ∈ s.rxq, p.dlc.toNat > 8 ∨
      ∀ sl ∈ s.rt, sl.valid = true → sl.key.setWidth 32 ≠ p.id &&& 0xFFFFFFF8#32) →
    exec .poll s = .next { s with
      rxq := []
      trace := plainOk :: .receive none :: ((s.rxq.reverse.map fun p => .receive (some p)) ++ s.trace) }

/-- R173: by uniqueness at most one valid slot matches a frame; the lookup answers exactly that slot's reference; an id with any
of bits 31..11 set matches nothing; and only the id decides. -/
def Obligations.LookupFindsTheOneHandler : Prop :=
  (∀ (s : State) (id h : Word), Inv s →
    (route s.rt id = some h ↔ ∃ sl ∈ s.rt, sl.valid = true ∧ sl.key.setWidth 32 = id &&& 0xFFFFFFF8#32 ∧ sl.href = h)) ∧
  (∀ (s : State) (id : Word) (a b : Slot), Inv s → a ∈ s.rt → b ∈ s.rt → a.valid = true → b.valid = true →
    a.key.setWidth 32 = id &&& 0xFFFFFFF8#32 → b.key.setWidth 32 = id &&& 0xFFFFFFF8#32 → a = b) ∧
  (∀ (rt : List Slot) (id : Word), 2048 ≤ id.toNat → route rt id = none)

/-- R211 and R176: a step makes at most one dispatch request; none while one is open (only its completion can lead to the
next); and a dispatch request is open afterwards exactly as the step made it. -/
def Obligations.DispatchesDoNotNest : Prop :=
  ∀ s t : State, Inv s → step s = .next t → ∃ es, t.trace = es ++ s.trace ∧
    es.countP PortEvent.isDispatch ≤ 1 ∧
    (s.dispatch.isSome = true → (∀ rest, s.input ≠ .completion :: rest) → es.countP PortEvent.isDispatch = 0) ∧
    (es.countP PortEvent.isDispatch = 1 → ∃ h fr es', es = .dispatch h fr :: es' ∧ t.dispatch = some ⟨h, fr⟩ ∧
      (t.getF 3).toPort = fr ∧ t.inPoll = true)

/-- R176: frames are dispatched in the order the Transceiver returns them, each during the POLL that received it: in the model's record
of the ports every dispatch stands directly after the receive request that returned its frame, and every step keeps it so. -/
def Obligations.DispatchFollowsItsReceive : Prop :=
  ∀ s t : State, dispatchFollowsReceive s.trace → step s = .next t → dispatchFollowsReceive t.trace

/-- R27: `in_poll` becomes 1 only when a POLL command starts, and returns to 0 only when that POLL responds or at reset (R230).
And it does so: a POLL accepted with `in_poll = 0` leaves 1 exactly if its step gives no response; while a POLL is open every
command leaves 1, reset leaves 0, and any other input leaves 1 exactly if it gives no response (the only one that it can give
is the open POLL's). That a POLL's step may end before its response is the model's choice (notes/assumptions/7.md). -/
def Obligations.InPollIsOneExactlyDuringAPoll : Prop :=
  ∀ s t : State, step s = .next t →
    (s.inPoll = false → t.inPoll = true → ∃ cmd rest, s.input = .command cmd :: rest ∧ decode cmd = .ok .poll) ∧
    (s.inPoll = true → t.inPoll = false →
      (∃ b rest, s.input = .reset b :: rest) ∨ ∃ es, t.trace = plainOk :: .receive none :: (es ++ s.trace)) ∧
    (∀ cmd rest, s.input = .command cmd :: rest → decode cmd = .ok .poll → s.inPoll = false →
      s.inReset = false → (t.inPoll = true ↔ responses t.trace = responses s.trace)) ∧
    (∀ cmd rest, s.input = .command cmd :: rest → s.inPoll = true → t.inPoll = true) ∧
    (∀ b rest, s.input = .reset b :: rest → b = true ∨ s.inReset = true → t.inPoll = false) ∧
    ((∀ cmd rest, s.input ≠ .command cmd :: rest) → (∀ b rest, s.input ≠ .reset b :: rest) → s.inPoll = true →
      (t.inPoll = true ↔ responses t.trace = responses s.trace))

/-- R63: a registration made by a handler is visible to the very next lookup: when it has succeeded and the handler completes,
the next frame of the same drain with that key is dispatched to it. -/
def Obligations.NestedAttachDecidesTheNextFrame : Prop :=
  ∀ (s t : State) (ty d : Byte) (x : Word) (tr : List PortEvent) (p : PortFrame) (q : List PortFrame) (fr : Frame)
    (o : DispatchRequest), Inv s → s.dispatch = some o → s.rxq = p :: q →
    exec (.attach ty d x) s = .next t → t.trace = plainOk :: tr →
    normFrame p = some fr → rkey fr.id = (devKey ty d).setWidth 32 →
    ∃ u, takeCompletion t = .next u ∧ u.dispatch = some ⟨hrefOf s.cfg x, fr.toPort⟩ ∧ u.getF 3 = fr ∧ u.rxq = q

/-! ## Frame router: sending -/

/-- R180: the words that select SEND; one `XCV.send` of the register as it stands, `ok` is the Transceiver's answer, cause
TRANSPORT when it is 0, and no state of the block changes. The answer is the environment's, or a free value: the statement
holds whatever it is. -/
def Obligations.SendHandsTheFrameOver : Prop :=
  (∀ cmd : Command, cmd.cw &&& 0xF3FFFFFF#32 = 0xB0000000#32 → decode cmd = .ok (.send (fieldF cmd.cw).toFin)) ∧
  (∀ (fs : FReg) (s : State), ∃ acc : Bool,
    exec (.send fs) s = .next { s with
      sendAnswers := s.sendAnswers.tail, sendCount := s.sendCount + 1
      trace := (if acc then plainOk else failed 5#3) :: .send (s.getF fs).toPort acc :: s.trace } ∧
    (∀ a rest, s.sendAnswers = a :: rest → acc = a))

/-- R182: the words that select MSEND; the frame MAKE would build is put in `Fd` and handed to the Transceiver once, and stays
there whatever the answer, which is the `ok` of the response; MSEND is MAKE followed by SEND, with the response of the SEND. -/
def Obligations.MsendIsMakeThenSend : Prop :=
  (∀ cmd : Command, cmd.cw &&& 0xF3000000#32 = 0x70000000#32 →
    decode cmd = .ok (.msend (fieldF cmd.cw).toFin (fieldA cmd.cw) (fieldB cmd.cw) (fieldC cmd.cw)
      cmd.xdata.toNat cmd.wdata)) ∧
  (∀ (fd : FReg) (ty d c : Byte) (len : Nat) (pl : DWord) (s : State), ∃ (acc : Bool) (u v : State),
    exec (.make fd ty d c len pl) s = .next u ∧ exec (.send fd) u = .next v ∧
    exec (.msend fd ty d c len pl) s = .next { s with
      f := v.f, sendAnswers := s.sendAnswers.tail, sendCount := s.sendCount + 1
      trace := (if acc then plainOk else failed 5#3) :: .send (v.getF fd).toPort acc :: s.trace } ∧
    v = { s with
      f := s.f.set fd (v.getF fd), sendAnswers := s.sendAnswers.tail, sendCount := s.sendCount + 1
      trace := (if acc then plainOk else failed 5#3) :: .send (v.getF fd).toPort acc :: plainOk :: s.trace } ∧
    (v.getF fd).id = BitVec.ofNat 32 (ty.toNat % 16 * 128 + d.toNat % 16 * 8 + c.toNat % 8) ∧
    (v.getF fd).dlc = min len 8 ∧
    (∀ j < 8, (v.getF fd).byte j = if j < min len 8 then pl.extractLsb' (8 * j) 8 else 0#8) ∧
    (v.getF fd).ext = false ∧ (v.getF fd).rtr = false ∧ (v.getF fd).err = false ∧
    (∀ a rest, s.sendAnswers = a :: rest → acc = a))

/-- R61 (c), (d), on the model's record: the send requests of a sequence of commands are exactly those of its SENDs and MSENDs, in that order, none
repeated, merged or added; and nothing that is sent comes back into the receive queue. -/
def Obligations.SendsAreMadeInCommandOrder : Prop :=
  (∀ (i : Instr) (s t : State), exec i s = .next t →
    ∃ es, t.trace = es ++ s.trace ∧ sentFrames es = sends i s) ∧
  (∀ (cmds : List Instr) (s t : State), execAll cmds s = .next t →
    ∃ es, t.trace = es ++ s.trace ∧ sentFrames es = (sendsAll cmds s).reverse) ∧
  (∀ (i : Instr) (s t : State), exec i s = .next t → sends i s ≠ [] → t.rxq = s.rxq ∧ t.rxMore = s.rxMore)

/-! ## Frames: what a command leaves unchanged -/

/-- R20 and R23: a command changes no frame register but those R23's table names for it (WRITE, MAKE, MSEND, FLOAD: `Fd`;
POLL: `F3`), changes the route table only if it is ATTACH, DETACHK or DETACHD, and changes `in_poll`, the dispatch port and
the receive queue only if it is POLL; no command changes a parameter, the reset input or what is presented next. -/
def Obligations.CommandsChangeOnlyWhatTheyName : Prop :=
  ∀ (i : Instr) (s t : State), exec i s = .next t →
    (∀ k, writesReg i k = false → t.getF k = s.getF k) ∧
    (writesTable i = false → t.rt = s.rt) ∧
    (i ≠ .poll → t.inPoll = s.inPoll ∧ t.dispatch = s.dispatch ∧ t.rxq = s.rxq) ∧
    t.rxMore = s.rxMore ∧ t.cfg = s.cfg ∧ t.input = s.input ∧ t.inReset = s.inReset ∧
    (sends i s = [] → t.sendAnswers = s.sendAnswers ∧ t.sendCount = s.sendCount)

/-- R50, R57: every byte of every frame register is unchanged except the bytes the command stores to: `[start, start + size)` of
`Fd` for a WRITE that is not refused, all of `Fd` for MAKE, MSEND and FLOAD, all of `F3` for POLL, none for the others; and a
WRITE leaves the id and the flags of its register. -/
def Obligations.CommandsStoreOnlyTheBytesTheyName : Prop :=
  (∀ (i : Instr) (s t : State), exec i s = .next t →
    ∀ (k : FReg) (a : Nat), a < 8 → storesTo i k a = false → (t.getF k).byte a = (s.getF k).byte a) ∧
  (∀ (i : Instr) (s t : State), exec i s = .next t → ∀ k : FReg, replacesReg i k = false →
    (t.getF k).id = (s.getF k).id ∧ (t.getF k).ext = (s.getF k).ext ∧ (t.getF k).rtr = (s.getF k).rtr ∧
      (t.getF k).err = (s.getF k).err)

/-! ## Frames on the ports -/

/-- R75: a whole Frame crosses a port as its 103 signals, on every port it crosses. The signals of a Frame are its components,
byte `j` in lane `j`, and a `dlc` signal of 9 to 15 denotes no Frame; FLOAD takes them from its operands, `dlc` and the flags
from the `c` field, and FSTORE gives them back in `rx`, `rdata` and `rmeta`; SEND and MSEND present them to the Transceiver;
POLL takes them from the receive port and drives them on the dispatch port. What is on a port is read off the model's record
(notes/assumptions/5.md). -/
def Obligations.FramesCrossPortsAsTheirSignals : Prop :=
  (∀ fr : Frame, fr.wf → fr.toPort.id = fr.id ∧ (∀ j < 8, fr.toPort.data.extractLsb' (8 * j) 8 = fr.byte j) ∧
    fr.toPort.dlc.toNat = fr.dlc ∧ fr.toPort.ext = fr.ext ∧ fr.toPort.rtr = fr.rtr ∧ fr.toPort.err = fr.err) ∧
  (∀ p : PortFrame, 9 ≤ p.dlc.toNat → normFrame p = none) ∧
  (∀ (cmd : Command) (fr : Frame) (s : State), cmd.cw &&& 0xF3FFFF80#32 = 0xC0000000#32 → fr.wf →
    cmd.xdata = fr.toPort.id → cmd.wdata = fr.toPort.data → (fieldC cmd.cw).extractLsb' 0 4 = fr.toPort.dlc →
    (fieldC cmd.cw).getLsbD 4 = fr.toPort.ext → (fieldC cmd.cw).getLsbD 5 = fr.toPort.rtr →
    (fieldC cmd.cw).getLsbD 6 = fr.toPort.err →
    runCommand cmd s = .next { s with f := s.f.set (fieldF cmd.cw).toFin fr, trace := plainOk :: s.trace }) ∧
  (∀ (fs : FReg) (s : State), ∃ m : BitVec 7,
    exec (.fstore fs) s = .next { s with
      trace := okWith (s.getF fs).toPort.id (s.getF fs).toPort.data m :: s.trace } ∧
    m.extractLsb' 0 4 = (s.getF fs).toPort.dlc ∧ m.getLsbD 4 = (s.getF fs).toPort.ext ∧
    m.getLsbD 5 = (s.getF fs).toPort.rtr ∧ m.getLsbD 6 = (s.getF fs).toPort.err) ∧
  (∀ (fs : FReg) (s : State), ∃ acc t, exec (.send fs) s = .next t ∧
    t.trace = (if acc then plainOk else failed 5#3) :: .send (s.getF fs).toPort acc :: s.trace) ∧
  (∀ (fd : FReg) (ty d c : Byte) (len : Nat) (pl : DWord) (s : State), ∃ acc t,
    exec (.msend fd ty d c len pl) s = .next t ∧
    t.trace = (if acc then plainOk else failed 5#3) :: .send (t.getF fd).toPort acc :: s.trace) ∧
  (∀ (fr : Frame) (h : Word) (q : List PortFrame) (s : State), s.inPoll = false → fr.wf → route s.rt fr.id = some h →
    s.rxq = fr.toPort :: q →
    exec .poll s = .next { s with
      inPoll := true, rxq := q, f := s.f.set 3 fr, dispatch := some ⟨h, fr.toPort⟩
      trace := .dispatch h fr.toPort :: .receive (some fr.toPort) :: s.trace })

/-! ## While reset is asserted -/

/-- R230: while the reset input is asserted no command is accepted: a command presented then is neither decoded nor executed and
gets no response. Through every step while it is asserted nothing happens on a port and the block has R35's values, so that it
has them when the input is released; only the input itself changes its level, and no command does. That a command which is not
accepted is gone, so that its issuer has to present it again, is the model's choice (notes/assumptions/10.md). -/
def Obligations.NoCommandIsAcceptedDuringReset : Prop :=
  (∀ (s : State) (cmd : Command) (rest : List Input), s.inReset = true → s.input = .command cmd :: rest →
    step s = .next { s with input := rest }) ∧
  (∀ s t : State, Inv s → s.inReset = true → step s = .next t →
    t.trace = s.trace ∧ (∀ sl ∈ t.rt, sl.valid = false) ∧ (∀ k : FReg, t.getF k = zeroFrame) ∧ t.inPoll = false ∧
    t.dispatch = none ∧ (t.inReset = true ∨ ∃ rest, s.input = .reset false :: rest)) ∧
  (∀ s t : State, step s = .next t → t.inReset ≠ s.inReset → ∃ rest, s.input = .reset t.inReset :: rest)
end

