-- ==== Sys2Proof/Laws/State.lean ====
section
/-! SUPPORT. One lemma per field per update of the state, so that no later proof unfolds a record update. -/

namespace Sys2Proof.Machine

variable (s : State)

/-! ### State.emit -/

@[simp] theorem State.emit_cfg (e : PortEvent) : (s.emit e).cfg = s.cfg := rfl
@[simp] theorem State.emit_rt (e : PortEvent) : (s.emit e).rt = s.rt := rfl
@[simp] theorem State.emit_f (e : PortEvent) : (s.emit e).f = s.f := rfl
@[simp] theorem State.emit_inPoll (e : PortEvent) : (s.emit e).inPoll = s.inPoll := rfl
@[simp] theorem State.emit_dispatch (e : PortEvent) : (s.emit e).dispatch = s.dispatch := rfl
@[simp] theorem State.emit_inReset (e : PortEvent) : (s.emit e).inReset = s.inReset := rfl
@[simp] theorem State.emit_input (e : PortEvent) : (s.emit e).input = s.input := rfl
@[simp] theorem State.emit_rxq (e : PortEvent) : (s.emit e).rxq = s.rxq := rfl
@[simp] theorem State.emit_rxMore (e : PortEvent) : (s.emit e).rxMore = s.rxMore := rfl
@[simp] theorem State.emit_sendAnswers (e : PortEvent) : (s.emit e).sendAnswers = s.sendAnswers := rfl
@[simp] theorem State.emit_sendCount (e : PortEvent) : (s.emit e).sendCount = s.sendCount := rfl
@[simp] theorem State.emit_trace (e : PortEvent) : (s.emit e).trace = e :: s.trace := rfl

/-! ### State.respond -/

@[simp] theorem State.respond_cfg (r : Response) : (s.respond r).cfg = s.cfg := rfl
@[simp] theorem State.respond_rt (r : Response) : (s.respond r).rt = s.rt := rfl
@[simp] theorem State.respond_f (r : Response) : (s.respond r).f = s.f := rfl
@[simp] theorem State.respond_inPoll (r : Response) : (s.respond r).inPoll = s.inPoll := rfl
@[simp] theorem State.respond_dispatch (r : Response) : (s.respond r).dispatch = s.dispatch := rfl
@[simp] theorem State.respond_inReset (r : Response) : (s.respond r).inReset = s.inReset := rfl
@[simp] theorem State.respond_input (r : Response) : (s.respond r).input = s.input := rfl
@[simp] theorem State.respond_rxq (r : Response) : (s.respond r).rxq = s.rxq := rfl
@[simp] theorem State.respond_rxMore (r : Response) : (s.respond r).rxMore = s.rxMore := rfl
@[simp] theorem State.respond_sendAnswers (r : Response) : (s.respond r).sendAnswers = s.sendAnswers := rfl
@[simp] theorem State.respond_sendCount (r : Response) : (s.respond r).sendCount = s.sendCount := rfl
@[simp] theorem State.respond_trace (r : Response) : (s.respond r).trace = .response r :: s.trace := rfl

/-! ### State.fail -/

@[simp] theorem State.fail_cfg (c : Cause) : (s.fail c).cfg = s.cfg := rfl
@[simp] theorem State.fail_rt (c : Cause) : (s.fail c).rt = s.rt := rfl
@[simp] theorem State.fail_f (c : Cause) : (s.fail c).f = s.f := rfl
@[simp] theorem State.fail_inPoll (c : Cause) : (s.fail c).inPoll = s.inPoll := rfl
@[simp] theorem State.fail_dispatch (c : Cause) : (s.fail c).dispatch = s.dispatch := rfl
@[simp] theorem State.fail_inReset (c : Cause) : (s.fail c).inReset = s.inReset := rfl
@[simp] theorem State.fail_input (c : Cause) : (s.fail c).input = s.input := rfl
@[simp] theorem State.fail_rxq (c : Cause) : (s.fail c).rxq = s.rxq := rfl
@[simp] theorem State.fail_rxMore (c : Cause) : (s.fail c).rxMore = s.rxMore := rfl
@[simp] theorem State.fail_sendAnswers (c : Cause) : (s.fail c).sendAnswers = s.sendAnswers := rfl
@[simp] theorem State.fail_sendCount (c : Cause) : (s.fail c).sendCount = s.sendCount := rfl
@[simp] theorem State.fail_trace (c : Cause) : (s.fail c).trace = .response (failResponse c) :: s.trace := rfl

/-! ### State.setF -/

@[simp] theorem State.setF_cfg (i : FReg) (fr : Frame) : (s.setF i fr).cfg = s.cfg := rfl
@[simp] theorem State.setF_rt (i : FReg) (fr : Frame) : (s.setF i fr).rt = s.rt := rfl
@[simp] theorem State.setF_f (i : FReg) (fr : Frame) : (s.setF i fr).f = s.f.set i fr := rfl
@[simp] theorem State.setF_inPoll (i : FReg) (fr : Frame) : (s.setF i fr).inPoll = s.inPoll := rfl
@[simp] theorem State.setF_dispatch (i : FReg) (fr : Frame) : (s.setF i fr).dispatch = s.dispatch := rfl
@[simp] theorem State.setF_inReset (i : FReg) (fr : Frame) : (s.setF i fr).inReset = s.inReset := rfl
@[simp] theorem State.setF_input (i : FReg) (fr : Frame) : (s.setF i fr).input = s.input := rfl
@[simp] theorem State.setF_rxq (i : FReg) (fr : Frame) : (s.setF i fr).rxq = s.rxq := rfl
@[simp] theorem State.setF_rxMore (i : FReg) (fr : Frame) : (s.setF i fr).rxMore = s.rxMore := rfl
@[simp] theorem State.setF_sendAnswers (i : FReg) (fr : Frame) : (s.setF i fr).sendAnswers = s.sendAnswers := rfl
@[simp] theorem State.setF_sendCount (i : FReg) (fr : Frame) : (s.setF i fr).sendCount = s.sendCount := rfl
@[simp] theorem State.setF_trace (i : FReg) (fr : Frame) : (s.setF i fr).trace = s.trace := rfl

/-! ### State.setRt -/

@[simp] theorem State.setRt_cfg (rt : List Slot) : (s.setRt rt).cfg = s.cfg := rfl
@[simp] theorem State.setRt_rt (rt : List Slot) : (s.setRt rt).rt = rt := rfl
@[simp] theorem State.setRt_f (rt : List Slot) : (s.setRt rt).f = s.f := rfl
@[simp] theorem State.setRt_inPoll (rt : List Slot) : (s.setRt rt).inPoll = s.inPoll := rfl
@[simp] theorem State.setRt_dispatch (rt : List Slot) : (s.setRt rt).dispatch = s.dispatch := rfl
@[simp] theorem State.setRt_inReset (rt : List Slot) : (s.setRt rt).inReset = s.inReset := rfl
@[simp] theorem State.setRt_input (rt : List Slot) : (s.setRt rt).input = s.input := rfl
@[simp] theorem State.setRt_rxq (rt : List Slot) : (s.setRt rt).rxq = s.rxq := rfl
@[simp] theorem State.setRt_rxMore (rt : List Slot) : (s.setRt rt).rxMore = s.rxMore := rfl
@[simp] theorem State.setRt_sendAnswers (rt : List Slot) : (s.setRt rt).sendAnswers = s.sendAnswers := rfl
@[simp] theorem State.setRt_sendCount (rt : List Slot) : (s.setRt rt).sendCount = s.sendCount := rfl
@[simp] theorem State.setRt_trace (rt : List Slot) : (s.setRt rt).trace = s.trace := rfl

/-! ### State.xcvSend -/

@[simp] theorem State.xcvSend_cfg (fr : Frame) : (s.xcvSend fr).cfg = s.cfg := rfl
@[simp] theorem State.xcvSend_rt (fr : Frame) : (s.xcvSend fr).rt = s.rt := rfl
@[simp] theorem State.xcvSend_f (fr : Frame) : (s.xcvSend fr).f = s.f := rfl
@[simp] theorem State.xcvSend_inPoll (fr : Frame) : (s.xcvSend fr).inPoll = s.inPoll := rfl
@[simp] theorem State.xcvSend_dispatch (fr : Frame) : (s.xcvSend fr).dispatch = s.dispatch := rfl
@[simp] theorem State.xcvSend_inReset (fr : Frame) : (s.xcvSend fr).inReset = s.inReset := rfl
@[simp] theorem State.xcvSend_input (fr : Frame) : (s.xcvSend fr).input = s.input := rfl
@[simp] theorem State.xcvSend_rxq (fr : Frame) : (s.xcvSend fr).rxq = s.rxq := rfl
@[simp] theorem State.xcvSend_rxMore (fr : Frame) : (s.xcvSend fr).rxMore = s.rxMore := rfl
@[simp] theorem State.xcvSend_sendAnswers (fr : Frame) : (s.xcvSend fr).sendAnswers = s.sendAnswers.tail := rfl
@[simp] theorem State.xcvSend_sendCount (fr : Frame) : (s.xcvSend fr).sendCount = s.sendCount + 1 := rfl
@[simp] theorem State.xcvSend_trace (fr : Frame) : (s.xcvSend fr).trace = .send fr.toPort s.sendAnswer :: s.trace := rfl

/-! ### enterDispatch -/

@[simp] theorem enterDispatch_cfg (h : Word) (fr : Frame) : (enterDispatch h fr s).cfg = s.cfg := rfl
@[simp] theorem enterDispatch_rt (h : Word) (fr : Frame) : (enterDispatch h fr s).rt = s.rt := rfl
@[simp] theorem enterDispatch_f (h : Word) (fr : Frame) : (enterDispatch h fr s).f = s.f.set 3 fr := rfl
@[simp] theorem enterDispatch_inPoll (h : Word) (fr : Frame) : (enterDispatch h fr s).inPoll = s.inPoll := rfl
@[simp] theorem enterDispatch_dispatch (h : Word) (fr : Frame) : (enterDispatch h fr s).dispatch = some ⟨h, fr.toPort⟩ := rfl
@[simp] theorem enterDispatch_inReset (h : Word) (fr : Frame) : (enterDispatch h fr s).inReset = s.inReset := rfl
@[simp] theorem enterDispatch_input (h : Word) (fr : Frame) : (enterDispatch h fr s).input = s.input := rfl
@[simp] theorem enterDispatch_rxq (h : Word) (fr : Frame) : (enterDispatch h fr s).rxq = s.rxq := rfl
@[simp] theorem enterDispatch_rxMore (h : Word) (fr : Frame) : (enterDispatch h fr s).rxMore = s.rxMore := rfl
@[simp] theorem enterDispatch_sendAnswers (h : Word) (fr : Frame) : (enterDispatch h fr s).sendAnswers = s.sendAnswers := rfl
@[simp] theorem enterDispatch_sendCount (h : Word) (fr : Frame) : (enterDispatch h fr s).sendCount = s.sendCount := rfl
@[simp] theorem enterDispatch_trace (h : Word) (fr : Frame) : (enterDispatch h fr s).trace = .dispatch h fr.toPort :: s.trace := rfl

/-! ### endPoll -/

@[simp] theorem endPoll_cfg : (endPoll s).cfg = s.cfg := rfl
@[simp] theorem endPoll_rt : (endPoll s).rt = s.rt := rfl
@[simp] theorem endPoll_f : (endPoll s).f = s.f := rfl
@[simp] theorem endPoll_inPoll : (endPoll s).inPoll = false := rfl
@[simp] theorem endPoll_dispatch : (endPoll s).dispatch = s.dispatch := rfl
@[simp] theorem endPoll_inReset : (endPoll s).inReset = s.inReset := rfl
@[simp] theorem endPoll_input : (endPoll s).input = s.input := rfl
@[simp] theorem endPoll_rxq : (endPoll s).rxq = s.rxq := rfl
@[simp] theorem endPoll_rxMore : (endPoll s).rxMore = s.rxMore := rfl
@[simp] theorem endPoll_sendAnswers : (endPoll s).sendAnswers = s.sendAnswers := rfl
@[simp] theorem endPoll_sendCount : (endPoll s).sendCount = s.sendCount := rfl
@[simp] theorem endPoll_trace : (endPoll s).trace = .response okResponse :: s.trace := rfl

/-! ### resetBlock -/

@[simp] theorem resetBlock_cfg : (resetBlock s).cfg = s.cfg := rfl
@[simp] theorem resetBlock_rt : (resetBlock s).rt = List.replicate s.cfg.capacity freeSlot := rfl
@[simp] theorem resetBlock_f : (resetBlock s).f = Vector.replicate 4 zeroFrame := rfl
@[simp] theorem resetBlock_inPoll : (resetBlock s).inPoll = false := rfl
@[simp] theorem resetBlock_dispatch : (resetBlock s).dispatch = none := rfl
@[simp] theorem resetBlock_inReset : (resetBlock s).inReset = s.inReset := rfl
@[simp] theorem resetBlock_input : (resetBlock s).input = s.input := rfl
@[simp] theorem resetBlock_rxq : (resetBlock s).rxq = s.rxq := rfl
@[simp] theorem resetBlock_rxMore : (resetBlock s).rxMore = s.rxMore := rfl
@[simp] theorem resetBlock_sendAnswers : (resetBlock s).sendAnswers = s.sendAnswers := rfl
@[simp] theorem resetBlock_sendCount : (resetBlock s).sendCount = s.sendCount := rfl
@[simp] theorem resetBlock_trace : (resetBlock s).trace = s.trace := rfl

/-! ### setReset -/

/-- An asserted reset input, and the release of one, reset the block (R230). -/
theorem setReset_resets {asserted : Bool} {s : State} (h : asserted = true ∨ s.inReset = true) :
    setReset asserted s = { resetBlock s with inReset := asserted } := by
  rcases h with h | h <;> simp [setReset, h]

/-- The release of a reset input that is not asserted is no event. -/
theorem setReset_idle {s : State} (h : s.inReset = false) : setReset false s = s := by
  simp [setReset, h]

/-! ### Reading a frame register after an update -/

theorem State.getF_def (i : FReg) : s.getF i = s.f[i] := rfl

@[simp] theorem State.getF_emit (e : PortEvent) (i : FReg) : (s.emit e).getF i = s.getF i := rfl
@[simp] theorem State.getF_respond (r : Response) (i : FReg) : (s.respond r).getF i = s.getF i := rfl
@[simp] theorem State.getF_fail (c : Cause) (i : FReg) : (s.fail c).getF i = s.getF i := rfl
@[simp] theorem State.getF_setRt (rt : List Slot) (i : FReg) : (s.setRt rt).getF i = s.getF i := rfl
@[simp] theorem State.getF_xcvSend (fr : Frame) (i : FReg) : (s.xcvSend fr).getF i = s.getF i := rfl
@[simp] theorem State.getF_endPoll (i : FReg) : (endPoll s).getF i = s.getF i := rfl

@[simp] theorem State.getF_setF_same (i : FReg) (fr : Frame) : (s.setF i fr).getF i = fr := by
  simp [State.getF, State.setF]

theorem State.getF_setF_other {i k : FReg} (fr : Frame) (h : k ≠ i) : (s.setF i fr).getF k = s.getF k := by
  have h' : (i : Nat) ≠ k := fun e => h (Fin.ext e.symm)
  simp [State.getF, State.setF, h']

theorem State.getF_setF (i k : FReg) (fr : Frame) :
    (s.setF i fr).getF k = if k = i then fr else s.getF k := by
  split
  · next h => subst h; exact s.getF_setF_same _ _
  · next h => exact s.getF_setF_other fr h

@[simp] theorem State.getF_enterDispatch_three (h : Word) (fr : Frame) : (enterDispatch h fr s).getF 3 = fr :=
  s.getF_setF_same 3 fr

theorem State.getF_enterDispatch_other {k : FReg} (h : Word) (fr : Frame) (hk : k ≠ 3) :
    (enterDispatch h fr s).getF k = s.getF k :=
  s.getF_setF_other fr hk

@[simp] theorem State.getF_resetBlock (i : FReg) : (resetBlock s).getF i = zeroFrame := by
  simp [State.getF, resetBlock]

end Sys2Proof.Machine
end

