-- ==== Sys2Proof/Laws/Bytes.lean ====
section
/-! SUPPORT. Byte lanes and data buffers: a lane of a value built from lanes, a byte of a built or written buffer, and the
Frame invariant (R24) kept by every operation that makes a Frame. -/

namespace Sys2Proof.Machine

/-! ### Lanes -/

/-- Bit `i` of lane `j` is bit `8j + i` of the value. -/
theorem getLsbD_laneOf (v : DWord) (j i : Nat) : (laneOf v j).getLsbD i = (decide (i < 8) && v.getLsbD (8 * j + i)) := by
  simp [laneOf, BitVec.getLsbD_extractLsb']

/-- Byte lane `j < 8` of the value built from `g` is `g j`. -/
theorem laneOf_ofLanes (g : Nat → Byte) {j : Nat} (hj : j < 8) : laneOf (ofLanes g) j = g j := by
  apply BitVec.eq_of_getLsbD_eq
  intro i hi
  simp only [laneOf, ofLanes, BitVec.getLsbD_extractLsb', BitVec.getLsbD_append, hi, decide_true, Bool.true_and]
  interval_cases j <;> simp <;> (repeat' split) <;> first | rfl | omega | (congr 1; omega)

/-- Two 64-bit values with the same eight lanes are equal. -/
theorem eq_of_lanes {v w : DWord} (h : ∀ j < 8, laneOf v j = laneOf w j) : v = w := by
  apply BitVec.eq_of_getLsbD_eq
  intro i hi
  have hl := congrArg (fun b : Byte => b.getLsbD (i % 8)) (h (i / 8) (by omega))
  have hb : i % 8 < 8 := by omega
  have hs : 8 * (i / 8) + i % 8 = i := by omega
  rw [getLsbD_laneOf, getLsbD_laneOf, hs] at hl
  simpa only [hb, decide_true, Bool.true_and] using hl

/-- A 64-bit value is the value built from its lanes. -/
theorem ofLanes_laneOf (v : DWord) : ofLanes (laneOf v) = v :=
  eq_of_lanes fun _ hj => laneOf_ofLanes _ hj

/-- Lane `j` of the low `8n` bits of a value. -/
theorem laneOf_low (v : DWord) (n j : Nat) (hj : j < 8) :
    laneOf (BitVec.ofNat 64 (v.toNat % 2 ^ (8 * n))) j = if j < n then laneOf v j else 0 := by
  apply BitVec.eq_of_getLsbD_eq
  intro i hi
  have h64 : 8 * j + i < 64 := by omega
  rw [getLsbD_laneOf, BitVec.getLsbD_ofNat, Nat.testBit_mod_two_pow]
  split
  · next h =>
    have : 8 * j + i < 8 * n := by omega
    rw [getLsbD_laneOf]
    simp only [hi, h64, this, decide_true, Bool.true_and]
    rfl
  · next h =>
    have : ¬ 8 * j + i < 8 * n := by omega
    simp [hi, h64, this]

/-- Lane `j` of a value moved down by `k` bytes. -/
theorem laneOf_ushiftRight (v : DWord) (k j : Nat) : laneOf (v >>> (8 * k)) j = laneOf v (k + j) := by
  apply BitVec.eq_of_getLsbD_eq
  intro i hi
  rw [getLsbD_laneOf, getLsbD_laneOf, BitVec.getLsbD_ushiftRight, Nat.mul_add, Nat.add_assoc]

/-- A value whose lanes from `n` on are zero is below `2^(8n)`. -/
theorem toNat_lt_of_lanes {v : DWord} {n : Nat} (h : ∀ j < 8, n ≤ j → laneOf v j = 0) : v.toNat < 2 ^ (8 * n) := by
  have hv : v = BitVec.ofNat 64 (v.toNat % 2 ^ (8 * n)) := by
    apply eq_of_lanes
    intro j hj
    rw [laneOf_low _ _ _ hj]
    split
    · rfl
    · next hn => exact h j hj (by omega)
  have hlt := Nat.mod_lt v.toNat (Nat.two_pow_pos (8 * n))
  have := congrArg BitVec.toNat hv
  rw [BitVec.toNat_ofNat] at this
  rw [this]
  exact Nat.lt_of_le_of_lt (Nat.mod_le _ _) hlt

/-! ### Bytes of a buffer -/

@[simp] theorem getElem_bufferOf (g : Nat → Byte) {j : Nat} (hj : j < 8) : (bufferOf g)[j] = g j := by
  simp [bufferOf]

theorem Frame.byte_of_lt (fr : Frame) {a : Nat} (ha : a < 8) : fr.byte a = fr.data[a] := by
  simp [Frame.byte, ha]

/-- Byte `a < 8` of a frame whose buffer is built from `g`. -/
theorem Frame.byte_bufferOf (id : Word) (g : Nat → Byte) (dlc : Nat) (ext rtr err : Bool) {a : Nat} (ha : a < 8) :
    (Frame.mk id (bufferOf g) dlc ext rtr err).byte a = g a := by
  simp [Frame.byte, bufferOf, ha]

/-- Frames with the same components and the same eight bytes are equal. -/
theorem Frame.ext_bytes {x y : Frame} (hid : x.id = y.id) (hdlc : x.dlc = y.dlc) (hext : x.ext = y.ext)
    (hrtr : x.rtr = y.rtr) (herr : x.err = y.err) (hb : ∀ a < 8, x.byte a = y.byte a) : x = y := by
  cases x; cases y
  simp only [Frame.mk.injEq]
  refine ⟨hid, ?_, hdlc, hext, hrtr, herr⟩
  refine Vector.ext fun a ha => ?_
  simpa [Frame.byte, ha] using hb a ha

/-- The Frame invariant by bytes. -/
theorem Frame.wf_iff (fr : Frame) : fr.wf ↔ fr.dlc ≤ 8 ∧ ∀ a < 8, fr.dlc ≤ a → fr.byte a = 0 := by
  constructor
  · rintro ⟨h1, h2⟩
    refine ⟨h1, fun a ha hd => ?_⟩
    rw [fr.byte_of_lt ha]
    exact h2 ⟨a, ha⟩ hd
  · rintro ⟨h1, h2⟩
    refine ⟨h1, fun j hd => ?_⟩
    have := h2 j.val j.isLt hd
    rwa [fr.byte_of_lt j.isLt] at this

/-! ### MemRead and MemWrite (R12, R51) -/

theorem Frame.byte_memWrite (fr : Frame) (a n : Nat) (v : DWord) {k : Nat} (hk : k < 8) :
    (fr.memWrite a n v).byte k = if a ≤ k ∧ k < a + n then laneOf v (k - a) else fr.byte k := by
  simp [Frame.memWrite, Frame.byte, bufferOf, hk]

theorem Frame.byte_write (fr : Frame) (a n : Nat) (v : DWord) {k : Nat} (hk : k < 8) :
    (fr.write a n v).byte k = if a ≤ k ∧ k < a + n then laneOf v (k - a) else fr.byte k :=
  fr.byte_memWrite a n v hk

@[simp] theorem Frame.write_id (fr : Frame) (a n : Nat) (v : DWord) : (fr.write a n v).id = fr.id := rfl
@[simp] theorem Frame.write_dlc (fr : Frame) (a n : Nat) (v : DWord) : (fr.write a n v).dlc = max fr.dlc (a + n) := rfl
@[simp] theorem Frame.write_ext (fr : Frame) (a n : Nat) (v : DWord) : (fr.write a n v).ext = fr.ext := rfl
@[simp] theorem Frame.write_rtr (fr : Frame) (a n : Nat) (v : DWord) : (fr.write a n v).rtr = fr.rtr := rfl
@[simp] theorem Frame.write_err (fr : Frame) (a n : Nat) (v : DWord) : (fr.write a n v).err = fr.err := rfl

theorem Frame.laneOf_memRead (fr : Frame) (a n : Nat) {j : Nat} (hj : j < 8) :
    laneOf (fr.memRead a n) j = if j < n then fr.byte (a + j) else 0 :=
  laneOf_ofLanes _ hj

theorem Frame.laneOf_lanes (fr : Frame) {j : Nat} (hj : j < 8) : laneOf fr.lanes j = fr.byte j :=
  laneOf_ofLanes _ hj

/-! ### The Frame invariant (R24) is kept by every operation that makes a Frame -/

theorem zeroFrame_wf : zeroFrame.wf := by decide

/-- An admitted write keeps the Frame invariant (R122). -/
theorem Frame.write_wf {fr : Frame} (h : fr.wf) {a n : Nat} (hn : a + n ≤ 8) (v : DWord) : (fr.write a n v).wf := by
  rw [Frame.wf_iff] at h ⊢
  refine ⟨by simp; omega, fun k hk hd => ?_⟩
  simp only [Frame.write_dlc] at hd
  rw [Frame.byte_write _ _ _ _ hk, if_neg (by omega)]
  exact h.2 k hk (by omega)

theorem mkFrame_byte (t d c : Byte) (len : Nat) (pl : DWord) {j : Nat} (hj : j < 8) :
    (mkFrame t d c len pl).byte j = if j < min len 8 then laneOf pl j else 0 := by
  simp [mkFrame, Frame.byte, bufferOf, payloadBytes, hj]

/-- `mkframe` gives a Frame (R141 g). -/
theorem mkFrame_wf (t d c : Byte) (len : Nat) (pl : DWord) : (mkFrame t d c len pl).wf := by
  rw [Frame.wf_iff]
  refine ⟨by simp [mkFrame, payloadBytes], fun a ha hd => ?_⟩
  rw [mkFrame_byte _ _ _ _ _ ha, if_neg (by simp [mkFrame, payloadBytes] at hd; omega)]

/-- What `normFrame` answers (R143). -/
theorem normFrame_cases (p : PortFrame) :
    (8 < p.dlc.toNat ∧ normFrame p = none) ∨
    (p.dlc.toNat ≤ 8 ∧ ∃ fr, normFrame p = some fr ∧ fr.id = p.id ∧ fr.dlc = p.dlc.toNat ∧ fr.ext = p.ext ∧ fr.rtr = p.rtr ∧
      fr.err = p.err ∧ ∀ j < 8, fr.byte j = if j < p.dlc.toNat then laneOf p.data j else 0) := by
  by_cases h : p.dlc.toNat > 8
  · exact .inl ⟨h, by simp [normFrame, h]⟩
  · exact .inr ⟨by omega, _, if_neg h, rfl, rfl, rfl, rfl, rfl, fun j hj => Frame.byte_bufferOf _ _ _ _ _ _ hj⟩

/-- `normFrame` gives a Frame (R143, R24). -/
theorem normFrame_wf {p : PortFrame} {fr : Frame} (h : normFrame p = some fr) : fr.wf := by
  rcases normFrame_cases p with ⟨_, hn⟩ | ⟨hd, fr', hs, _, hdlc, _, _, _, hb⟩
  · simp [hn] at h
  · rw [hs] at h
    cases h
    rw [Frame.wf_iff, hdlc]
    exact ⟨hd, fun a ha hda => by rw [hb a ha, if_neg (by omega)]⟩

theorem normFrame_id {p : PortFrame} {fr : Frame} (h : normFrame p = some fr) : fr.id = p.id := by
  rcases normFrame_cases p with ⟨_, hn⟩ | ⟨_, fr', hs, hid, _⟩
  · simp [hn] at h
  · rw [hs] at h
    cases h
    exact hid

/-! ### The signals of a Frame (R75) -/

@[simp] theorem Frame.toPort_id (fr : Frame) : fr.toPort.id = fr.id := rfl
@[simp] theorem Frame.toPort_ext (fr : Frame) : fr.toPort.ext = fr.ext := rfl
@[simp] theorem Frame.toPort_rtr (fr : Frame) : fr.toPort.rtr = fr.rtr := rfl
@[simp] theorem Frame.toPort_err (fr : Frame) : fr.toPort.err = fr.err := rfl

theorem Frame.laneOf_toPort_data (fr : Frame) {j : Nat} (hj : j < 8) : laneOf fr.toPort.data j = fr.byte j :=
  fr.laneOf_lanes hj

theorem Frame.toPort_dlc {fr : Frame} (h : fr.dlc ≤ 8) : fr.toPort.dlc.toNat = fr.dlc := by
  simp [Frame.toPort]
  omega

/-- The signals of a Frame denote a Frame. -/
theorem Frame.toPort_wf {fr : Frame} (h : fr.wf) : fr.toPort.wf := by
  rw [Frame.wf_iff] at h
  refine ⟨by rw [toPort_dlc h.1]; exact h.1, fun j hj => ?_⟩
  rw [toPort_dlc h.1] at hj
  rw [fr.laneOf_toPort_data j.isLt]
  exact h.2 j j.isLt hj

/-- A Frame is taken from its signals as it was. -/
theorem normFrame_toPort {fr : Frame} (h : fr.wf) : normFrame fr.toPort = some fr := by
  rw [Frame.wf_iff] at h
  have hdlc := Frame.toPort_dlc h.1
  rcases normFrame_cases fr.toPort with ⟨h', _⟩ | ⟨_, fr', hs, hid, hd, he, hr, her, hb⟩
  · omega
  · rw [hs]
    refine congrArg some (Frame.ext_bytes hid (hd.trans hdlc) he hr her fun a ha => ?_)
    rw [hb a ha, hdlc, fr.laneOf_toPort_data ha]
    split
    · rfl
    · exact (h.2 a ha (by omega)).symm

/-- The verdict of FEQ as a proposition (R147). -/
theorem Frame.eqv_iff (x y : Frame) :
    x.eqv y = true ↔ x.id = y.id ∧ x.dlc = y.dlc ∧ x.ext = y.ext ∧ x.rtr = y.rtr ∧ x.err = y.err ∧
      ∀ j < x.dlc, x.byte j = y.byte j := by
  simp only [Frame.eqv, Bool.and_eq_true, beq_iff_eq, List.all_eq_true, List.mem_range, and_assoc]

end Sys2Proof.Machine
end

