-- ==== Sys2Proof/Laws/Table.lean ====
section
/-! SUPPORT. The route table: what each operation can do to it, and R21 kept by each. -/

namespace Sys2Proof.Machine

/-! ### Uniqueness by index -/

/-- R21.1 by slot number. -/
theorem uniqueKeys_iff (rt : List Slot) : uniqueKeys rt ↔
    ∀ i j (hi : i < rt.length) (hj : j < rt.length), rt[i].valid = true → rt[j].valid = true → rt[i].key = rt[j].key →
      i = j := by
  rw [uniqueKeys, List.pairwise_iff_getElem]
  constructor
  · intro h i j hi hj vi vj hk
    rcases Nat.lt_trichotomy i j with hlt | rfl | hgt
    · exact absurd hk (h i j hi hj hlt vi vj)
    · rfl
    · exact absurd hk.symm (h j i hj hi hgt vj vi)
  · intro h i j hi hj hlt vi vj hk
    have := h i j hi hj vi vj hk
    omega

/-- Two valid slots of a table with unique keys that hold the same key are the same slot. -/
theorem eq_of_holds {rt : List Slot} (hu : uniqueKeys rt) {a b : Slot} (ha : a ∈ rt) (hb : b ∈ rt)
    (va : a.valid = true) (vb : b.valid = true) (hk : a.key = b.key) : a = b := by
  obtain ⟨i, hi, rfl⟩ := List.getElem_of_mem ha
  obtain ⟨j, hj, rfl⟩ := List.getElem_of_mem hb
  have := (uniqueKeys_iff rt).1 hu i j hi hj va vb hk
  subst this
  rfl

@[simp] theorem Slot.holds_iff (k : Ident) (sl : Slot) : sl.holds k = true ↔ sl.valid = true ∧ sl.key = k := by
  simp [Slot.holds]

@[simp] theorem Slot.holdsDevice_iff (k : Ident) (h : Word) (sl : Slot) :
    sl.holdsDevice k h = true ↔ sl.valid = true ∧ sl.key = k ∧ sl.href = h := by
  simp [Slot.holdsDevice, and_assoc]

@[simp] theorem Slot.routes_iff (k : Word) (sl : Slot) :
    sl.routes k = true ↔ sl.valid = true ∧ sl.key.setWidth 32 = k := by
  simp [Slot.routes]

@[simp] theorem Slot.cleared_valid (sl : Slot) : sl.cleared.valid = false := rfl
@[simp] theorem Slot.cleared_key (sl : Slot) : sl.cleared.key = sl.key := rfl
@[simp] theorem Slot.cleared_href (sl : Slot) : sl.cleared.href = sl.href := rfl
@[simp] theorem Slot.withHref_valid (h : Word) (sl : Slot) : (sl.withHref h).valid = sl.valid := rfl
@[simp] theorem Slot.withHref_key (h : Word) (sl : Slot) : (sl.withHref h).key = sl.key := rfl
@[simp] theorem Slot.withHref_href (h : Word) (sl : Slot) : (sl.withHref h).href = h := rfl

theorem modify_eq_set_getElem (rt : List Slot) (g : Slot → Slot) {i : Nat} (hi : i < rt.length) :
    rt.modify i g = rt.set i (g rt[i]) := by
  apply List.ext_getElem (by simp)
  intro n hn hn'
  rw [List.getElem_modify, List.getElem_set]
  split
  · next h => subst h; rfl
  · rfl

/-! ### Removing a registration (R165, R167) -/

/-- Everything `removeSlot` can do: nothing, when no slot meets `p`; or clear `valid` in the first slot that meets it. -/
theorem removeSlot_cases (p : Slot → Bool) (rt : List Slot) :
    ((∀ sl ∈ rt, p sl = false) ∧ removeSlot p rt = rt) ∨
    (∃ i, ∃ hi : i < rt.length, p rt[i] = true ∧ (∀ j (hj : j < i), p (rt[j]'(by omega)) = false) ∧
      removeSlot p rt = rt.set i rt[i].cleared) := by
  unfold removeSlot
  cases h : rt.findIdx? p with
  | none => exact .inl ⟨by simpa [List.findIdx?_eq_none_iff] using h, rfl⟩
  | some i =>
    obtain ⟨hi, hp, hl⟩ := List.findIdx?_eq_some_iff_getElem.1 h
    exact .inr ⟨i, hi, hp, fun j hj => by simpa using hl j hj, modify_eq_set_getElem rt _ hi⟩

@[simp] theorem removeSlot_length (p : Slot → Bool) (rt : List Slot) : (removeSlot p rt).length = rt.length := by
  rcases removeSlot_cases p rt with ⟨_, h⟩ | ⟨i, _, _, _, h⟩ <;> simp [h]

/-- Slot by slot: a slot is as before, or had `p` and is now the same slot with `valid = 0`. -/
theorem removeSlot_getElem (p : Slot → Bool) (rt : List Slot) (n : Nat) (h : n < rt.length) :
    (removeSlot p rt)[n]'(by simpa using h) = rt[n] ∨
      (p rt[n] = true ∧ (removeSlot p rt)[n]'(by simpa using h) = rt[n].cleared) := by
  rcases removeSlot_cases p rt with ⟨_, e⟩ | ⟨i, hi, hp, _, e⟩
  · left; simp [e]
  · by_cases hn : i = n
    · subst hn; right; exact ⟨hp, by simp [e]⟩
    · left; simp [e, hn]

/-- With at most one slot that meets `p`, `removeSlot` clears `valid` wherever `p` holds. -/
theorem removeSlot_eq_map {p : Slot → Bool} {rt : List Slot}
    (h1 : ∀ i j (hi : i < rt.length) (hj : j < rt.length), p rt[i] = true → p rt[j] = true → i = j) :
    removeSlot p rt = rt.map fun sl => if p sl then sl.cleared else sl := by
  rcases removeSlot_cases p rt with ⟨hn, e⟩ | ⟨i, hi, hp, _, e⟩
  · rw [e]
    symm
    rw [List.map_congr_left (g := id)]
    · simp
    · intro sl hs; simp [hn sl hs]
  · rw [e]
    apply List.ext_getElem (by simp)
    intro n hn hn'
    have hn2 : n < rt.length := by simpa using hn
    rw [List.getElem_map]
    by_cases he : i = n
    · subst he; simp [hp]
    · have : p rt[n] = false := by
        cases hq : p rt[n] with
        | false => rfl
        | true => exact absurd (h1 i n hi hn2 hp hq) he
      simp [he, this]

/-! ### Registering (R161) -/

/-- Everything ATTACH can do to the table (R161). -/
theorem attachTable_cases (pol : Config.DupPolicy) (k : Ident) (h : Word) (rt : List Slot) :
    (∃ i, ∃ hi : i < rt.length, (rt[i].valid = true ∧ rt[i].key = k) ∧
      (∀ j (hj : j < i), (rt[j]'(by omega)).holds k = false) ∧
      ((pol = .reject ∧ attachTable pol k h rt = .error .duplicate) ∨
       (pol = .overwrite ∧ attachTable pol k h rt = .ok (rt.set i (rt[i].withHref h))))) ∨
    ((∀ sl ∈ rt, sl.valid = true → sl.key ≠ k) ∧ (∀ sl ∈ rt, sl.valid = true) ∧
      attachTable pol k h rt = .error .capacity) ∨
    ((∀ sl ∈ rt, sl.valid = true → sl.key ≠ k) ∧ ∃ i, ∃ hi : i < rt.length, rt[i].valid = false ∧
      (∀ j (hj : j < i), (rt[j]'(by omega)).valid = true) ∧
      attachTable pol k h rt = .ok (rt.set i ⟨true, k, h⟩)) := by
  unfold attachTable
  cases hf : rt.findIdx? (Slot.holds k) with
  | some i =>
    obtain ⟨hi, hp, hl⟩ := List.findIdx?_eq_some_iff_getElem.1 hf
    refine .inl ⟨i, hi, (Slot.holds_iff _ _).1 hp, fun j hj => Bool.eq_false_iff.2 (hl j hj), ?_⟩
    cases pol with
    | reject => exact .inl ⟨rfl, rfl⟩
    | overwrite => exact .inr ⟨rfl, congrArg Except.ok (modify_eq_set_getElem rt _ hi)⟩
  | none =>
    have hnk : ∀ sl ∈ rt, sl.valid = true → sl.key ≠ k := by
      intro sl hs hv he
      have := List.findIdx?_eq_none_iff.1 hf sl hs
      simp [Slot.holds, hv, he] at this
    refine .inr ?_
    cases hv : rt.findIdx? fun sl => !sl.valid with
    | none => exact .inl ⟨hnk, by simpa [List.findIdx?_eq_none_iff] using hv, rfl⟩
    | some i =>
      obtain ⟨hi, hp, hl⟩ := List.findIdx?_eq_some_iff_getElem.1 hv
      exact .inr ⟨hnk, i, hi, by simpa using hp, fun j hj => by simpa using hl j hj, rfl⟩

/-! ### Lookup (R173) -/

/-- No registration routes the id: no valid slot's key is `rkey` of it. -/
theorem route_eq_none {rt : List Slot} {id : Word} :
    route rt id = none ↔ ∀ sl ∈ rt, sl.valid = true → sl.key.setWidth 32 ≠ rkey id := by
  simp [route]

/-- A lookup that answers found a valid slot with that key and that reference. -/
theorem route_eq_some {rt : List Slot} {id h : Word} (hr : route rt id = some h) :
    ∃ sl ∈ rt, sl.valid = true ∧ sl.key.setWidth 32 = rkey id ∧ sl.href = h := by
  simp only [route, Option.map_eq_some_iff] at hr
  obtain ⟨sl, hs, hh⟩ := hr
  have hp := List.find?_some hs
  exact ⟨sl, List.mem_of_find?_eq_some hs, ((Slot.routes_iff _ _).1 hp).1, ((Slot.routes_iff _ _).1 hp).2, hh⟩

/-- In a table with unique keys, the lookup finds the slot that holds the key. -/
theorem route_of_mem {rt : List Slot} (hu : uniqueKeys rt) {sl : Slot} (hs : sl ∈ rt) (hv : sl.valid = true) {id : Word}
    (hk : sl.key.setWidth 32 = rkey id) : route rt id = some sl.href := by
  cases hr : route rt id with
  | none => exact absurd hk (route_eq_none.1 hr sl hs hv)
  | some h =>
    obtain ⟨sl', hs', hv', hk', rfl⟩ := route_eq_some hr
    have he : sl'.key = sl.key := by
      have hw : sl'.key.setWidth 32 = sl.key.setWidth 32 := hk'.trans hk.symm
      apply BitVec.eq_of_toNat_eq
      have := congrArg BitVec.toNat hw
      simp only [BitVec.toNat_setWidth] at this
      have h1 := sl'.key.isLt
      have h2 := sl.key.isLt
      omega
    rw [eq_of_holds hu hs' hs hv' hv he]

/-! ### R21 is kept -/

theorem freeTable_wf (p : Config.Params) : tableWf p (List.replicate p.capacity freeSlot) := by
  refine ⟨by simp, ?_, ?_⟩
  · exact List.pairwise_replicate.2 (.inr (by simp [freeSlot]))
  · intro sl hs
    rw [List.eq_of_mem_replicate hs]
    intro hv
    simp [freeSlot] at hv

/-- Removing a registration keeps R21. -/
theorem removeSlot_wf {c : Config.Params} {rt : List Slot} (h : tableWf c rt) (p : Slot → Bool) :
    tableWf c (removeSlot p rt) := by
  obtain ⟨hl, hu, hs⟩ := h
  refine ⟨by simpa using hl, ?_, ?_⟩
  · rw [uniqueKeys_iff] at hu ⊢
    intro i j hi hj vi vj hk
    have hi' : i < rt.length := by simpa using hi
    have hj' : j < rt.length := by simpa using hj
    rcases removeSlot_getElem p rt i hi' with ei | ⟨_, ei⟩ <;> rw [ei] at vi hk
    · rcases removeSlot_getElem p rt j hj' with ej | ⟨_, ej⟩ <;> rw [ej] at vj hk
      · exact hu i j hi' hj' vi vj hk
      · simp at vj
    · simp at vi
  · intro sl hm
    obtain ⟨n, hn, rfl⟩ := List.getElem_of_mem hm
    have hn' : n < rt.length := by simpa using hn
    rcases removeSlot_getElem p rt n hn' with e | ⟨_, e⟩ <;> rw [e]
    · exact hs _ (List.getElem_mem hn')
    · intro hv; simp at hv

/-- Registering keeps R21, for a key with `key[2:0] = 0` and a reference of `H_W` bits. -/
theorem attachTable_wf {c : Config.Params} {rt rt' : List Slot} (h : tableWf c rt) {pol : Config.DupPolicy} {k : Ident}
    {r : Word} (hk : k &&& 0x007#11 = 0#11) (hr : r.toNat < 2 ^ c.hrefBits) (he : attachTable pol k r rt = .ok rt') :
    tableWf c rt' := by
  obtain ⟨hl, hu, hs⟩ := h
  rw [uniqueKeys_iff] at hu
  rcases attachTable_cases pol k r rt with ⟨i, hi, ⟨hv, hkey⟩, _, ⟨_, e⟩ | ⟨_, e⟩⟩ | ⟨_, _, e⟩ | ⟨hn, i, hi, hfree, _, e⟩
  all_goals rw [e] at he
  · cases he
  · cases he
    have hkeys : ∀ n (hn : n < rt.length), (rt.set i (rt[i].withHref r))[n]'(by simpa using hn) =
        if i = n then rt[n].withHref r else rt[n] := by
      intro n hn
      rw [List.getElem_set]
      split
      · next h => subst h; rfl
      · rfl
    refine ⟨by simpa using hl, ?_, ?_⟩
    · rw [uniqueKeys_iff]
      intro a b ha hb va vb hab
      have ha' : a < rt.length := by simpa using ha
      have hb' : b < rt.length := by simpa using hb
      rw [hkeys a ha'] at va hab
      rw [hkeys b hb'] at vb hab
      simp only [apply_ite Slot.valid, apply_ite Slot.key, Slot.withHref_valid, Slot.withHref_key, ite_self]
        at va vb hab
      exact hu a b ha' hb' va vb hab
    · intro sl hm
      obtain ⟨n, hn, rfl⟩ := List.getElem_of_mem hm
      have hn' : n < rt.length := by simpa using hn
      rw [hkeys n hn']
      split
      · intro hv'
        exact ⟨(hs _ (List.getElem_mem hn') hv').1, hr⟩
      · exact hs _ (List.getElem_mem hn')
  · cases he
  · cases he
    refine ⟨by simpa using hl, ?_, ?_⟩
    · rw [uniqueKeys_iff]
      intro a b ha hb va vb hab
      have ha' : a < rt.length := by simpa using ha
      have hb' : b < rt.length := by simpa using hb
      rw [List.getElem_set] at va hab
      rw [List.getElem_set] at vb hab
      by_cases hia : i = a <;> by_cases hib : i = b
      · omega
      · simp only [if_pos hia, if_neg hib] at hab vb
        exact absurd hab.symm (hn _ (List.getElem_mem hb') vb)
      · simp only [if_neg hia, if_pos hib] at hab va
        exact absurd hab (hn _ (List.getElem_mem ha') va)
      · simp only [if_neg hia, if_neg hib] at hab va vb
        exact hu a b ha' hb' va vb hab
    · intro sl hm
      rcases List.mem_or_eq_of_mem_set hm with hm | rfl
      · exact hs sl hm
      · exact fun _ => ⟨hk, hr⟩

end Sys2Proof.Machine
end

