-- ==== Sys2Proof/Laws/Drain.lean ====
section
/-! SUPPORT. The drain loop of POLL (R170): everything it can do, said once. -/

namespace Sys2Proof.Machine

/-- `dropped` in the machine's own terms. -/
theorem dropped_iff (rt : List Slot) (p : PortFrame) :
    dropped rt p ↔ normFrame p = none ∨ ∃ fr, normFrame p = some fr ∧ route rt fr.id = none := by
  rcases normFrame_cases p with ⟨hd, hn⟩ | ⟨hd, fr, hs, hid, _⟩
  · simp [dropped, hn, hd]
  · have hnd : ¬ p.dlc.toNat > 8 := by omega
    simp only [dropped, hs, hnd, false_or, Option.some.injEq, reduceCtorEq, exists_eq_left', route_eq_none, hid]
    rfl

@[simp] theorem received_nil : received [] = [] := rfl

theorem received_cons (p : PortFrame) (q : List PortFrame) (tr : List PortEvent) :
    received (p :: q) ++ tr = received q ++ .receive (some p) :: tr := by
  simp [received]

theorem drain_nil (s : State) : drain [] s =
    if s.rxMore then { s with rxq := [] } else endPoll (({ s with rxq := [] } : State).emit (.receive none)) := rfl

theorem drain_cons_dropped {s : State} {p : PortFrame} (q : List PortFrame) (h : dropped s.rt p) :
    drain (p :: q) s = drain q (s.emit (.receive (some p))) := by
  rcases (dropped_iff s.rt p).1 h with hn | ⟨fr, hn, hr⟩ <;> simp [drain, *]

theorem drain_cons_routed {s : State} {p : PortFrame} (q : List PortFrame) {fr : Frame} {h : Word} (hn : normFrame p = some fr)
    (hr : route s.rt fr.id = some h) : drain (p :: q) s =
      enterDispatch h fr (({ s with rxq := q } : State).emit (.receive (some p))) := by
  simp [drain, hn, hr]

/-- A value that is not dropped is a Frame with a registration. -/
theorem not_dropped {rt : List Slot} {p : PortFrame} (h : ¬ dropped rt p) :
    ∃ fr h, normFrame p = some fr ∧ route rt fr.id = some h := by
  rw [dropped_iff] at h
  cases hn : normFrame p with
  | none => exact absurd (.inl hn) h
  | some fr =>
    cases hr : route rt fr.id with
    | none => exact absurd (.inr ⟨fr, hn, hr⟩) h
    | some w => exact ⟨fr, w, rfl, hr⟩

/-- Everything the loop of POLL can do (R170 to R174). -/
theorem drain_outcome (q : List PortFrame) (s : State) : DrainOutcome { s with rxq := q } (drain q s) := by
  induction q generalizing s with
  | nil =>
    rw [drain_nil]
    by_cases hm : s.rxMore = true
    · rw [if_pos hm]
      exact DrainOutcome.waits (s := { s with rxq := [] }) (by simp) hm
    · rw [if_neg hm]
      exact DrainOutcome.ends (s := { s with rxq := [] }) (by simp) (by simpa using hm)
  | cons p q ih =>
    by_cases hp : dropped s.rt p
    · rw [drain_cons_dropped q hp]
      have key := ih (s.emit (.receive (some p)))
      generalize drain q (s.emit (.receive (some p))) = t at key
      cases key with
      | ends hd hm =>
        have := DrainOutcome.ends (s := { s with rxq := p :: q }) (by simpa using ⟨hp, hd⟩) hm
        simp only [received_cons] at this
        exact this
      | dispatches pre p' post fr sl hq hd hn hs hv hk =>
        have := DrainOutcome.dispatches (s := { s with rxq := p :: q }) (p :: pre) p' post fr sl
          (by simpa using hq) (by simpa using ⟨hp, hd⟩) hn hs hv hk
        simp only [received_cons] at this
        exact this
      | waits hd hm =>
        have := DrainOutcome.waits (s := { s with rxq := p :: q }) (by simpa using ⟨hp, hd⟩) hm
        simp only [received_cons] at this
        exact this
    · obtain ⟨fr, h, hn, hr⟩ := not_dropped hp
      rw [drain_cons_routed q hn hr]
      obtain ⟨sl, hs, hv, hk, rfl⟩ := route_eq_some hr
      rw [normFrame_id hn] at hk
      exact DrainOutcome.dispatches (s := { s with rxq := p :: q }) [] p q fr sl rfl (by simp) hn hs hv hk

/-- `drain_outcome` for the state's own queue. -/
theorem drain_own_queue (s : State) : DrainOutcome s (drain s.rxq s) := drain_outcome s.rxq s

/-- What no drain changes. -/
theorem DrainOutcome.frame {s t : State} (h : DrainOutcome s t) :
    t.cfg = s.cfg ∧ t.rt = s.rt ∧ t.input = s.input ∧ t.rxMore = s.rxMore ∧ t.sendAnswers = s.sendAnswers ∧
      t.sendCount = s.sendCount ∧ t.inReset = s.inReset := by
  cases h <;> exact ⟨rfl, rfl, rfl, rfl, rfl, rfl, rfl⟩

/-- A drain writes no register but `F3`. -/
theorem DrainOutcome.getF {s t : State} (h : DrainOutcome s t) {k : FReg} (hk : k ≠ 3) : t.getF k = s.getF k := by
  cases h with
  | ends => rfl
  | waits => rfl
  | dispatches pre p post fr sl => exact s.getF_setF_other fr hk

end Sys2Proof.Machine
end

