-- ==== Sys2Proof/Laws/Operands.lean ====
section
/-! SUPPORT. The identifier's fields as numbers (R70): what `pack`, `devKey`, `rkey` and the field readers give. -/

namespace Sys2Proof.Machine

theorem and_15 (n : Nat) : n &&& 15 = n % 16 := Nat.and_two_pow_sub_one_eq_mod n 4

theorem and_7 (n : Nat) : n &&& 7 = n % 8 := Nat.and_two_pow_sub_one_eq_mod n 3

theorem toNat_nibble (b : Byte) : (nibble b).toNat = b.toNat % 16 := by
  simp [nibble, and_15]

theorem toNat_triple (b : Byte) : (triple b).toNat = b.toNat % 8 := by
  simp [triple, and_7]

/-- Three fields on disjoint bits: or is sum. -/
theorem or_fields (x : BitVec 4) (y : BitVec 4) (z : BitVec 3) :
    ((x.setWidth 11 <<< 7) ||| (y.setWidth 11 <<< 3) ||| z.setWidth 11 : BitVec 11) = x ++ y ++ z := by
  apply BitVec.eq_of_getLsbD_eq
  intro i hi
  simp only [BitVec.getLsbD_or, BitVec.getLsbD_shiftLeft, BitVec.getLsbD_setWidth, BitVec.getLsbD_append]
  interval_cases i <;> simp

/-- The identifier as the concatenation of its fields (R70's figure). -/
theorem pack_eq_append (t d c : Byte) : pack t d c = nibble t ++ nibble d ++ triple c := or_fields _ _ _

theorem toNat_append_fields (x y : BitVec 4) (z : BitVec 3) :
    (x ++ y ++ z).toNat = x.toNat * 128 + y.toNat * 8 + z.toNat := by
  have hy := y.isLt
  have hz := z.isLt
  rw [BitVec.toNat_append, BitVec.toNat_append, ← Nat.shiftLeft_add_eq_or_of_lt hz, ← Nat.shiftLeft_add_eq_or_of_lt hy,
    Nat.shiftLeft_eq, Nat.shiftLeft_eq]
  omega

/-- `pack` as a number (R100). -/
theorem toNat_pack (t d c : Byte) :
    (pack t d c).toNat = t.toNat % 16 * 128 + d.toNat % 16 * 8 + c.toNat % 8 := by
  rw [pack_eq_append, toNat_append_fields, toNat_nibble, toNat_nibble, toNat_triple]

/-- The device key is the identifier with command 0 (R108). -/
theorem devKey_eq_pack (t d : Byte) : devKey t d = pack t d 0 := by
  simp [devKey, pack, triple]

theorem toNat_devKey (t d : Byte) : (devKey t d).toNat = t.toNat % 16 * 128 + d.toNat % 16 * 8 := by
  rw [devKey_eq_pack, toNat_pack]
  simp

/-- Clearing the three Command bits (R106) as a number. -/
theorem toNat_rkey (i : Word) : (rkey i).toNat = i.toNat / 8 * 8 := by
  have h : rkey i = (i >>> 3) <<< 3 := by
    apply BitVec.eq_of_getLsbD_eq
    intro n hn
    simp only [rkey, BitVec.getLsbD_and, BitVec.getLsbD_shiftLeft, BitVec.getLsbD_ushiftRight]
    interval_cases n <;> simp
  rw [h, BitVec.toNat_shiftLeft, BitVec.toNat_ushiftRight, Nat.shiftRight_eq_div_pow, Nat.shiftLeft_eq]
  have := i.isLt
  omega

theorem toNat_identType (i : Word) : (identType i).toNat = i.toNat / 128 % 16 := by
  simp [identType, Nat.shiftRight_eq_div_pow, and_15]

theorem toNat_identDev (i : Word) : (identDev i).toNat = i.toNat / 8 % 16 := by
  simp [identDev, Nat.shiftRight_eq_div_pow, and_15]

theorem toNat_identCommand (i : Word) : (identCommand i).toNat = i.toNat % 8 := by
  simp [identCommand, and_7]

/-- The fields of UNPACK's result word land on disjoint bits (R80). -/
theorem toNat_unpackWord (p : Config.Params) (i : Word) : (unpackWord p i).toNat =
    (if p.typeKnown.getLsbD (i.toNat / 128 % 16) then 1 else 0) * 2147483648 + i.toNat / 128 % 16 * 65536 +
      i.toNat / 8 % 16 * 256 + i.toNat % 8 := by
  have h : ∀ (k : BitVec 1) (x y : BitVec 4) (z : BitVec 3),
      ((k.setWidth 32 <<< 31) ||| (x.setWidth 32 <<< 16) ||| (y.setWidth 32 <<< 8) ||| z.setWidth 32 : Word) =
        k ++ 0#11 ++ x ++ 0#4 ++ y ++ 0#5 ++ z := by
    intro k x y z
    apply BitVec.eq_of_getLsbD_eq
    intro n hn
    simp only [BitVec.getLsbD_or, BitVec.getLsbD_shiftLeft, BitVec.getLsbD_setWidth, BitVec.getLsbD_append]
    interval_cases n <;> simp
  have hn : ∀ (k : BitVec 1) (x y : BitVec 4) (z : BitVec 3), (k ++ 0#11 ++ x ++ 0#4 ++ y ++ 0#5 ++ z).toNat =
      k.toNat * 2147483648 + x.toNat * 65536 + y.toNat * 256 + z.toNat := by
    intro k x y z
    have hx := x.isLt
    have hy := y.isLt
    have hz := z.isLt
    have happ : ∀ {m n : Nat} (a : BitVec m) (b : BitVec n), (a ++ b).toNat = a.toNat * 2 ^ n + b.toNat := by
      intro m n a b
      rw [BitVec.toNat_append, ← Nat.shiftLeft_add_eq_or_of_lt b.isLt, Nat.shiftLeft_eq]
    simp only [happ, BitVec.toNat_ofNat]
    omega
  rw [unpackWord, h, hn, toNat_identType, toNat_identDev, toNat_identCommand, typeKnown, toNat_identType]
  cases p.typeKnown.getLsbD (i.toNat / 128 % 16) <;> simp

/-- A device key has its Command bits clear (R21.2, R108). -/
theorem devKey_low (t d : Byte) : devKey t d &&& 0x007#11 = 0#11 := by
  apply BitVec.eq_of_toNat_eq
  rw [BitVec.toNat_and, show (0x007#11 : BitVec 11).toNat = 7 from rfl, and_7, toNat_devKey]
  simp
  omega

/-- The device key is the routing key of every identifier of the device (R108). -/
theorem rkey_pack (t d c : Byte) : rkey ((pack t d c).setWidth 32) = (devKey t d).setWidth 32 := by
  apply BitVec.eq_of_toNat_eq
  rw [toNat_rkey, BitVec.toNat_setWidth, BitVec.toNat_setWidth, toNat_pack, toNat_devKey]
  omega

theorem hrefOf_lt (p : Config.Params) (x : Word) : (hrefOf p x).toNat < 2 ^ p.hrefBits := by
  rw [hrefOf, BitVec.toNat_ofNat]
  exact Nat.lt_of_le_of_lt (Nat.mod_le _ _) (Nat.mod_lt _ (Nat.two_pow_pos _))

end Sys2Proof.Machine
end

