-- ==== Sys2Proof/Laws/Exec.lean ====
section
/-! SUPPORT. Everything a command, an input and a step can do, said once. -/

namespace Sys2Proof.Machine

theorem okResponse_wf : okResponse.wf := by decide

theorem okWith_wf (rx : Word) (rdata : DWord) (rmeta : BitVec 7) : Response.wf ⟨true, 0#3, rx, rdata, rmeta⟩ :=
  ⟨by simp, by simp, by simp⟩

theorem failResponse_wf (c : Cause) (h : c ≠ .noFailure) : (failResponse c).wf := by
  cases c <;> first | exact absurd rfl h | decide

theorem sendResponse_wf (a : Bool) : (sendResponse a).wf := by cases a <;> decide

theorem draining_iff (s : State) : s.draining = true ↔ s.inPoll = true ∧ s.dispatch = none := by
  simp [State.draining]

/-- An admitted WRITE (R121, R53). -/
theorem exec_write_admitted (fd : FReg) {start size : Nat} (v : DWord) (s : State) (h0 : size ≠ 0) (h8 : start + size ≤ 8) :
    exec (.write fd start size v) s = .next ((s.setF fd ((s.getF fd).write start size v)).respond okResponse) := by
  simp [exec, execWrite, h0, Nat.not_lt.2 h8]

/-- An admitted READ (R125, R53). -/
theorem exec_read_admitted (fs : FReg) {start size : Nat} (s : State) (h0 : size ≠ 0) (h8 : start + size ≤ 8)
    (hd : start + size ≤ (s.getF fs).dlc) : exec (.read fs start size) s =
      .next (s.respond { okResponse with rdata := (s.getF fs).memRead start size }) := by
  simp [exec, execRead, h0, Nat.not_lt.2 h8, Nat.not_lt.2 hd]

/-- The event SEND and MSEND respond with (R180, R182). -/
theorem sendResponse_event (a : Bool) : PortEvent.response (sendResponse a) = if a then plainOk else failed 5#3 := by
  cases a <;> rfl

/-- The Transceiver's next answer depends on its own side alone. -/
theorem sendAnswer_eq {s t : State} (ha : t.sendAnswers = s.sendAnswers) (hc : t.sendCount = s.sendCount) :
    t.sendAnswer = s.sendAnswer := by
  rw [State.sendAnswer, State.sendAnswer, ha, hc]

/-- The effects a command can have, by the commands that can have them. -/
inductive Effect (i : Instr) (s : State) : State → Prop where
  /-- It responds and changes nothing else. -/
  | answers (r : Response) (hr : r.wf) (hi : sends i s = []) (hp : i = .poll → r = failResponse .illegal) :
      Effect i s (s.respond r)
  /-- It writes one frame register. -/
  | register (k : FReg) (fr : Frame) (hi : sends i s = []) (hk : writesReg i k = true)
      (hw : (s.getF k).wf → fr.wf) (hd : replacesReg i k = false → (s.getF k).dlc ≤ fr.dlc)
      (hb : ∀ a < 8, storesTo i k a = false → fr.byte a = (s.getF k).byte a) (hp : i ≠ .poll) :
      Effect i s ((s.setF k fr).respond okResponse)
  /-- ATTACH puts a registration into the table. -/
  | attaches (t d : Byte) (x : Word) (rt : List Slot) (hi : i = .attach t d x)
      (he : attachTable s.cfg.dupPolicy (devKey t d) (hrefOf s.cfg x) s.rt = .ok rt) :
      Effect i s ((s.setRt rt).respond okResponse)
  /-- DETACHK and DETACHD remove one: `p` finds it among the valid slots. -/
  | detaches (p : Slot → Bool) (hi : writesTable i = true) (hs : sends i s = []) (hp : i ≠ .poll)
      (ha : ∀ t d x, i ≠ .attach t d x) (hv : ∀ sl, p sl = true → sl.valid = true) :
      Effect i s ((s.setRt (removeSlot p s.rt)).respond okResponse)
  /-- SEND hands a register's content over. -/
  | sends (fs : FReg) (hi : i = .send fs) :
      Effect i s ((s.xcvSend (s.getF fs)).respond (sendResponse s.sendAnswer))
  /-- MSEND builds a frame and hands it over. -/
  | builds (fd : FReg) (t d c : Byte) (len : Nat) (pl : DWord) (hi : i = .msend fd t d c len pl) :
      Effect i s (((s.setF fd (mkFrame t d c len pl)).xcvSend (mkFrame t d c len pl)).respond (sendResponse s.sendAnswer))
  /-- POLL opens and drains. -/
  | polls (t : State) (hi : i = .poll) (hn : s.inPoll = false) (ho : DrainOutcome { s with inPoll := true } t) :
      Effect i s t

/-- Every command answers a next state, and that state is one of its effects. -/
theorem exec_effect (i : Instr) (s : State) : ∃ t, exec i s = .next t ∧ Effect i s t := by
  cases i with
  | pack t d c => exact ⟨_, rfl, .answers _ (okWith_wf _ _ _) rfl nofun⟩
  | unpack x => exact ⟨_, rfl, .answers _ (okWith_wf _ _ _) rfl nofun⟩
  | rkey x => exact ⟨_, rfl, .answers _ (okWith_wf _ _ _) rfl nofun⟩
  | write fd start size v =>
    simp only [exec, execWrite]
    split
    · exact ⟨_, rfl, .answers _ (failResponse_wf _ (by decide)) rfl nofun⟩
    · split
      · exact ⟨_, rfl, .answers _ (failResponse_wf _ (by decide)) rfl nofun⟩
      · next h0 h8 =>
        refine ⟨_, rfl, .register fd _ rfl (by simp [writesReg]) (fun hw => Frame.write_wf hw (by omega) v)
          (fun _ => by simp) (fun a ha hs => ?_) nofun⟩
        rw [Frame.byte_write _ _ _ _ ha, if_neg]
        intro hc
        have : start + size ≤ 8 := by omega
        simp [storesTo, hc.1, hc.2, this] at hs
  | read fs start size =>
    simp only [exec, execRead]
    split
    · exact ⟨_, rfl, .answers _ (failResponse_wf _ (by decide)) rfl nofun⟩
    · split
      · exact ⟨_, rfl, .answers _ (failResponse_wf _ (by decide)) rfl nofun⟩
      · split
        · exact ⟨_, rfl, .answers _ (failResponse_wf _ (by decide)) rfl nofun⟩
        · exact ⟨_, rfl, .answers _ (okWith_wf _ _ _) rfl nofun⟩
  | make fd t d c len pl =>
    exact ⟨_, rfl, .register fd _ rfl (by simp [writesReg]) (fun _ => mkFrame_wf ..) (by simp [replacesReg])
      (by simp [storesTo]) nofun⟩
  | msend fd t d c len pl => exact ⟨_, rfl, .builds fd t d c len pl rfl⟩
  | attach t d x =>
    simp only [exec, execAttach]
    rcases attachTable_cases s.cfg.dupPolicy (devKey t d) (hrefOf s.cfg x) s.rt with
      ⟨_, _, _, _, ⟨_, e⟩ | ⟨_, e⟩⟩ | ⟨_, _, e⟩ | ⟨_, _, _, _, _, e⟩ <;> rw [e]
    · exact ⟨_, rfl, .answers _ (failResponse_wf _ (by decide)) rfl nofun⟩
    · exact ⟨_, rfl, .attaches t d x _ rfl e⟩
    · exact ⟨_, rfl, .answers _ (failResponse_wf _ (by decide)) rfl nofun⟩
    · exact ⟨_, rfl, .attaches t d x _ rfl e⟩
  | detachk t d => exact ⟨_, rfl, .detaches _ rfl rfl nofun nofun fun sl h => by simp_all [Slot.holds]⟩
  | detachd t d x => exact ⟨_, rfl, .detaches _ rfl rfl nofun nofun fun sl h => by simp_all [Slot.holdsDevice]⟩
  | poll =>
    simp only [exec, execPoll]
    cases h : s.inPoll with
    | true => exact ⟨_, rfl, .answers _ (failResponse_wf _ (by decide)) rfl fun _ => rfl⟩
    | false => exact ⟨_, rfl, .polls _ rfl h (drain_own_queue { s with inPoll := true })⟩
  | send fs => exact ⟨_, rfl, .sends fs rfl⟩
  | fload fd id dlc e r er data =>
    simp only [exec, execFload]
    cases h : normFrame { id := id, data := data, dlc := dlc, ext := e, rtr := r, err := er } with
    | none => exact ⟨_, rfl, .answers _ (failResponse_wf _ (by decide)) rfl nofun⟩
    | some fr =>
      exact ⟨_, rfl, .register fd _ rfl (by simp [writesReg]) (fun _ => normFrame_wf h) (by simp [replacesReg])
        (by simp [storesTo]) nofun⟩
  | fstore fs => exact ⟨_, rfl, .answers _ (okWith_wf _ _ _) rfl nofun⟩
  | feq fa fb => exact ⟨_, rfl, .answers _ (okWith_wf _ _ _) rfl nofun⟩

/-- The effect of a command that answers `t`. -/
theorem effect_of_exec {i : Instr} {s t : State} (h : exec i s = .next t) : Effect i s t := by
  obtain ⟨t', he, hf⟩ := exec_effect i s
  rw [h] at he
  cases he
  exact hf

/-- A command on the port: a legal word's effect, or the refusal of an illegal one (R79, R202). -/
theorem runCommand_cases {c : Command} {s t : State} (h : runCommand c s = .next t) :
    (∃ i, decode c = .ok i ∧ Effect i s t) ∨ (∃ e, decode c = .error e ∧ t = s.fail .illegal) := by
  unfold runCommand at h
  cases hd : decode c with
  | ok i => rw [hd] at h; exact .inl ⟨i, rfl, effect_of_exec h⟩
  | error e => rw [hd] at h; cases h; exact .inr ⟨e, rfl, rfl⟩

/-- A command that is accepted (R205, R230) runs. -/
theorem step_accepted {s : State} {c : Command} {rest : List Input} (hin : s.input = .command c :: rest)
    (hw : s.draining = false) (hr : s.inReset = false) : step s = runCommand c { s with input := rest } := by
  simp only [step, hin]
  rw [if_neg (by simp [mustWait, hw])]
  exact if_neg (by simp [hr])

/-- A command that is presented while reset is asserted is not accepted (R230). -/
theorem step_unaccepted {s : State} {c : Command} {rest : List Input} (hin : s.input = .command c :: rest)
    (hr : s.inReset = true) : step s = .next { s with input := rest } := by
  simp only [step, hin]
  rw [if_neg (by simp [mustWait, hr])]
  exact if_pos hr

/-- A completion signal with no dispatch open has no effect (R219). -/
theorem step_unasked {s : State} {rest : List Input} (hin : s.input = .completion :: rest) (hd : s.dispatch = none) :
    step s = .next { s with input := rest } := by
  simp only [step, hin, mustWait, takeInput, takeCompletion, Bool.false_eq_true, if_false]
  split
  · next h => simp [hd] at h
  · rfl

/-- Everything a step can do, by the input it takes. -/
inductive StepEffect (s : State) : State → Prop where
  /-- No input, or a command that waits: the state is held. -/
  | holds (h : s.input = [] ∨ ∃ c rest, s.input = .command c :: rest ∧ s.draining = true ∧ s.inReset = false) :
      StepEffect s s
  /-- A command while reset is asserted: it is not accepted (R230). -/
  | unaccepted (c : Command) (rest : List Input) (hin : s.input = .command c :: rest) (hr : s.inReset = true) :
      StepEffect s { s with input := rest }
  /-- A legal command. -/
  | command (c : Command) (rest : List Input) (i : Instr) (t : State) (hin : s.input = .command c :: rest)
      (hw : s.draining = false) (hr : s.inReset = false) (hd : decode c = .ok i)
      (he : Effect i { s with input := rest } t) : StepEffect s t
  /-- An illegal command word. -/
  | illegal (c : Command) (rest : List Input) (e : IllegalWord) (hin : s.input = .command c :: rest)
      (hw : s.draining = false) (hr : s.inReset = false) (hd : decode c = .error e) :
      StepEffect s (State.fail .illegal { s with input := rest })
  /-- The end of a dispatch. -/
  | completion (rest : List Input) (d : DispatchRequest) (t : State) (hin : s.input = .completion :: rest)
      (hd : s.dispatch = some d) (ho : DrainOutcome { s with input := rest, dispatch := none } t) : StepEffect s t
  /-- A completion signal with no dispatch open: it has no effect. -/
  | unasked (rest : List Input) (hin : s.input = .completion :: rest) (hd : s.dispatch = none) :
      StepEffect s { s with input := rest }
  /-- Reset is asserted, or an asserted one is released: the block is reset (R230). -/
  | reset (asserted : Bool) (rest : List Input) (hin : s.input = .reset asserted :: rest)
      (ha : asserted = true ∨ s.inReset = true) :
      StepEffect s { resetBlock { s with input := rest } with inReset := asserted }
  /-- A reset input that is not asserted is released. -/
  | resetIdle (rest : List Input) (hin : s.input = .reset false :: rest) (hr : s.inReset = false) :
      StepEffect s { s with input := rest }
  /-- The receive queue changes and no POLL is between two requests. -/
  | queue (rest : List Input) (q : List PortFrame) (more : Bool) (hin : s.input = .receiveQueue q more :: rest)
      (hw : s.draining = false) : StepEffect s { s with input := rest, rxq := q, rxMore := more }
  /-- The receive queue changes and the POLL that is between two requests goes on. -/
  | queueDrains (rest : List Input) (q : List PortFrame) (more : Bool) (t : State)
      (hin : s.input = .receiveQueue q more :: rest) (hw : s.draining = true)
      (ho : DrainOutcome { s with input := rest, rxq := q, rxMore := more } t) : StepEffect s t

theorem step_effect {s t : State} (h : step s = .next t) : StepEffect s t := by
  cases hin : s.input with
  | nil => simp only [step, hin] at h; cases h; exact .holds (.inl hin)
  | cons e rest =>
    cases e with
    | command c =>
      cases hr : s.inReset with
      | true =>
        rw [step_unaccepted hin hr] at h
        cases h
        exact .unaccepted c rest hin hr
      | false =>
        cases hw : s.draining with
        | true => simp [step, hin, mustWait, hw, hr] at h; subst h; exact .holds (.inr ⟨c, rest, hin, hw, hr⟩)
        | false =>
          rw [step_accepted hin hw hr] at h
          rcases runCommand_cases h with ⟨i, hd, he⟩ | ⟨e, hd, rfl⟩
          · exact .command c rest i t hin hw hr hd he
          · exact .illegal c rest e hin hw hr hd
    | completion =>
      cases hd : s.dispatch with
      | none =>
        rw [step_unasked hin hd] at h
        cases h
        exact .unasked rest hin hd
      | some d =>
        simp [step, hin, mustWait, takeInput, takeCompletion, hd] at h
        subst h
        exact .completion rest d _ hin hd (drain_own_queue _)
    | reset asserted =>
      simp [step, hin, mustWait, takeInput] at h
      subst h
      by_cases ha : asserted = true ∨ s.inReset = true
      · rw [setReset_resets (s := { s with input := rest }) ha]
        exact .reset asserted rest hin ha
      · obtain ⟨rfl, hr⟩ : asserted = false ∧ s.inReset = false := by simpa using ha
        rw [setReset_idle (s := { s with input := rest }) hr]
        exact .resetIdle rest hin hr
    | receiveQueue q more =>
      simp [step, hin, mustWait, takeInput, changeQueue] at h
      cases hw : s.draining with
      | false =>
        have : ({ s with input := rest } : State).draining = false := hw
        rw [this] at h
        simp at h
        subst h
        exact .queue rest q more hin hw
      | true =>
        have : ({ s with input := rest } : State).draining = true := hw
        rw [this] at h
        simp at h
        subst h
        exact .queueDrains rest q more _ hin hw (drain_own_queue { s with input := rest, rxq := q, rxMore := more })

end Sys2Proof.Machine
end

