-- ==== Sys2Proof/Laws/Fields.lean ====
section
/-! SUPPORT. The command word's fields (R76): reading a field of a composed word, a word from its fields, and a mask test (R78)
field by field. -/

namespace Sys2Proof

/-- A command word from all six of its fields, `rsv` included (R76). -/
def joinWord (op : BitVec 4) (f rsv : BitVec 2) (a b c : Byte) : Word := op ++ f ++ rsv ++ a ++ b ++ c

theorem mkWord_eq (op : BitVec 4) (f : BitVec 2) (a b c : Byte) : mkWord op f a b c = joinWord op f 0#2 a b c := rfl

section
variable (op : BitVec 4) (f rsv : BitVec 2) (a b c : Byte)

/-- Bit `i` of a joined word. -/
theorem getLsbD_joinWord (i : Nat) : (joinWord op f rsv a b c).getLsbD i =
    if i < 8 then c.getLsbD i else if i < 16 then b.getLsbD (i - 8) else if i < 24 then a.getLsbD (i - 16)
    else if i < 26 then rsv.getLsbD (i - 24) else if i < 28 then f.getLsbD (i - 26) else op.getLsbD (i - 28) := by
  simp only [joinWord, BitVec.getLsbD_append]
  (repeat' split) <;> first | rfl | omega

@[simp] theorem fieldOp_joinWord : fieldOp (joinWord op f rsv a b c) = op := by
  apply BitVec.eq_of_getLsbD_eq
  intro i hi
  simp only [fieldOp, BitVec.getLsbD_extractLsb', getLsbD_joinWord, hi, decide_true, Bool.true_and]
  (repeat' split) <;> first | omega | (congr 1; omega)

@[simp] theorem fieldF_joinWord : fieldF (joinWord op f rsv a b c) = f := by
  apply BitVec.eq_of_getLsbD_eq
  intro i hi
  simp only [fieldF, BitVec.getLsbD_extractLsb', getLsbD_joinWord, hi, decide_true, Bool.true_and]
  (repeat' split) <;> first | omega | (congr 1; omega)

@[simp] theorem fieldRsv_joinWord : fieldRsv (joinWord op f rsv a b c) = rsv := by
  apply BitVec.eq_of_getLsbD_eq
  intro i hi
  simp only [fieldRsv, BitVec.getLsbD_extractLsb', getLsbD_joinWord, hi, decide_true, Bool.true_and]
  (repeat' split) <;> first | omega | (congr 1; omega)

@[simp] theorem fieldA_joinWord : fieldA (joinWord op f rsv a b c) = a := by
  apply BitVec.eq_of_getLsbD_eq
  intro i hi
  simp only [fieldA, BitVec.getLsbD_extractLsb', getLsbD_joinWord, hi, decide_true, Bool.true_and]
  (repeat' split) <;> first | omega | (congr 1; omega)

@[simp] theorem fieldB_joinWord : fieldB (joinWord op f rsv a b c) = b := by
  apply BitVec.eq_of_getLsbD_eq
  intro i hi
  simp only [fieldB, BitVec.getLsbD_extractLsb', getLsbD_joinWord, hi, decide_true, Bool.true_and]
  (repeat' split) <;> first | omega | (congr 1; omega)

@[simp] theorem fieldC_joinWord : fieldC (joinWord op f rsv a b c) = c := by
  apply BitVec.eq_of_getLsbD_eq
  intro i hi
  simp only [fieldC, BitVec.getLsbD_extractLsb', getLsbD_joinWord, hi, decide_true, Bool.true_and]
  (repeat' split) <;> first | omega | (congr 1; omega)

end

@[simp] theorem fieldOp_mkWord (op : BitVec 4) (f : BitVec 2) (a b c : Byte) : fieldOp (mkWord op f a b c) = op :=
  fieldOp_joinWord ..
@[simp] theorem fieldF_mkWord (op : BitVec 4) (f : BitVec 2) (a b c : Byte) : fieldF (mkWord op f a b c) = f :=
  fieldF_joinWord ..
@[simp] theorem fieldRsv_mkWord (op : BitVec 4) (f : BitVec 2) (a b c : Byte) : fieldRsv (mkWord op f a b c) = 0#2 :=
  fieldRsv_joinWord ..
@[simp] theorem fieldA_mkWord (op : BitVec 4) (f : BitVec 2) (a b c : Byte) : fieldA (mkWord op f a b c) = a :=
  fieldA_joinWord ..
@[simp] theorem fieldB_mkWord (op : BitVec 4) (f : BitVec 2) (a b c : Byte) : fieldB (mkWord op f a b c) = b :=
  fieldB_joinWord ..
@[simp] theorem fieldC_mkWord (op : BitVec 4) (f : BitVec 2) (a b c : Byte) : fieldC (mkWord op f a b c) = c :=
  fieldC_joinWord ..

/-- A word is its six fields. -/
theorem joinWord_fields (cw : Word) :
    joinWord (fieldOp cw) (fieldF cw) (fieldRsv cw) (fieldA cw) (fieldB cw) (fieldC cw) = cw := by
  apply BitVec.eq_of_getLsbD_eq
  intro i hi
  simp only [getLsbD_joinWord, fieldOp, fieldF, fieldRsv, fieldA, fieldB, fieldC, BitVec.getLsbD_extractLsb']
  (repeat' split) <;>
    first
    | (rw [decide_eq_true (by omega), Bool.true_and]; congr 1; omega)

/-- Every word is some six fields joined. -/
theorem exists_fields (cw : Word) : ∃ op f rsv a b c, cw = joinWord op f rsv a b c :=
  ⟨_, _, _, _, _, _, (joinWord_fields cw).symm⟩

theorem joinWord_inj {op op' : BitVec 4} {f f' rsv rsv' : BitVec 2} {a a' b b' c c' : Byte} :
    joinWord op f rsv a b c = joinWord op' f' rsv' a' b' c' ↔
      op = op' ∧ f = f' ∧ rsv = rsv' ∧ a = a' ∧ b = b' ∧ c = c' := by
  constructor
  · intro h
    have ho := congrArg fieldOp h
    have hf := congrArg fieldF h
    have hr := congrArg fieldRsv h
    have ha := congrArg fieldA h
    have hb := congrArg fieldB h
    have hc := congrArg fieldC h
    simp only [fieldOp_joinWord, fieldF_joinWord, fieldRsv_joinWord, fieldA_joinWord, fieldB_joinWord,
      fieldC_joinWord] at ho hf hr ha hb hc
    exact ⟨ho, hf, hr, ha, hb, hc⟩
  · rintro ⟨rfl, rfl, rfl, rfl, rfl, rfl⟩
    rfl

theorem joinWord_and (op op' : BitVec 4) (f f' rsv rsv' : BitVec 2) (a a' b b' c c' : Byte) :
    joinWord op f rsv a b c &&& joinWord op' f' rsv' a' b' c' =
      joinWord (op &&& op') (f &&& f') (rsv &&& rsv') (a &&& a') (b &&& b') (c &&& c') := by
  apply BitVec.eq_of_getLsbD_eq
  intro i _
  simp only [BitVec.getLsbD_and, getLsbD_joinWord]
  (repeat' split) <;> rfl

/-- A mask test (R78) is a mask test of each field. -/
theorem matches_iff (cw : Word) (mo po : BitVec 4) (mf pf mr pr : BitVec 2) (ma pa mb pb mc pc : Byte) :
    cw &&& joinWord mo mf mr ma mb mc = joinWord po pf pr pa pb pc ↔
      fieldOp cw &&& mo = po ∧ fieldF cw &&& mf = pf ∧ fieldRsv cw &&& mr = pr ∧
        fieldA cw &&& ma = pa ∧ fieldB cw &&& mb = pb ∧ fieldC cw &&& mc = pc := by
  rw [← joinWord_inj, ← joinWord_and, joinWord_fields]

/-- What a mask test says of each field, for a mask and a pattern given as words. -/
theorem fields_of_match {cw m p : Word} (h : cw &&& m = p) :
    fieldOp cw &&& fieldOp m = fieldOp p ∧ fieldF cw &&& fieldF m = fieldF p ∧
      fieldRsv cw &&& fieldRsv m = fieldRsv p ∧ fieldA cw &&& fieldA m = fieldA p ∧
      fieldB cw &&& fieldB m = fieldB p ∧ fieldC cw &&& fieldC m = fieldC p := by
  rw [← joinWord_fields cw, ← joinWord_fields m, ← joinWord_fields p, matches_iff] at h
  simpa using h

/-! ### Masks of one field, as they stand in R78's table -/

theorem and_ones4 (x : BitVec 4) : x &&& 15#4 = x := by revert x; decide
theorem and_ones2 (x : BitVec 2) : x &&& 3#2 = x := by revert x; decide
theorem and_ones8 (x : Byte) : x &&& 255#8 = x := by revert x; decide

/-- FLOAD's mask of `c` (R78): bit 7. -/
theorem and_bit7 (x : Byte) : x &&& 128#8 = 0#8 ↔ x[7] = false := by revert x; decide

/-- FEQ's mask of `a` (R78): bits 7..2. -/
theorem and_high6 (x : Byte) : x &&& 252#8 = 0#8 ↔ x.extractLsb' 2 6 = 0#6 := by revert x; decide

/-! ### The encodings of the operands -/

@[simp] theorem regOf_regBits (r : FReg) : regOf (regBits r) = r := by revert r; decide

@[simp] theorem regBits_regOf (f : BitVec 2) : regBits (regOf f) = f := by revert f; decide

@[simp] theorem regBits_toFin (f : BitVec 2) : regBits f.toFin = f := regBits_regOf f

@[simp] theorem floadC_dlc (dlc : BitVec 4) (e r x : Bool) : (floadC dlc e r x).extractLsb' 0 4 = dlc := by
  revert dlc e r x; decide
@[simp] theorem floadC_ext (dlc : BitVec 4) (e r x : Bool) : (floadC dlc e r x)[4] = e := by
  revert dlc e r x; decide
@[simp] theorem floadC_rtr (dlc : BitVec 4) (e r x : Bool) : (floadC dlc e r x)[5] = r := by
  revert dlc e r x; decide
@[simp] theorem floadC_err (dlc : BitVec 4) (e r x : Bool) : (floadC dlc e r x)[6] = x := by
  revert dlc e r x; decide
@[simp] theorem floadC_zero (dlc : BitVec 4) (e r x : Bool) : (floadC dlc e r x)[7] = false := by
  revert dlc e r x; decide

/-- A `c` field with bit 7 clear is FLOAD's field of its parts. -/
theorem floadC_eta (b : Byte) (h : b[7] = false) : floadC (b.extractLsb' 0 4) b[4] b[5] b[6] = b := by
  revert b; decide

@[simp] theorem feqA_high (r : FReg) : (0#6 ++ regBits r : Byte).extractLsb' 2 6 = 0#6 := by revert r; decide

@[simp] theorem feqA_low (r : FReg) : (0#6 ++ regBits r : Byte).extractLsb' 0 2 = regBits r := by revert r; decide

/-- An `a` field with bits 7..2 clear is FEQ's field of its register number. -/
theorem feqA_eta (a : Byte) (h : a.extractLsb' 2 6 = 0#6) : 0#6 ++ a.extractLsb' 0 2 = a := by
  revert a; decide

/-- `ifZero` answers its instruction exactly when the fields are zero. -/
theorem ifZero_ok {z : Bool} {i j : Instr} : ifZero z i = .ok j ↔ z = true ∧ i = j := by
  cases z <;> simp [ifZero]

/-- The sixteen operation codes. -/
theorem op_cases (op : BitVec 4) :
    op = 0x0#4 ∨ op = 0x1#4 ∨ op = 0x2#4 ∨ op = 0x3#4 ∨ op = 0x4#4 ∨ op = 0x5#4 ∨ op = 0x6#4 ∨ op = 0x7#4 ∨
    op = 0x8#4 ∨ op = 0x9#4 ∨ op = 0xA#4 ∨ op = 0xB#4 ∨ op = 0xC#4 ∨ op = 0xD#4 ∨ op = 0xE#4 ∨ op = 0xF#4 := by
  revert op; decide

end Sys2Proof
end

