-- ==== Sys2Proof/Laws/PerInstr.lean ====
section
/-! SUPPORT. Statements made per instruction: the word an instruction is encoded to matches its row of the opcode map (R78). -/

namespace Sys2Proof.Laws.EncodesItsRow

/-- The encoded command word meets the mask and pattern of every row with the instruction's mnemonic. -/
def Statement (i : Instr) : Prop :=
  ∀ r ∈ opcodeTable, r.mnemonic = i.mnemonic → (encode i).cw &&& r.mask = r.pattern

/-- The statement from one row: the table has no other row of that mnemonic. -/
theorem of_row {i : Instr} (m : String) (mask pattern : Word) (hm : i.mnemonic = m)
    (hu : ∀ r ∈ opcodeTable, r.mnemonic = m → r.mask = mask ∧ r.pattern = pattern)
    (h : (encode i).cw &&& mask = pattern) : Statement i := by
  intro r hr he
  obtain ⟨h1, h2⟩ := hu r hr (he.trans hm)
  rw [h1, h2, h]

/-- A word made by `mkWord` meets a mask test when each field does. -/
theorem mkWord_matches {op : BitVec 4} {f : BitVec 2} {a b c : Byte} (mo po : BitVec 4) (mf pf mr pr : BitVec 2)
    (ma pa mb pb mc pc : Byte)
    (h : op &&& mo = po ∧ f &&& mf = pf ∧ 0#2 &&& mr = pr ∧ a &&& ma = pa ∧ b &&& mb = pb ∧ c &&& mc = pc) :
    mkWord op f a b c &&& joinWord mo mf mr ma mb mc = joinWord po pf pr pa pb pc := by
  rw [matches_iff]
  simpa using h

theorem floadC_mask (dlc : BitVec 4) (e r x : Bool) : floadC dlc e r x &&& 0x80#8 = 0#8 := by
  revert dlc e r x; decide

theorem feqA_mask (r : FReg) : (0#6 ++ regBits r : Byte) &&& 0xFC#8 = 0#8 := by revert r; decide

theorem pack (t d c : Byte) : Statement (.pack t d c) :=
  of_row "PACK" 0xFF000000 0x10000000 rfl (by decide)
    (mkWord_matches 0xF 0x1 3 0 3 0 0 0 0 0 0 0 (by simp))

theorem unpack (x : Word) : Statement (.unpack x) :=
  of_row "UNPACK" 0xFFFFFFFF 0x20000000 rfl (by decide)
    (mkWord_matches 0xF 0x2 3 0 3 0 0xFF 0 0xFF 0 0xFF 0 (by simp))

theorem rkey (x : Word) : Statement (.rkey x) :=
  of_row "RKEY" 0xFFFFFFFF 0x30000000 rfl (by decide)
    (mkWord_matches 0xF 0x3 3 0 3 0 0xFF 0 0xFF 0 0xFF 0 (by simp))

theorem write (fd : FReg) (start size : Nat) (v : DWord) : Statement (.write fd start size v) :=
  of_row "WRITE" 0xF30000FF 0x40000000 rfl (by decide)
    (mkWord_matches 0xF 0x4 0 0 3 0 0 0 0 0 0xFF 0 (by simp))

theorem read (fs : FReg) (start size : Nat) : Statement (.read fs start size) :=
  of_row "READ" 0xF30000FF 0x50000000 rfl (by decide)
    (mkWord_matches 0xF 0x5 0 0 3 0 0 0 0 0 0xFF 0 (by simp))

theorem make (fd : FReg) (t d c : Byte) (len : Nat) (pl : DWord) : Statement (.make fd t d c len pl) :=
  of_row "MAKE" 0xF3000000 0x60000000 rfl (by decide)
    (mkWord_matches 0xF 0x6 0 0 3 0 0 0 0 0 0 0 (by simp))

theorem msend (fd : FReg) (t d c : Byte) (len : Nat) (pl : DWord) : Statement (.msend fd t d c len pl) :=
  of_row "MSEND" 0xF3000000 0x70000000 rfl (by decide)
    (mkWord_matches 0xF 0x7 0 0 3 0 0 0 0 0 0 0 (by simp))

theorem attach (t d : Byte) (x : Word) : Statement (.attach t d x) :=
  of_row "ATTACH" 0xFF0000FF 0x80000000 rfl (by decide)
    (mkWord_matches 0xF 0x8 3 0 3 0 0 0 0 0 0xFF 0 (by simp))

theorem detachk (t d : Byte) : Statement (.detachk t d) :=
  of_row "DETACHK" 0xFF0000FF 0x90000000 rfl (by decide)
    (mkWord_matches 0xF 0x9 3 0 3 0 0 0 0 0 0xFF 0 (by simp))

theorem detachd (t d : Byte) (x : Word) : Statement (.detachd t d x) :=
  of_row "DETACHD" 0xFF0000FF 0x90000001 rfl (by decide)
    (mkWord_matches 0xF 0x9 3 0 3 0 0 0 0 0 0xFF 1 (by simp))

theorem poll : Statement (.poll) :=
  of_row "POLL" 0xFFFFFFFF 0xA0000000 rfl (by decide)
    (mkWord_matches 0xF 0xA 3 0 3 0 0xFF 0 0xFF 0 0xFF 0 (by simp))

theorem send (fs : FReg) : Statement (.send fs) :=
  of_row "SEND" 0xF3FFFFFF 0xB0000000 rfl (by decide)
    (mkWord_matches 0xF 0xB 0 0 3 0 0xFF 0 0xFF 0 0xFF 0 (by simp))

theorem fload (fd : FReg) (id : Word) (dlc : BitVec 4) (e r x : Bool) (data : DWord) : Statement (.fload fd id dlc e r x data) :=
  of_row "FLOAD" 0xF3FFFF80 0xC0000000 rfl (by decide)
    (mkWord_matches 0xF 0xC 0 0 3 0 0xFF 0 0xFF 0 0x80 0 ⟨rfl, by simp, rfl, rfl, rfl, floadC_mask ..⟩)

theorem fstore (fs : FReg) : Statement (.fstore fs) :=
  of_row "FSTORE" 0xF3FFFFFF 0xD0000000 rfl (by decide)
    (mkWord_matches 0xF 0xD 0 0 3 0 0xFF 0 0xFF 0 0xFF 0 (by simp))

theorem feq (fa fb : FReg) : Statement (.feq fa fb) :=
  of_row "FEQ" 0xF3FCFFFF 0xE0000000 rfl (by decide)
    (mkWord_matches 0xF 0xE 0 0 3 0 0xFC 0 0xFF 0 0xFF 0 ⟨rfl, by simp, rfl, feqA_mask _, rfl, rfl⟩)

end Sys2Proof.Laws.EncodesItsRow
end

