-- ==== Sys2Proof/Tests/Slice0.lean ====
section
/-! SUPPORT. The model's own tests. Expected results are written out from spec/95_test_vectors.md (row numbers in the docstrings)
and from the examples of the rules. Then one witness for every statement with hypotheses: a concrete state and operands that
meet them. -/

namespace Sys2Proof.Tests

open Sys2Proof.Machine

/-! ## Helpers -/

/-- The next state, if there is one. -/
def got (o : Host.Outcome State Fault Refusal) : Option State :=
  match o with
  | .next t => some t
  | .fault _ => none
  | .refused _ => none

/-- The last event on the ports after an outcome. -/
def lastEvent (o : Host.Outcome State Fault Refusal) : Option PortEvent := (got o).bind fun t => t.trace.head?

/-- Whether a command answers as each row of a table of operands and last events says. -/
def answers {α : Type} (f : α → Host.Outcome State Fault Refusal) (rows : List (α × PortEvent)) : Bool :=
  rows.all fun r => lastEvent (f r.1) == some r.2

/-- A frame register's content after an outcome. -/
def regAfter (k : FReg) (o : Host.Outcome State Fault Refusal) : Option Frame := (got o).map fun t => t.getF k

/-- The registrations after an outcome: (key, reference) of the valid slots, in slot order. -/
def tableAfter (o : Host.Outcome State Fault Refusal) : Option (List (Ident × Word)) :=
  (got o).map fun t => (t.rt.filter fun sl => sl.valid).map fun sl => (sl.key, sl.href)

/-- A standard data frame `[id, bytes, dlc]`. -/
def frameOf (id : Word) (bytes : List Byte) (dlc : Nat) : Frame :=
  { id := id, data := bufferOf fun j => bytes.getD j 0, dlc := dlc, ext := false, rtr := false, err := false }

/-- A standard data frame as the signals of a port. -/
def portOf (id : Word) (bytes : List Byte) (dlc : BitVec 4) : PortFrame :=
  { id := id, data := ofLanes fun j => bytes.getD j 0, dlc := dlc, ext := false, rtr := false, err := false }

/-- The reset state with a register, a table, a receive queue. -/
def withReg (k : FReg) (fr : Frame) (s : State) : State := { s with f := s.f.set k fr }

/-- The reset state with the first slots holding the given registrations. -/
def withTable (ds : List (Ident × Word)) : State :=
  { State.reset with
    rt := (ds.map fun d => ⟨true, d.1, d.2⟩) ++ List.replicate (16 - ds.length) freeSlot }

/-- The Feedback frame of 95_test_vectors.md 3.2. -/
def feedback : Frame := frameOf 0x8B#32 [0x66, 0xE6, 0xF6, 0x42, 0x05] 5

/-- `[1, 1]` is registered with `0xA1`, two frames wait, a Transceiver that refuses the next send. -/
def ready : State :=
  { withTable [(0x088#11, 0xA1#32)] with
    rxq := [portOf 0x89#32 [0x01] 1, portOf 0x8A#32 [0x02] 1], sendAnswers := [false] }

/-- `ready` with the first frame being handled. -/
def handling : State :=
  { withTable [(0x088#11, 0xA1#32)] with
    f := State.reset.f.set 3 (frameOf 0x89#32 [0x01] 1)
    inPoll := true
    dispatch := some ⟨0xA1#32, portOf 0x89#32 [0x01] 1⟩
    rxq := [portOf 0x8A#32 [0x02] 1]
    sendAnswers := [false] }

/-- A POLL between two requests. -/
def between : State := { withTable [(0x088#11, 0xA1#32)] with inPoll := true, rxMore := true }

/-! ## Well-formedness: an ill-formed term for each check -/

theorem test_wf_write_start : (Instr.write 0 256 1 0).wf = false := by decide
theorem test_wf_write_size : (Instr.write 0 0 256 0).wf = false := by decide
theorem test_wf_read_start : (Instr.read 0 256 1).wf = false := by decide
theorem test_wf_read_size : (Instr.read 0 0 256).wf = false := by decide
theorem test_wf_make_len : (Instr.make 0 1 1 1 4294967296 0).wf = false := by decide
theorem test_wf_msend_len : (Instr.msend 0 1 1 1 4294967296 0).wf = false := by decide
theorem test_wf_admits : (Instr.write 3 255 255 0).wf = true ∧ (Instr.make 0 1 1 1 4294967295 0).wf = true := by decide

/-! ## Decoding: words written out from the figure of R76 and the rows of R77 -/

/-- I1, I3, I6, S1, I7, I14. -/
theorem test_decode_codec :
    decode ⟨0b00010000000001010000001100000100#32, 0, 0⟩ = .ok (.pack 5 3 4) ∧
    decode ⟨0x10FFFFFF#32, 0, 0⟩ = .ok (.pack 255 255 255) ∧
    decode ⟨0b00100000000000000000000000000000#32, 0x7FF#32, 0⟩ = .ok (.unpack 0x7FF#32) ∧
    decode ⟨0b00110000000000000000000000000000#32, 0x10089#32, 0⟩ = .ok (.rkey 0x10089#32) := by decide

/-- W2, W10, R1, R11. -/
theorem test_decode_marshaller :
    decode ⟨0b01000000000000110000001000000000#32, 0, 0xBEEF#64⟩ = .ok (.write 0 3 2 0xBEEF#64) ∧
    decode ⟨0x40FFFF00#32, 0, 0⟩ = .ok (.write 0 255 255 0) ∧
    decode ⟨0b01011100000000000000010000000000#32, 0, 0⟩ = .ok (.read 3 0 4) ∧
    decode ⟨0x58000100#32, 0, 0⟩ = .ok (.read 2 0 1) := by decide

/-- M1, M3, M5, M8, M9, M10, M11. -/
theorem test_decode_frames :
    decode ⟨0b01100000000000010000000100000001#32, 4, 0x42F6E666#64⟩ = .ok (.make 0 1 1 1 4 0x42F6E666#64) ∧
    decode ⟨0xC4000004#32, 0x89#32, 0xFF42F6E666#64⟩ = .ok (.fload 1 0x89#32 4 false false false 0xFF42F6E666#64) ∧
    decode ⟨0b11001000000000000000000000011000#32, 0x1ABCDE89#32, 0⟩ = .ok (.fload 2 0x1ABCDE89#32 8 true false false 0) ∧
    decode ⟨0b11000000000000000000000001100010#32, 0, 0⟩ = .ok (.fload 0 0 2 false true true 0) ∧
    decode ⟨0b11011000000000000000000000000000#32, 0, 0⟩ = .ok (.fstore 2) ∧
    decode ⟨0b11100000000000100000000000000000#32, 0, 0⟩ = .ok (.feq 0 2) ∧
    decode ⟨0xE8020000#32, 0, 0⟩ = .ok (.feq 2 2) := by decide

/-- X1, X2, X4, X5, X8, P3 (MSEND). -/
theorem test_decode_router :
    decode ⟨0b10000000000000010000000100000000#32, 0xA1#32, 0⟩ = .ok (.attach 1 1 0xA1#32) ∧
    decode ⟨0b10010000000000100000001000000000#32, 0, 0⟩ = .ok (.detachk 2 2) ∧
    decode ⟨0b10010000000000010000000100000001#32, 0xC3#32, 0⟩ = .ok (.detachd 1 1 0xC3#32) ∧
    decode ⟨0b10100000000000000000000000000000#32, 0, 0⟩ = .ok .poll ∧
    decode ⟨0b10110000000000000000000000000000#32, 0, 0⟩ = .ok (.send 0) ∧
    decode ⟨0b01110100000000010000000100000100#32, 1, 0xAA#64⟩ = .ok (.msend 1 1 1 4 1 0xAA#64) := by decide

/-- The illegal neighbours of 95_test_vectors.md 3.1, M12, M13, X9 to X12. -/
theorem test_decode_illegal : answers (fun w => runCommand ⟨w, 0, 0⟩ State.reset)
    ([0x14010101#32, 0x11010101#32, 0x20000001#32, 0xC0000085#32, 0xE0040000#32, 0x90010102#32, 0xA0000001#32,
      0x80010101#32, 0x00000000#32, 0xF0000000#32].map fun w => (w, failed 6#3)) = true := by decide

/-- The number form: bits 31..0 are `cw`, then `xdata`, then `wdata` (notes/assumptions/3.md). -/
theorem test_table_word : decodeTableWord 32 0x10010101 = some (.pack 1 1 1) ∧
    decodeTableWord 128 0x00000000000000AA0000000174010104 = some (.msend 1 1 1 4 1 0xAA#64) ∧
    decodeTableWord 32 0xF0000000 = none := by decide

/-! ## One command, one step -/

/-- I2, I3, I4, I5, I6. -/
theorem test_pack : answers (fun v : Byte × Byte × Byte => exec (.pack v.1 v.2.1 v.2.2) State.reset)
    [((15, 15, 7), okWith 0x7FF#32 0 0), ((5, 3, 4), okWith 0x29C#32 0 0), ((0x11, 0x21, 0x09), okWith 0x89#32 0 0),
     ((16, 16, 8), okWith 0#32 0 0), ((255, 255, 255), okWith 0x7FF#32 0 0)] = true := by decide

/-- I7, I8, I9, I10. -/
theorem test_unpack : answers (fun i => exec (.unpack i) State.reset)
    [(0x7FF#32, okWith 0x800F0F07#32 0 0), (0x29C#32, okWith 0x80050304#32 0 0), (0#32, okWith 0x80000000#32 0 0),
     (0xFFFFF889#32, okWith 0x80010101#32 0 0)] = true := by decide

/-- I11: a type with no enumeration member. -/
theorem test_unpack_unknown_type :
    lastEvent (exec (.unpack 0x480#32) (State.resetWith { Config.Params.default with typeKnown := 0x0006#16 })) =
      some (okWith 0x00090000#32 0 0) := by decide

/-- I12 to I15. -/
theorem test_rkey : answers (fun i => exec (.rkey i) State.reset)
    [(0x7FF#32, okWith 0x7F8#32 0 0), (7#32, okWith 0#32 0 0), (0x10089#32, okWith 0x10088#32 0 0),
     (0xFFFFFFFF#32, okWith 0xFFFFFFF8#32 0 0)] = true := by decide

/-- W2, W3, W4, W7, each on the register the row before it leaves. -/
theorem test_write :
    regAfter 0 (exec (.write 0 3 2 0xBEEF#64) (withReg 0 (frameOf 0 [0x66, 0xE6, 0xF6, 0x42] 4) State.reset)) =
      some (frameOf 0 [0x66, 0xE6, 0xF6, 0xEF, 0xBE] 5) ∧
    regAfter 0 (exec (.write 0 1 1 0) (withReg 0 (frameOf 0 [0x66, 0xE6, 0xF6, 0xEF, 0xBE] 5) State.reset)) =
      some (frameOf 0 [0x66, 0x00, 0xF6, 0xEF, 0xBE] 5) ∧
    regAfter 0 (exec (.write 0 7 1 0x7F#64) (withReg 0 (frameOf 0 [0x66, 0x00, 0xF6, 0xEF, 0xBE] 5) State.reset)) =
      some (frameOf 0 [0x66, 0x00, 0xF6, 0xEF, 0xBE, 0, 0, 0x7F] 8) ∧
    regAfter 0 (exec (.write 0 5 3 0xC0FFEE#64)
      (withReg 0 (frameOf 0 [0x66, 0x00, 0xF6, 0xEF, 0xBE, 0, 0, 0x7F] 8) State.reset)) =
      some (frameOf 0 [0x66, 0x00, 0xF6, 0xEF, 0xBE, 0xEE, 0xFF, 0xC0] 8) := by decide

/-- W5, W6, W8, W9, W10. -/
theorem test_write_refused :
    answers (fun v : Nat × Nat => exec (.write 0 v.1 v.2 0x11223344#64) State.reset)
      [((8, 1), failed 1#3), ((5, 4), failed 1#3), ((0, 0), failed 6#3), ((0, 9), failed 1#3),
       ((255, 255), failed 1#3)] = true ∧
    regAfter 0 (exec (.write 0 5 4 0x11223344#64) State.reset) = some zeroFrame := by decide

/-- R1, R2, R7, R8, R9. -/
theorem test_read : answers (fun v : Nat × Nat => exec (.read 3 v.1 v.2) (withReg 3 feedback State.reset))
    [((0, 4), okWith 0 0x42F6E666#64 0), ((4, 1), okWith 0 5#64 0), ((3, 1), okWith 0 0x42#64 0),
     ((1, 2), okWith 0 0xF6E6#64 0), ((0, 5), okWith 0 0x0542F6E666#64 0)] = true := by decide

/-- R3, R4, R5, R6, R10, R11 (the last on another register). -/
theorem test_read_refused :
    answers (fun v : FReg × Nat × Nat => exec (.read v.1 v.2.1 v.2.2) (withReg 3 feedback State.reset))
    [((3, 4, 2), failed 2#3), ((3, 5, 1), failed 2#3), ((3, 5, 4), failed 1#3), ((3, 0, 8), failed 2#3),
     ((3, 0, 0), failed 6#3), ((2, 0, 1), failed 2#3)] = true := by decide

/-- M1, M2, M3, M4. -/
theorem test_make :
    regAfter 0 (exec (.make 0 1 1 1 4 0x42F6E666#64) State.reset) = some (frameOf 0x89#32 [0x66, 0xE6, 0xF6, 0x42] 4) ∧
    regAfter 0 (exec (.make 0 1 1 3 0 0) (withReg 0 feedback State.reset)) = some (frameOf 0x8B#32 [] 0) ∧
    regAfter 0 (exec (.make 0 1 1 1 10 0x0706050403020100#64) State.reset) =
      some (frameOf 0x89#32 [0, 1, 2, 3, 4, 5, 6, 7] 8) ∧
    regAfter 0 (exec (.make 0 1 1 1 2 0xFFFFFFFFFFFFBBAA#64) State.reset) = some (frameOf 0x89#32 [0xAA, 0xBB] 2) := by
  decide

/-- M5, M7, M8. -/
theorem test_fload :
    regAfter 1 (exec (.fload 1 0x89#32 4 false false false 0xFF42F6E666#64) State.reset) =
      some (frameOf 0x89#32 [0x66, 0xE6, 0xF6, 0x42] 4) ∧
    lastEvent (exec (.fload 1 0x89#32 9 false false false 0) State.reset) = some (failed 6#3) ∧
    regAfter 1 (exec (.fload 1 0x89#32 9 false false false 0) (withReg 1 feedback State.reset)) = some feedback ∧
    regAfter 2 (exec (.fload 2 0x1ABCDE89#32 8 true false false 0x0807060504030201#64) State.reset) =
      some { frameOf 0x1ABCDE89#32 [1, 2, 3, 4, 5, 6, 7, 8] 8 with ext := true } := by decide

/-- M9, and the example of R146; the flag bits one by one. -/
theorem test_fstore :
    lastEvent (exec (.fstore 2) (withReg 2 { frameOf 0x1ABCDE89#32 [1, 2, 3, 4, 5, 6, 7, 8] 8 with ext := true } State.reset)) =
      some (okWith 0x1ABCDE89#32 0x0807060504030201#64 0x18#7) ∧
    lastEvent (exec (.fstore 0) (withReg 0 (frameOf 0x89#32 [0x66, 0xE6, 0xF6, 0x42] 4) State.reset)) =
      some (okWith 0x89#32 0x42F6E666#64 0x04#7) ∧
    lastEvent (exec (.fstore 0) (withReg 0 { frameOf 0 [] 0 with rtr := true } State.reset)) = some (okWith 0 0 0x20#7) ∧
    lastEvent (exec (.fstore 0) (withReg 0 { frameOf 0 [] 0 with err := true } State.reset)) = some (okWith 0 0 0x40#7) := by
  decide

/-- M6, M10, M11, and R147's corner case c. -/
theorem test_feq :
    lastEvent (exec (.feq 0 1) (withReg 0 feedback (withReg 1 feedback State.reset))) = some (okWith 1 0 0) ∧
    lastEvent (exec (.feq 0 2) (withReg 0 feedback State.reset)) = some (okWith 0 0 0) ∧
    lastEvent (exec (.feq 0 1) (withReg 0 (frameOf 0x89#32 [] 0) (withReg 1 (frameOf 0x10089#32 [] 0) State.reset))) =
      some (okWith 0 0 0) := by decide

/-- X1, X3 under both policies; P4 step 17 (table full) and step 22 (the duplicate test comes first). -/
theorem test_attach :
    tableAfter (exec (.attach 1 1 0xA1#32) State.reset) = some [(0x088#11, 0xA1#32)] ∧
    lastEvent (exec (.attach 17 1 0xC3#32) (withTable [(0x088#11, 0xA1#32)])) = some (failed 4#3) ∧
    tableAfter (exec (.attach 17 1 0xC3#32)
      { withTable [(0x088#11, 0xA1#32)] with cfg := { Config.Params.default with dupPolicy := .overwrite } }) =
      some [(0x088#11, 0xC3#32)] := by decide

/-- The full table of P4: sixteen registrations with the keys `t << 7`. -/
def full : State := withTable ((List.range 16).map fun t => (BitVec.ofNat 11 (t * 128), BitVec.ofNat 32 (0x100 + t)))

/-- P4 steps 17, 20 (slot 5 is free) and 22. -/
theorem test_attach_full :
    lastEvent (exec (.attach 0 1 0x200#32) full) = some (failed 3#3) ∧
    lastEvent (exec (.attach 16 16 0x300#32) full) = some (failed 4#3) ∧
    (got (exec (.attach 0 1 0x200#32) { full with rt := full.rt.set 5 freeSlot })).bind (fun t => t.rt[5]?) =
      some ⟨true, 0x008#11, 0x200#32⟩ := by decide

/-- X5, X7 and the example of R165. -/
theorem test_detachk :
    tableAfter (exec (.detachk 2 2) (withTable [(0x088#11, 0xA1#32)])) = some [(0x088#11, 0xA1#32)] ∧
    tableAfter (exec (.detachk 1 1) (withTable [(0x088#11, 0xA1#32)])) = some [] ∧
    lastEvent (exec (.detachk 1 1) State.reset) = some plainOk := by decide

/-- X4, X6. -/
theorem test_detachd :
    tableAfter (exec (.detachd 1 1 0xC3#32) (withTable [(0x088#11, 0xA1#32)])) = some [(0x088#11, 0xA1#32)] ∧
    tableAfter (exec (.detachd 1 1 0xA1#32) (withTable [(0x088#11, 0xA1#32)])) = some [] := by decide

/-- The example of R170, and X8. -/
theorem test_poll :
    (got (exec .poll { withTable [(0x088#11, 0xA1#32)] with rxq := [portOf 0x89#32 [0x66, 0xE6, 0xF6, 0x42] 4] })).map
      (fun t => (t.getF 3, t.dispatch, t.inPoll, t.rxq)) =
      some (frameOf 0x89#32 [0x66, 0xE6, 0xF6, 0x42] 4,
        some ⟨0xA1#32, portOf 0x89#32 [0x66, 0xE6, 0xF6, 0x42] 4⟩, true, []) ∧
    (got (exec .poll State.reset)).map (fun t => (t.trace, t.inPoll)) = some ([plainOk, .receive none], false) := by decide

/-- P2, frames 2 and 4: an unregistered key and high id bits are dropped; R172: so is a dlc of 9. P3: a nested POLL. -/
theorem test_poll_drops :
    (got (exec .poll { withTable [(0x088#11, 0xA1#32)] with
      rxq := [portOf 0x80#32 [1, 2, 3] 3, portOf 0x10089#32 [9, 9, 9, 9] 4, portOf 0x89#32 [1] 9] })).map
      (fun t => (t.getF 3, t.dispatch, t.inPoll, t.trace.head?)) = some (zeroFrame, none, false, some plainOk) ∧
    lastEvent (exec .poll handling) = some (failed 6#3) := by decide

/-- X2. -/
theorem test_send :
    (got (exec (.send 0) { State.reset with sendAnswers := [false] })).map (fun t => t.trace) =
      some [failed 5#3, .send zeroFrame.toPort false] ∧
    (got (exec (.send 0) { State.reset with sendAnswers := [true] })).map (fun t => t.trace) =
      some [plainOk, .send zeroFrame.toPort true] := by decide

/-- The example of R182. -/
theorem test_msend :
    (got (exec (.msend 1 1 1 1 4 0x42F6E666#64) { State.reset with sendAnswers := [false] })).map
      (fun t => (t.getF 1, t.trace)) =
      some (frameOf 0x89#32 [0x66, 0xE6, 0xF6, 0x42] 4,
        [failed 5#3, .send (portOf 0x89#32 [0x66, 0xE6, 0xF6, 0x42] 4) false]) := by decide

/-! ## Steps -/

/-- A word presented after reset runs as the first command (S1). -/
theorem test_step_runs_word :
    lastEvent (step (State.reset.withFetchWord 32 0x10010101)) = some (okWith 0x89#32 0 0) := by decide

/-- P3: the handler detaches itself, completes, and the second frame is dropped. -/
theorem test_step_completion :
    (got (step { handling with rt := State.reset.rt, input := [.completion] })).map
      (fun t => (t.dispatch, t.inPoll, t.trace.head?, t.getF 3)) =
      some (none, false, some plainOk, frameOf 0x89#32 [0x01] 1) := by decide

/-- `handling` in which reset is asserted, and what is presented then. -/
def held (inputs : List Input) : State :=
  { State.reset with rxq := [portOf 0x8A#32 [0x02] 1], sendAnswers := [false], inReset := true, input := inputs }

/-- R230: reset is asserted in the middle of a dispatch; a command that is presented then gets no response and changes nothing;
the release leaves the reset state. -/
theorem test_step_reset :
    got (step { handling with input := [.reset true] }) = some (held []) ∧
    got (step (held [.command ⟨0x60010101#32, 0, 0⟩])) = some (held []) ∧
    got (step (held [.reset false])) = some { held [] with inReset := false } := by decide

/-- R219, R231: the handler of `handling` completes after a reset has abandoned its dispatch: the idle block holds its state. -/
theorem test_step_completion_unasked :
    step { held [.completion] with inReset := false } = .next { held [] with inReset := false } := rfl

/-- A POLL between two requests goes on when the queue changes. -/
theorem test_step_queue :
    (got (step { between with input := [.receiveQueue [portOf 0x89#32 [0x01] 1] false] })).map (fun t => t.dispatch) =
      some (some ⟨0xA1#32, portOf 0x89#32 [0x01] 1⟩) := by decide

/-! ## Witnesses: states and operands that meet the hypotheses of the statements

One for every statement that has hypotheses, clause by clause, at the ends of the ranges. -/

/-- The states the witnesses use meet the invariant, and none of them is the reset state. -/
theorem witness_Inv : Inv ready ∧ Inv handling ∧ Inv between := ⟨by decide, by decide, by decide⟩

theorem witness_DecodeEncodeRoundTrip :
    (Instr.write 3 255 255 0xFFFFFFFFFFFFFFFF#64).wf = true ∧ (Instr.msend 3 255 255 255 4294967295 0).wf = true := by decide

theorem witness_LegalWordHasOneMeaning : decode ⟨0x5C000400#32, 7#32, 9#64⟩ = .ok (.read 3 0 4) := by decide

theorem witness_DecoderFollowsOpcodeMap :
    (⟨"FLOAD", 0xF3FFFF80#32, 0xC0000000#32⟩ ∈ opcodeTable ∧ 0xCC00007F#32 &&& 0xF3FFFF80#32 = 0xC0000000#32) ∧
    fieldOp 0x00000000#32 = 0x0#4 ∧ fieldOp 0xFFFFFFFF#32 = 0xF#4 := by decide

theorem witness_IllegalWordsAreExactlyThese :
    decode ⟨0xC0000080#32, 0, 0⟩ = .error .fieldNotZero ∧ decode ⟨0x90000002#32, 0, 0⟩ = .error .detachSelector ∧
    decode ⟨0x11000000#32, 0, 0⟩ = .error .reservedBits ∧ decode ⟨0xF0000000#32, 0, 0⟩ = .error .unusedOpcode := by decide

/-- At host level, and inside a handler. -/
theorem witness_StepRunsDecodedCommand :
    let c : Command := ⟨0x10010101#32, 0, 0⟩
    ({ ready with input := [.command c] }.input = [.command c] ∧ ready.draining = false ∧ ready.inReset = false ∧
      decode c = .ok (.pack 1 1 1)) ∧
    handling.draining = false ∧ handling.inReset = false ∧ decodeTableWord 32 0x10010101 = some (.pack 1 1 1) := by decide

/-- Nothing presented; a waiting command; a completion signal at an idle block and while a POLL is between two requests; an
arrival at an idle block. -/
theorem witness_IdleBlockHoldsItsState :
    (State.reset.input = [] ∧
      ∃ cmd rest, { between with input := [.command ⟨0xA0000000#32, 0, 0⟩] }.input = .command cmd :: rest ∧
        between.draining = true ∧ between.inReset = false) ∧
    (ready.inPoll = false ∧ ready.dispatch = none ∧
      (∀ cmd rest, [Input.receiveQueue [] true] ≠ .command cmd :: rest) ∧
      (∀ b rest, [Input.receiveQueue [] true] ≠ .reset b :: rest) ∧
      ∃ t, step { ready with input := [.receiveQueue [] true] } = .next t) ∧
    ({ ready with input := [.completion] }.input = .completion :: [] ∧ ready.dispatch = none) ∧
    ({ between with input := [.completion] }.input = .completion :: [] ∧ between.dispatch = none) :=
  ⟨⟨rfl, _, _, rfl, by decide, rfl⟩, ⟨rfl, rfl, by simp, by simp, _, rfl⟩, ⟨rfl, rfl⟩, ⟨rfl, rfl⟩⟩

/-- Asserted in a dispatch; asserted and then released; released when it is not asserted. -/
theorem witness_ResetInputLeavesResetState :
    { handling with input := [.reset true] }.input = .reset true :: [] ∧
    ((held [.reset false]).input = .reset false :: [] ∧ (held [.reset false]).inReset = true) ∧
    ({ handling with input := [.reset false] }.input = .reset false :: [] ∧ handling.inReset = false) := by decide

/-- A refused READ, SEND and MSEND. -/
theorem witness_FailedCommandChangesNoState :
    (∃ t r tr, exec (.read 0 0 1) State.reset = .next t ∧ t.trace = .response r :: tr ∧
      State.reset.trace.length ≤ tr.length ∧ r.ok = false) ∧
    (∃ t r tr, exec (.send 0) ready = .next t ∧ t.trace = .response r :: tr ∧ ready.trace.length ≤ tr.length ∧
      r.ok = false) ∧
    (∃ t r tr, exec (.msend 0 1 1 1 8 0) ready = .next t ∧ t.trace = .response r :: tr ∧
      ready.trace.length ≤ tr.length ∧ r.ok = false) :=
  ⟨⟨_, _, _, rfl, rfl, by decide, rfl⟩, ⟨_, _, _, rfl, rfl, by decide, rfl⟩, ⟨_, _, _, rfl, rfl, by decide, rfl⟩⟩

/-- Where two tests of one command meet: `start + size` 9 and 8, `dlc` and one more, dlc field 9 and 8, a full table, an open
POLL. -/
theorem witness_FirstFailingTestGivesTheCause :
    (∃ e, decode ⟨0#32, 0, 0⟩ = .error e) ∧
    (∃ t r tr, exec (.write 0 8 1 0) State.reset = .next t ∧ t.trace = .response r :: tr ∧ 0 ≤ tr.length ∧ r.cause = 1#3) ∧
    (∃ t r tr, exec (.write 0 7 1 0) State.reset = .next t ∧ t.trace = .response r :: tr ∧ 0 ≤ tr.length ∧ r.cause = 0#3) ∧
    (∃ t r tr, exec (.read 3 1 1) handling = .next t ∧ t.trace = .response r :: tr ∧ 0 ≤ tr.length ∧ r.cause = 2#3) ∧
    (∃ t r tr, exec (.read 3 0 1) handling = .next t ∧ t.trace = .response r :: tr ∧ 0 ≤ tr.length ∧ r.cause = 0#3) ∧
    (∃ t r tr, exec (.fload 0 0 9 false false false 0) handling = .next t ∧ t.trace = .response r :: tr ∧ 0 ≤ tr.length ∧
      r.cause = 6#3) ∧
    (∃ t r tr, exec (.fload 0 0 8 false false false 0) handling = .next t ∧ t.trace = .response r :: tr ∧ 0 ≤ tr.length ∧
      r.cause = 0#3) ∧
    (∃ t r tr, exec (.attach 0 1 0) full = .next t ∧ t.trace = .response r :: tr ∧ 0 ≤ tr.length ∧ r.cause = 3#3) ∧
    (∃ t r tr, exec .poll handling = .next t ∧ t.trace = .response r :: tr ∧ 0 ≤ tr.length ∧ r.cause = 6#3) ∧
    (∃ t r tr, exec (.send 0) ready = .next t ∧ t.trace = .response r :: tr ∧ 0 ≤ tr.length ∧ r.cause = 5#3) :=
  ⟨⟨_, rfl⟩, ⟨_, _, _, rfl, rfl, Nat.zero_le _, rfl⟩, ⟨_, _, _, rfl, rfl, Nat.zero_le _, rfl⟩,
    ⟨_, _, _, rfl, rfl, Nat.zero_le _, rfl⟩, ⟨_, _, _, rfl, rfl, Nat.zero_le _, rfl⟩,
    ⟨_, _, _, rfl, rfl, Nat.zero_le _, rfl⟩, ⟨_, _, _, rfl, rfl, Nat.zero_le _, rfl⟩,
    ⟨_, _, _, rfl, rfl, Nat.zero_le _, rfl⟩, ⟨_, _, _, rfl, rfl, Nat.zero_le _, rfl⟩,
    ⟨_, _, _, rfl, rfl, Nat.zero_le _, rfl⟩⟩

/-- A POLL that dispatches, a completion that ends one, a queue that wakes a POLL, a reset: each from a state with the
invariant. -/
theorem witness_StepsKeepTheInvariant :
    (Inv { ready with input := [.command ⟨0xA0000000#32, 0, 0⟩] } ∧
      ∃ t, step { ready with input := [.command ⟨0xA0000000#32, 0, 0⟩] } = .next t) ∧
    (Inv { handling with input := [.completion] } ∧ ∃ t, step { handling with input := [.completion] } = .next t) ∧
    (Inv { between with input := [.receiveQueue [] false] } ∧
      ∃ t, step { between with input := [.receiveQueue [] false] } = .next t) ∧
    (Inv { handling with input := [.reset true] } ∧ ∃ t, step { handling with input := [.reset true] } = .next t) :=
  ⟨⟨by decide, _, rfl⟩, ⟨by decide, _, rfl⟩, ⟨by decide, _, rfl⟩, ⟨by decide, _, rfl⟩⟩

/-- The smallest parameters. -/
theorem witness_ResetStateMeetsTheInvariant :
    ({ capacity := 1, dupPolicy := .overwrite, hrefBits := 1, typeKnown := 0x0006#16 } : Config.Params).wf = true := by decide

/-- A state with a record. -/
def recorded : State :=
  { handling with
    input := [.completion]
    trace := [.dispatch 0xA1#32 (portOf 0x89#32 [0x01] 1), .receive (some (portOf 0x89#32 [0x01] 1)), plainOk] }

theorem witness_PortTrafficIsWellFormed :
    Inv recorded ∧ (∀ e ∈ recorded.trace, e.wf) ∧ ∃ t, step recorded = .next t := by
  refine ⟨by decide, ?_, _, rfl⟩
  intro e he
  simp only [recorded, List.mem_cons, List.not_mem_nil, or_false] at he
  rcases he with rfl | rfl | rfl
  · show (portOf 0x89#32 [0x01] 1).wf
    decide
  · trivial
  · show Response.wf _
    decide

/-- A command that is accepted, an input that is none, and a command that is not accepted. -/
theorem witness_EveryCommandGetsOneResponse :
    (Inv { ready with input := [.command ⟨0xA0000000#32, 0, 0⟩] } ∧ ready.draining = false ∧
      ready.inReset = false ∧ (∃ t, step { ready with input := [.command ⟨0xA0000000#32, 0, 0⟩] } = .next t) ∧
      ∀ b rest, [Input.command ⟨0xA0000000#32, 0, 0⟩] ≠ .reset b :: rest) ∧
    (Inv recorded ∧ (∃ t, step recorded = .next t) ∧ (∀ b rest, recorded.input ≠ .reset b :: rest) ∧
      ¬ ∃ cmd rest, recorded.input = .command cmd :: rest ∧ recorded.draining = false ∧ recorded.inReset = false) ∧
    (Inv (held [.command ⟨0x60010101#32, 0, 0⟩]) ∧ (∃ t, step (held [.command ⟨0x60010101#32, 0, 0⟩]) = .next t) ∧
      (held []).inReset = true) :=
  ⟨⟨by decide, by decide, by decide, ⟨_, rfl⟩, by simp⟩, ⟨by decide, ⟨_, rfl⟩, by simp [recorded], by simp [recorded]⟩,
    by decide, ⟨_, rfl⟩, rfl⟩

theorem witness_OutcomesAreNotRemembered : ∃ t, step recorded = .next t := ⟨_, rfl⟩

theorem witness_PackIsABijectionOnValidTriples : (15#8).toNat ≤ 15 ∧ (7#8).toNat ≤ 7 ∧ pack 15 15 7 = pack 15 15 7 := by decide

theorem witness_RkeyClearsTheCommandBits : (0x7FF#32).toNat ≤ 0x7FF ∧ 0x7FF < (0x800#32).toNat := by decide

theorem witness_RoutingKeyIgnoresTheCommand : (7#32).toNat ≤ 7 := by decide

theorem witness_DeviceKeysAreTheKeysOfTheirIdentifiers : 0x7F8#11 &&& 0x007#11 = 0#11 := by decide

/-- The words of the encoding clauses: every free bit set. -/
theorem witness_encodings :
    0x10FFFFFF#32 &&& 0xFF000000#32 = 0x10000000#32 ∧ 0x4CFFFF00#32 &&& 0xF30000FF#32 = 0x40000000#32 ∧
    0x5CFFFF00#32 &&& 0xF30000FF#32 = 0x50000000#32 ∧ 0x6CFFFFFF#32 &&& 0xF3000000#32 = 0x60000000#32 ∧
    0x7CFFFFFF#32 &&& 0xF3000000#32 = 0x70000000#32 ∧ 0x80FFFF00#32 &&& 0xFF0000FF#32 = 0x80000000#32 ∧
    0x90FFFF00#32 &&& 0xFF0000FF#32 = 0x90000000#32 ∧ 0x90FFFF01#32 &&& 0xFF0000FF#32 = 0x90000001#32 ∧
    0xBC000000#32 &&& 0xF3FFFFFF#32 = 0xB0000000#32 ∧ 0xCC00007F#32 &&& 0xF3FFFF80#32 = 0xC0000000#32 ∧
    0xDC000000#32 &&& 0xF3FFFFFF#32 = 0xD0000000#32 ∧ 0xEC030000#32 &&& 0xF3FCFFFF#32 = 0xE0000000#32 := by decide

/-- 8 + 1 and 1 + 8 are refused, 7 + 1 and 0 + 8 are admitted. -/
theorem witness_WriteStoresTheValue : ((1 : Nat) ≠ 0 ∧ 8 + 1 > 8) ∧ ((8 : Nat) ≠ 0 ∧ 1 + 8 > 8) ∧ ((1 : Nat) ≠ 0 ∧ 7 + 1 ≤ 8) ∧
    ((8 : Nat) ≠ 0 ∧ 0 + 8 ≤ 8) := by decide

/-- One byte beyond `dlc`, and the last declared byte. -/
theorem witness_ReadReturnsTheDeclaredBytes :
    let s := withReg 3 feedback State.reset
    ((1 : Nat) ≠ 0 ∧ 8 + 1 > 8) ∧ ((1 : Nat) ≠ 0 ∧ 5 + 1 ≤ 8 ∧ 5 + 1 > (s.getF 3).dlc) ∧
      ((1 : Nat) ≠ 0 ∧ 4 + 1 ≤ 8 ∧ 4 + 1 ≤ (s.getF 3).dlc) := by decide

theorem witness_MixedWidthReadSeesBytes :
    ((4 : Nat) ≠ 0 ∧ 4 + 4 ≤ 8 ∧ (1 : Nat) ≠ 0 ∧ 3 + 1 ≤ 4) ∧ ∃ t, exec (.write 0 4 4 0x42F6E666#64) State.reset = .next t :=
  ⟨by decide, _, rfl⟩

/-- The last byte, then a WRITE of the seven before it and a POLL. -/
theorem witness_WrittenValueReadsBack : ∃ t u, exec (.write 0 7 1 0x7F#64) State.reset = .next t ∧
    noneWrites 0 7 1 [.write 0 0 7 0, .poll] t ∧ execAll [.write 0 0 7 0, .poll] t = .next u :=
  ⟨_, _, rfl, fun _ _ => ⟨.inl (by decide), fun _ _ => ⟨.inl (by decide), trivial⟩⟩, rfl⟩

/-- A sequence; a FLOAD, a dispatch and a reset that lower a `dlc`. -/
theorem witness_DlcOnlyGrowsUnderWrites :
    (noneReplaces 0 [.write 0 7 1 0, .write 0 8 1 0, .poll] State.reset ∧
      ∃ t, execAll [.write 0 7 1 0, .write 0 8 1 0, .poll] State.reset = .next t) ∧
    ((∃ t, exec (.write 0 0 8 0) State.reset = .next t) ∧ (State.reset.getF 0).wf) ∧
    (∃ t, step { withReg 3 feedback State.reset with input := [.command ⟨0xCC000000#32, 0, 0⟩] } = .next t ∧
      (t.getF 3).dlc < feedback.dlc) ∧
    (∃ t, step { withReg 3 feedback handling with input := [.completion] } = .next t ∧ (t.getF 3).dlc < feedback.dlc) ∧
    (∃ t, step { withReg 3 feedback State.reset with input := [.reset true] } = .next t ∧ (t.getF 3).dlc < feedback.dlc) :=
  ⟨⟨fun _ _ => ⟨.inl rfl, fun _ _ => ⟨.inl rfl, fun _ _ => ⟨.inl rfl, trivial⟩⟩⟩, _, rfl⟩, ⟨⟨_, rfl⟩, by decide⟩,
    ⟨_, rfl, by decide⟩, ⟨_, rfl, by decide⟩, ⟨_, rfl, by decide⟩⟩

theorem witness_NormBringsPortValuesToFrames :
    (portOf 0x89#32 [1] 9).dlc.toNat > 8 ∧ (portOf 0x89#32 [1] 8).dlc.toNat ≤ 8 ∧ feedback.wf := by decide

/-- A Frame with all flags and 5 bytes as the operands of FLOAD; `dlc` signals 9 and 8; a registered Frame that waits. -/
theorem witness_FramesCrossPortsAsTheirSignals :
    let fr : Frame := { feedback with ext := true, rtr := true, err := true }
    fr.wf ∧ 9 ≤ (9#4).toNat ∧ ¬ 9 ≤ (8#4).toNat ∧
    (0xCC000075#32 &&& 0xF3FFFF80#32 = 0xC0000000#32 ∧ fr.toPort.id = 0x8B#32 ∧ fr.toPort.data = 0x0542F6E666#64 ∧
      (fieldC 0xCC000075#32).extractLsb' 0 4 = fr.toPort.dlc ∧ (fieldC 0xCC000075#32).getLsbD 4 = fr.toPort.ext ∧
      (fieldC 0xCC000075#32).getLsbD 5 = fr.toPort.rtr ∧ (fieldC 0xCC000075#32).getLsbD 6 = fr.toPort.err) ∧
    (ready.inPoll = false ∧ (frameOf 0x89#32 [0x01] 1).wf ∧ route ready.rt 0x89#32 = some 0xA1#32 ∧
      ready.rxq = (frameOf 0x89#32 [0x01] 1).toPort :: [portOf 0x8A#32 [0x02] 1]) := by decide

theorem witness_FloadLoadsTheFrame : (9#4).toNat > 8 ∧ (8#4).toNat ≤ 8 := by decide

theorem witness_FstoreReturnsTheWholeFrame : (withReg 3 feedback State.reset |>.getF 3).wf ∧ (5 : Nat) < 8 ∧ feedback.dlc ≤ 5 := by
  decide

/-- The five cases of ATTACH: registered (both policies), full, a free slot (the first, and one behind a valid slot). -/
theorem witness_AttachRegistersTheHandler :
    ((∃ sl ∈ ready.rt, sl.valid = true ∧ sl.key = 0x088#11) ∧ ready.cfg.dupPolicy = .reject ∧ uniqueKeys ready.rt) ∧
    ({ ready with cfg := { Config.Params.default with dupPolicy := .overwrite } }.cfg.dupPolicy = .overwrite) ∧
    (0x088#11 : Ident) = BitVec.ofNat 11 ((17#8).toNat % 16 * 128 + (1#8).toNat % 16 * 8) ∧
    (∀ sl ∈ full.rt, sl.valid = true ∧ sl.key ≠ 0x008#11) ∧
    ((∀ sl ∈ ready.rt, sl.valid = true → sl.key ≠ 0x008#11) ∧ ready.rt[1]? = some freeSlot ∧ freeSlot.valid = false ∧
      ready.rt[0]? = some ⟨true, 0x088#11, 0xA1#32⟩) := by decide

/-- P4: sixteen devices `(t, 0)` in an empty table of sixteen slots, and the further device `(0, 1)`. -/
theorem witness_CapacityIsTheNumberOfRegistrations :
    let devs : List (Byte × Byte × Word) := (List.range 16).map fun t => (BitVec.ofNat 8 t, 0, BitVec.ofNat 32 (0x100 + t))
    State.reset.rt.length = State.reset.cfg.capacity ∧ (∀ sl ∈ State.reset.rt, sl.valid = false) ∧
    devs.length = State.reset.cfg.capacity ∧ (devs.map fun v => devKey v.1 v.2.1).Nodup ∧
    devKey 0 1 ∉ devs.map (fun v => devKey v.1 v.2.1) ∧ (5#8, 0#8, 0x105#32) ∈ devs := by decide

theorem witness_DetachkRemovesTheKey : uniqueKeys full.rt ∧
    (0x780#11 : Ident) = BitVec.ofNat 11 ((15#8).toNat % 16 * 128 + (0#8).toNat % 16 * 8) := by decide

theorem witness_DetachdRemovesTheDevice : uniqueKeys full.rt ∧
    (0x10F#32 : Word) = BitVec.ofNat 32 ((0x10F#32).toNat % 2 ^ full.cfg.hrefBits) := by decide

/-- A command that changes a slot, and an input that is neither a command nor reset. -/
theorem witness_SlotsNeverMove :
    (∃ t, exec (.detachk 15 0) full = .next t ∧ t.rt ≠ full.rt) ∧
    (∃ t, step { handling with input := [.completion] } = .next t) ∧
    (∀ cmd rest, [Input.completion] ≠ .command cmd :: rest) ∧ (∀ b rest, [Input.completion] ≠ .reset b :: rest) :=
  ⟨⟨_, rfl, by decide⟩, ⟨_, rfl⟩, by simp, by simp⟩

theorem witness_DetachedKeyIsNotDispatched :
    (uniqueKeys ready.rt ∧ ∃ t, exec (.detachk 1 1) ready = .next t) ∧
    ((∃ sl ∈ ready.rt, sl.valid = true ∧ sl.key = devKey 1 1 ∧ sl.href = hrefOf ready.cfg 0xA1#32) ∧
      ∃ t, exec (.detachd 1 1 0xA1#32) ready = .next t) ∧
    (unregistered 0x088#11 State.reset.rt ∧
      ∃ t, step { handling with rt := State.reset.rt, input := [.completion] } = .next t) := by
  refine ⟨⟨by decide, _, rfl⟩, ⟨by decide, _, rfl⟩, ?_, _, rfl⟩
  unfold unregistered
  decide

/-- A POLL at host level, a nested one, and the completion of a dispatch. -/
theorem witness_PollDrainsAndDispatches :
    (ready.inPoll = false ∧ ready.rxMore = false) ∧ handling.inPoll = true ∧
    ({ handling with input := [.completion] }.input = .completion :: [] ∧
      handling.dispatch = some ⟨0xA1#32, portOf 0x89#32 [0x01] 1⟩ ∧ handling.rxMore = false) := by decide

theorem witness_PollStaysOpenUntilAnswered :
    { State.reset with rxMore := true }.inPoll = false ∧ between.draining = true ∧ ready.draining = false ∧
    { between with input := [.receiveQueue [] true] }.input = .receiveQueue [] true :: [] := by decide

/-- A `dlc` of 9, an unregistered key, and a registered key with a high id bit. -/
theorem witness_PollDropsForeignTrafficAndEnds :
    let s := { ready with rxq := [portOf 0x89#32 [1] 9, portOf 0x80#32 [1, 2, 3] 3, portOf 0x10089#32 [9] 4] }
    s.inPoll = false ∧ s.rxMore = false ∧
    ∀ p ∈ s.rxq, p.dlc.toNat > 8 ∨ ∀ sl ∈ s.rt, sl.valid = true → sl.key.setWidth 32 ≠ p.id &&& 0xFFFFFFF8#32 := by decide

theorem witness_LookupFindsTheOneHandler : Inv ready ∧
    (∃ sl ∈ ready.rt, sl.valid = true ∧ sl.key.setWidth 32 = 0x8F#32 &&& 0xFFFFFFF8#32 ∧ sl.href = 0xA1#32) ∧
    2048 ≤ (0x888#32).toNat := by decide

/-- A step that dispatches, and a handler's command while the dispatch is open. -/
theorem witness_DispatchesDoNotNest :
    (Inv { ready with input := [.command ⟨0xA0000000#32, 0, 0⟩] } ∧
      ∃ t, step { ready with input := [.command ⟨0xA0000000#32, 0, 0⟩] } = .next t) ∧
    (Inv { handling with input := [.command ⟨0xA0000000#32, 0, 0⟩] } ∧ handling.dispatch.isSome = true ∧
      (∃ t, step { handling with input := [.command ⟨0xA0000000#32, 0, 0⟩] } = .next t) ∧
      ∀ rest, [Input.command ⟨0xA0000000#32, 0, 0⟩] ≠ .completion :: rest) :=
  ⟨⟨by decide, _, rfl⟩, by decide, by decide, ⟨_, rfl⟩, by simp⟩

theorem witness_DispatchFollowsItsReceive : dispatchFollowsReceive recorded.trace ∧ ∃ t, step recorded = .next t :=
  ⟨⟨⟨portOf 0x89#32 [0x01] 1, [plainOk], frameOf 0x89#32 [0x01] 1, rfl, by decide, by decide⟩, trivial⟩, _, rfl⟩

/-- `in_poll` set by a POLL, cleared by its end, and by reset; a POLL that responds at once, a command while a POLL is open, and a
completion that leads to the next dispatch. -/
theorem witness_InPollIsOneExactlyDuringAPoll :
    (∃ t, step { ready with input := [.command ⟨0xA0000000#32, 0, 0⟩] } = .next t ∧ ready.inPoll = false ∧ t.inPoll = true) ∧
    (∃ t, step { between with input := [.receiveQueue [] false] } = .next t ∧ between.inPoll = true ∧ t.inPoll = false) ∧
    (∃ t, step { handling with input := [.reset true] } = .next t ∧ handling.inPoll = true ∧ t.inPoll = false) ∧
    (∃ t, step { State.reset with input := [.command ⟨0xA0000000#32, 0, 0⟩] } = .next t ∧
      decode ⟨0xA0000000#32, 0, 0⟩ = .ok .poll ∧ State.reset.inPoll = false ∧ State.reset.inReset = false ∧
      t.inPoll = false) ∧
    (∃ t, step { handling with input := [.command ⟨0xA0000000#32, 0, 0⟩] } = .next t ∧ handling.inPoll = true) ∧
    (∃ t, step { handling with input := [.completion] } = .next t ∧ (∀ cmd rest, [Input.completion] ≠ .command cmd :: rest) ∧
      (∀ b rest, [Input.completion] ≠ .reset b :: rest) ∧ t.inPoll = true) :=
  ⟨⟨_, rfl, by decide, by decide⟩, ⟨_, rfl, by decide, by decide⟩, ⟨_, rfl, by decide, by decide⟩,
    ⟨_, rfl, by decide, by decide, by decide, by decide⟩, ⟨_, rfl, by decide⟩, ⟨_, rfl, by simp, by simp, by decide⟩⟩

/-- The handler of `handling` has detached itself and attaches again. -/
theorem witness_NestedAttachDecidesTheNextFrame :
    let s := { handling with rt := State.reset.rt }
    Inv s ∧ s.dispatch = some ⟨0xA1#32, portOf 0x89#32 [0x01] 1⟩ ∧ s.rxq = [portOf 0x8A#32 [0x02] 1] ∧
    (∃ t tr, exec (.attach 1 1 0xC3#32) s = .next t ∧ t.trace = plainOk :: tr) ∧
    normFrame (portOf 0x8A#32 [0x02] 1) = some (frameOf 0x8A#32 [0x02] 1) ∧
    rkey (frameOf 0x8A#32 [0x02] 1).id = (devKey 1 1).setWidth 32 :=
  ⟨by decide, by decide, by decide, ⟨_, _, rfl, rfl⟩, by decide, by decide⟩

theorem witness_SendAnswers : ready.sendAnswers = [false] := by decide

/-- Two commands that send, among others. -/
theorem witness_SendsAreMadeInCommandOrder :
    (∃ t, execAll [.send 0, .poll, .msend 1 1 1 1 8 0] { ready with sendAnswers := [true, false] } = .next t) ∧
    sends (.msend 1 1 1 1 8 0) ready ≠ [] :=
  ⟨⟨_, rfl⟩, by decide⟩

theorem witness_CommandsChangeOnlyWhatTheyName : ∃ t, exec (.write 1 7 1 0xFF#64) ready = .next t ∧
    writesReg (.write 1 7 1 0xFF#64) 0 = false ∧ writesTable (.write 1 7 1 0xFF#64) = false ∧
    sends (.write 1 7 1 0xFF#64) ready = [] :=
  ⟨_, rfl, by decide, by decide, by decide⟩

theorem witness_CommandsStoreOnlyTheBytesTheyName : ∃ t, exec (.write 1 7 1 0xFF#64) ready = .next t ∧
    storesTo (.write 1 7 1 0xFF#64) 1 6 = false ∧ storesTo (.write 1 7 1 0xFF#64) 1 7 = true ∧
    replacesReg (.write 1 7 1 0xFF#64) 1 = false :=
  ⟨_, rfl, by decide, by decide, by decide⟩

/-- A command presented while reset is asserted; a step during reset; a step that asserts it and one that releases it. -/
theorem witness_NoCommandIsAcceptedDuringReset :
    ((held [.command ⟨0x60010101#32, 0, 0⟩]).inReset = true ∧ Inv (held [.command ⟨0x60010101#32, 0, 0⟩]) ∧
      ∃ t, step (held [.command ⟨0x60010101#32, 0, 0⟩]) = .next t) ∧
    (∃ t, step { handling with input := [.reset true] } = .next t ∧ t.inReset ≠ handling.inReset) ∧
    (∃ t, step (held [.reset false]) = .next t ∧ t.inReset ≠ (held []).inReset) :=
  ⟨⟨rfl, by decide, _, rfl⟩, ⟨_, rfl, by decide⟩, ⟨_, rfl, by decide⟩⟩

end Sys2Proof.Tests
end

section
/-! Family `10_state.md`: what a command, a drain and a step leave as it was, and the statements about the block's state. -/

namespace Sys2Proof.Machine

/-! ### What a drain leaves as it was -/

theorem DrainOutcome.cfg_eq {s t : State} (h : DrainOutcome s t) : t.cfg = s.cfg := by cases h <;> rfl

theorem DrainOutcome.rt_eq {s t : State} (h : DrainOutcome s t) : t.rt = s.rt := by cases h <;> rfl

/-! ### What a command leaves as it was (R20, R23, R27) -/

/-- No command changes a parameter, what is presented next, the reset input or the Transceiver's promise of more. -/
theorem Effect.outside {i : Instr} {s t : State} (h : Effect i s t) :
    t.cfg = s.cfg ∧ t.input = s.input ∧ t.inReset = s.inReset ∧ t.rxMore = s.rxMore := by
  cases h with
  | answers | register | attaches | detaches | sends | builds => exact ⟨rfl, rfl, rfl, rfl⟩
  | polls _ hi hn ho =>
    obtain ⟨hcfg, -, hin, hmore, -, -, hr⟩ := ho.frame
    exact ⟨hcfg, hin, hr, hmore⟩

/-- Only POLL opens or closes a POLL or a dispatch, or takes from the receive queue (R27, R170). -/
theorem Effect.pollState {i : Instr} {s t : State} (h : Effect i s t) (hi : i ≠ .poll) :
    t.inPoll = s.inPoll ∧ t.dispatch = s.dispatch ∧ t.rxq = s.rxq := by
  cases h with
  | answers | register | attaches | detaches | sends | builds => exact ⟨rfl, rfl, rfl⟩
  | polls _ hp => exact absurd hp hi

/-- POLL refuses, or opens and drains (R170). -/
theorem Effect.poll_cases {s t : State} (h : Effect .poll s t) :
    t = s.fail .illegal ∨ (s.inPoll = false ∧ DrainOutcome { s with inPoll := true } t) := by
  cases h with
  | answers r _ _ hp => exact .inl (hp rfl ▸ rfl)
  | polls _ _ hn ho => exact .inr ⟨hn, ho⟩
  | register _ _ _ _ _ _ _ hp => exact absurd rfl hp
  | detaches _ hi => cases hi
  | attaches _ _ _ _ hi | sends _ hi | builds _ _ _ _ _ _ hi => cases hi

/-- A command that does not write the route table leaves it (R20). -/
theorem Effect.rt_eq {i : Instr} {s t : State} (h : Effect i s t) (hi : writesTable i = false) : t.rt = s.rt := by
  cases h with
  | answers | register | sends | builds => rfl
  | attaches _ _ _ _ he => subst he; cases hi
  | detaches _ hw => rw [hi] at hw; cases hw
  | polls _ _ _ ho => exact ho.rt_eq

/-- A command writes no frame register but those R23's table names. -/
theorem Effect.getF_eq {i : Instr} {s t : State} (h : Effect i s t) {k : FReg} (hk : writesReg i k = false) :
    t.getF k = s.getF k := by
  cases h with
  | answers | attaches | detaches | sends => rfl
  | register k' fr _ hk' =>
    refine s.getF_setF_other fr fun e => ?_
    rw [e, hk'] at hk
    cases hk
  | builds fd ty d c len pl hi =>
    subst hi
    refine s.getF_setF_other _ fun e => ?_
    simp [writesReg, e] at hk
  | polls _ hi _ ho =>
    subst hi
    exact ho.getF (by simpa [writesReg] using hk)

/-- A command that makes no send request uses up no answer (R215). -/
theorem Effect.answers_kept {i : Instr} {s t : State} (h : Effect i s t) (hs : Machine.sends i s = []) :
    t.sendAnswers = s.sendAnswers ∧ t.sendCount = s.sendCount := by
  cases h with
  | answers | register | attaches | detaches => exact ⟨rfl, rfl⟩
  | sends _ hi | builds _ _ _ _ _ _ hi => subst hi; cases hs
  | polls _ _ _ ho =>
    obtain ⟨-, -, -, -, ha, hc, -⟩ := ho.frame
    exact ⟨ha, hc⟩

/-- Settles O55: each clause is what the effects of a command have in common. -/
theorem commandsChangeOnlyWhatTheyName : Obligations.CommandsChangeOnlyWhatTheyName := by
  intro i s t h
  have he := effect_of_exec h
  obtain ⟨hcfg, hin, hr, hmore⟩ := he.outside
  exact ⟨fun _ => he.getF_eq, he.rt_eq, he.pollState, hmore, hcfg, hin, hr, he.answers_kept⟩

/-! ### Every step keeps the invariant (R21, R24, R208, R230) -/

/-- What `Inv` says of the parameters, the route table and the frame registers: the part that does not depend on where a POLL,
a dispatch or a reset stands. -/
structure StoredWf (s : State) : Prop where
  cfg   : s.cfg.wf = true
  table : tableWf s.cfg s.rt
  regs  : ∀ k : FReg, (s.getF k).wf

theorem StoredWf.of_inv {s : State} (h : Inv s) : StoredWf s := by
  obtain ⟨hcfg, htable, hregs, -⟩ := h
  exact ⟨hcfg, htable, hregs⟩

/-- A dispatch is open only inside a POLL, and a POLL only while reset is not asserted. -/
theorem Inv.inPoll_of_dispatch {s : State} (h : Inv s) {d : DispatchRequest} (hd : s.dispatch = some d) :
    s.inPoll = true := by
  obtain ⟨-, -, -, hdisp, -⟩ := h
  exact (hdisp d hd).1

theorem Inv.inReset_of_inPoll {s : State} (h : Inv s) (hp : s.inPoll = true) : s.inReset = false := by
  obtain ⟨-, -, -, -, -, hreset⟩ := h
  refine Bool.eq_false_iff.2 fun hr => ?_
  obtain ⟨-, -, hn, -⟩ := hreset hr
  rw [hp] at hn
  cases hn

/-- Writing a Frame to one register leaves Frames in all of them. -/
theorem wf_getF_setF {s : State} (h : ∀ k : FReg, (s.getF k).wf) {i : FReg} {fr : Frame} (hfr : fr.wf) (k : FReg) :
    ((s.setF i fr).getF k).wf := by
  rw [State.getF_setF]
  split
  · exact hfr
  · exact h k

/-- A drain stores nothing but a received Frame (R143, R172). -/
theorem DrainOutcome.storedWf {s t : State} (ho : DrainOutcome s t) (h : StoredWf s) : StoredWf t := by
  cases ho with
  | ends | waits => exact ⟨h.cfg, h.table, h.regs⟩
  | dispatches _ _ _ fr _ _ _ hn => exact ⟨h.cfg, h.table, wf_getF_setF (i := 3) (s := s) h.regs (normFrame_wf hn)⟩

/-- Every command keeps R21 and R24. -/
theorem Effect.storedWf {i : Instr} {s t : State} (he : Effect i s t) (h : StoredWf s) : StoredWf t := by
  cases he with
  | answers | sends => exact ⟨h.cfg, h.table, h.regs⟩
  | register k fr _ _ hw => exact ⟨h.cfg, h.table, wf_getF_setF h.regs (hw (h.regs k))⟩
  | builds => exact ⟨h.cfg, h.table, wf_getF_setF h.regs (mkFrame_wf ..)⟩
  | attaches ty d x _ _ ha => exact ⟨h.cfg, attachTable_wf h.table (devKey_low ty d) (hrefOf_lt _ x) ha, h.regs⟩
  | detaches p => exact ⟨h.cfg, removeSlot_wf h.table p, h.regs⟩
  | polls _ _ _ ho => exact ho.storedWf ⟨h.cfg, h.table, h.regs⟩

/-- An open POLL that drains, outside reset, ends in a state with the invariant: it has responded, has dispatched a Frame, or
has used its queue up. -/
theorem DrainOutcome.inv {s t : State} (ho : DrainOutcome s t) (h : StoredWf s) (hp : s.inPoll = true)
    (hd : s.dispatch = none) (hr : s.inReset = false) : Inv t := by
  obtain ⟨hcfg, htable, hregs⟩ := ho.storedWf h
  refine ⟨hcfg, htable, hregs, ?_⟩
  cases ho with
  | ends => simp [hd, hr, State.draining]
  | waits _ hm => simp [hd, hr, hm]
  | dispatches _ _ _ fr _ _ _ hn =>
    simp only [hp, hr, State.draining, Option.mem_some_iff]
    refine ⟨?_, by simp, by simp⟩
    rintro _ rfl
    exact ⟨trivial, Frame.toPort_wf (normFrame_wf hn)⟩

/-- A command that is accepted keeps the invariant. -/
theorem Effect.inv {i : Instr} {s t : State} (he : Effect i s t) (h : Inv s) (hw : s.draining = false)
    (hr : s.inReset = false) : Inv t := by
  have hs := StoredWf.of_inv h
  by_cases hi : i = .poll
  · subst hi
    rcases he.poll_cases with rfl | ⟨hn, ho⟩
    · exact h
    · refine ho.inv ⟨hs.cfg, hs.table, hs.regs⟩ rfl ?_ hr
      refine Option.eq_none_iff_forall_ne_some.2 fun d hd => ?_
      rw [show s.inPoll = true from h.inPoll_of_dispatch hd] at hn
      cases hn
  · obtain ⟨hcfg, htable, hregs⟩ := he.storedWf hs
    obtain ⟨hp, hd, -⟩ := he.pollState hi
    obtain ⟨-, -, hr', -⟩ := he.outside
    obtain ⟨-, -, -, hdisp, -⟩ := h
    refine ⟨hcfg, htable, hregs, ?_, ?_, ?_⟩
    · rw [hp, hd]; exact hdisp
    · rw [State.draining, hp, hd]; exact fun hc => absurd hc (Bool.eq_false_iff.1 hw)
    · rw [hr', hr]; nofun

/-- A block that has just been reset has R35's values, whatever the level of the reset input. -/
theorem blockIsReset_resetBlock (s : State) (asserted : Bool) : blockIsReset { resetBlock s with inReset := asserted } := by
  refine ⟨fun sl hs => ?_, s.getF_resetBlock, rfl, rfl⟩
  rw [List.eq_of_mem_replicate hs]
  rfl

/-- A block that has just been reset meets the invariant. -/
theorem inv_resetBlock {s : State} (h : s.cfg.wf = true) (asserted : Bool) :
    Inv { resetBlock s with inReset := asserted } := by
  have hregs : ∀ k : FReg, ((resetBlock s).getF k).wf := fun k => by rw [s.getF_resetBlock k]; exact zeroFrame_wf
  exact ⟨h, freeTable_wf s.cfg, hregs, nofun, nofun, fun _ => blockIsReset_resetBlock s asserted⟩

/-- No step changes a parameter (R9). -/
theorem StepEffect.cfg_eq {s t : State} (h : StepEffect s t) : t.cfg = s.cfg := by
  cases h with
  | holds | unaccepted | illegal | unasked | reset | resetIdle | queue => rfl
  | command _ _ _ _ _ _ _ _ he =>
    obtain ⟨hcfg, -⟩ := he.outside
    exact hcfg
  | completion _ _ _ _ _ ho => exact ho.cfg_eq
  | queueDrains _ _ _ _ _ _ ho => exact ho.cfg_eq

/-- Every step keeps the invariant: a command by its effect, a completion and an arrival by the drain that they resume. -/
theorem StepEffect.inv {s t : State} (h : StepEffect s t) (hs : Inv s) : Inv t := by
  obtain ⟨hcfg, htable, hregs⟩ := StoredWf.of_inv hs
  cases h with
  | holds | unaccepted | illegal | unasked | resetIdle => exact hs
  | command _ _ _ _ _ hw hr _ he => exact he.inv hs hw hr
  | completion rest d _ _ hd ho =>
    have hp := hs.inPoll_of_dispatch hd
    exact ho.inv ⟨hcfg, htable, hregs⟩ hp rfl (hs.inReset_of_inPoll hp)
  | reset asserted => exact inv_resetBlock hcfg asserted
  | queue _ _ _ _ hw =>
    obtain ⟨-, -, -, hdisp, -, hreset⟩ := hs
    exact ⟨hcfg, htable, hregs, hdisp, fun hc => absurd hc (Bool.eq_false_iff.1 hw), hreset⟩
  | queueDrains _ _ _ _ _ hw ho =>
    obtain ⟨hp, hd⟩ := (draining_iff s).1 hw
    exact ho.inv ⟨hcfg, htable, hregs⟩ hp hd (hs.inReset_of_inPoll hp)

/-- Settles O12, by the cases of `StepEffect`. -/
theorem stepsKeepTheInvariant : Obligations.StepsKeepTheInvariant := by
  intro s t hs h
  have he := step_effect h
  exact ⟨he.inv hs, he.cfg_eq⟩

/-- Settles O13: the reset state is what a reset of it leaves. -/
theorem resetStateMeetsTheInvariant : Obligations.ResetStateMeetsTheInvariant := by
  have h : ∀ p : Config.Params, p.wf = true → Inv (State.resetWith p) := fun p hp =>
    inv_resetBlock (s := State.resetWith p) hp false
  exact ⟨h _ (by decide), h⟩

/-! ### Reset (R35, R230) -/

/-- A level of the reset input is taken at once. -/
theorem step_reset {s : State} {asserted : Bool} {rest : List Input} (hin : s.input = .reset asserted :: rest) :
    step s = .next (setReset asserted { s with input := rest }) := by
  simp [step, hin, mustWait, takeInput]

/-- Settles O8: the next state of a reset is `resetBlock` of the state, which has R35's values. -/
theorem resetInputLeavesResetState : Obligations.ResetInputLeavesResetState := by
  refine ⟨?_, by decide, ?_, ?_⟩
  · obtain ⟨hrt, hf, hp, -⟩ := blockIsReset_resetBlock State.reset false
    exact ⟨hrt, hp, hf, rfl⟩
  · intro s asserted rest hin ha
    obtain ⟨hrt, hf, -⟩ := blockIsReset_resetBlock { s with input := rest } asserted
    refine ⟨{ resetBlock { s with input := rest } with inReset := asserted }, ?_, hrt, ?_, hf, rfl⟩
    · rw [step_reset hin, setReset_resets (s := { s with input := rest }) ha]
    · exact List.length_replicate
  · intro s rest hin hr
    rw [step_reset hin, setReset_idle (s := { s with input := rest }) hr]

/-! ### Commands -/

/-- A legal command runs its instruction (R77, R79). -/
theorem runCommand_of_decode {c : Command} {i : Instr} (hd : decode c = .ok i) (s : State) : runCommand c s = exec i s := by
  simp [runCommand, hd]

/-- A step that accepts a legal command runs its instruction (R30, R205). -/
theorem step_of_decode {s : State} {c : Command} {rest : List Input} {i : Instr} (hin : s.input = .command c :: rest)
    (hw : s.draining = false) (hr : s.inReset = false) (hd : decode c = .ok i) :
    step s = exec i { s with input := rest } := by
  rw [step_accepted hin hw hr, runCommand_of_decode hd]

/-- An instruction read from a table word is the one its command decodes to. -/
theorem decode_of_decodeTableWord {nbits w : Nat} {i : Instr} (h : decodeTableWord nbits w = some i) :
    decode (tableCommand nbits w) = .ok i := by
  unfold decodeTableWord at h
  cases hd : decode (tableCommand nbits w) with
  | ok j => rw [hd] at h; cases h; rfl
  | error e => rw [hd] at h; cases h

/-- Settles O6: an accepted command runs what it decodes to, and `withFetchWord` presents one. -/
theorem stepRunsDecodedCommand : Obligations.StepRunsDecodedCommand := by
  refine ⟨fun s cmd rest i => step_of_decode, fun s nbits w i hw hr hd => ?_⟩
  exact step_of_decode (s := s.withFetchWord nbits w) rfl hw hr (decode_of_decodeTableWord hd)

/-! ### Slots (R26) -/

/-- The two commands that remove a registration. -/
theorem detach_of_writesTable {i : Instr} (hi : writesTable i = true) (ha : ∀ ty d x, i ≠ .attach ty d x) :
    (∃ ty d, i = .detachk ty d) ∨ ∃ ty d x, i = .detachd ty d x := by
  cases i with
  | attach ty d x => exact absurd rfl (ha ty d x)
  | detachk ty d => exact .inl ⟨ty, d, rfl⟩
  | detachd ty d x => exact .inr ⟨ty, d, x, rfl⟩
  | pack | unpack | rkey | write | read | make | msend | poll | send | fload | fstore | feq => cases hi

/-- A step that takes neither a command nor a level of the reset input leaves the route table. -/
theorem StepEffect.rt_eq {s t : State} (h : StepEffect s t) (hc : ∀ cmd rest, s.input ≠ .command cmd :: rest)
    (hb : ∀ b rest, s.input ≠ .reset b :: rest) : t.rt = s.rt := by
  cases h with
  | holds | unaccepted | illegal | unasked | resetIdle | queue => rfl
  | command _ _ _ _ hin => exact absurd hin (hc _ _)
  | reset _ _ hin => exact absurd hin (hb _ _)
  | completion _ _ _ _ _ ho => exact ho.rt_eq
  | queueDrains _ _ _ _ _ _ ho => exact ho.rt_eq

/-- Settles O42: only ATTACH, DETACHK and DETACHD reach the table, and each sets one slot of it. -/
theorem slotsNeverMove : Obligations.SlotsNeverMove := by
  refine ⟨fun i s t h => ?_, fun s t h => (step_effect h).rt_eq⟩
  cases effect_of_exec h with
  | answers | register | sends | builds => exact .inl rfl
  | polls _ _ _ ho => exact .inl ho.rt_eq
  | detaches p hi _ _ ha hv =>
    rcases removeSlot_cases p s.rt with ⟨-, e⟩ | ⟨n, hn, hp, -, e⟩
    · exact .inl e
    · exact .inr ⟨n, s.rt[n], _, List.getElem?_eq_getElem hn, e, .inl ⟨detach_of_writesTable hi ha, hv _ hp, rfl⟩⟩
  | attaches ty d x rt hi he =>
    rcases attachTable_cases s.cfg.dupPolicy (devKey ty d) (hrefOf s.cfg x) s.rt with
      ⟨n, hn, ⟨hv, hk⟩, -, ⟨-, e⟩ | ⟨hpol, e⟩⟩ | ⟨-, -, e⟩ | ⟨hfresh, n, hn, hfree, hlow, e⟩
    all_goals rw [e] at he; cases he
    · exact .inr ⟨n, s.rt[n], _, List.getElem?_eq_getElem hn, rfl, .inr (.inl ⟨ty, d, x, hi, hpol, hv, hk, rfl⟩)⟩
    · refine .inr ⟨n, s.rt[n], _, List.getElem?_eq_getElem hn, rfl, .inr (.inr ⟨ty, d, x, hi, hfresh, hfree, rfl, ?_⟩)⟩
      intro m c hm hc
      obtain ⟨hlt, rfl⟩ := List.getElem?_eq_some_iff.1 hc
      exact hlow m hm

/-! ### `in_poll` (R27) -/

@[simp] theorem responses_response (r : Response) (tr : List PortEvent) :
    responses (.response r :: tr) = responses tr + 1 :=
  List.countP_cons_of_pos rfl

@[simp] theorem responses_receive (a : Option PortFrame) (tr : List PortEvent) :
    responses (.receive a :: tr) = responses tr :=
  List.countP_cons_of_neg nofun

@[simp] theorem responses_dispatch (h : Word) (p : PortFrame) (tr : List PortEvent) :
    responses (.dispatch h p :: tr) = responses tr :=
  List.countP_cons_of_neg nofun

/-- The receive requests of a drain are no responses. -/
@[simp] theorem responses_received (q : List PortFrame) (tr : List PortEvent) :
    responses (received q ++ tr) = responses tr := by
  induction q generalizing tr with
  | nil => rfl
  | cons p q ih => rw [received_cons, ih, responses_receive]

/-- A drain opens no POLL. -/
theorem DrainOutcome.inPoll_of_after {s t : State} (h : DrainOutcome s t) (ht : t.inPoll = true) : s.inPoll = true := by
  cases h with
  | ends => cases ht
  | dispatches | waits => exact ht

/-- A drain that closes the POLL has been answered `none` and responds with `ok = 1` (R170, R171). -/
theorem DrainOutcome.trace_of_closed {s t : State} (h : DrainOutcome s t) (hs : s.inPoll = true) (ht : t.inPoll = false) :
    ∃ es, t.trace = plainOk :: .receive none :: (es ++ s.trace) := by
  cases h with
  | ends => exact ⟨received s.rxq, rfl⟩
  | dispatches | waits => exact absurd ht (by simp [hs])

/-- A drain of an open POLL leaves it open exactly if it gives no response. -/
theorem DrainOutcome.inPoll_iff {s t : State} (h : DrainOutcome s t) (hs : s.inPoll = true) :
    t.inPoll = true ↔ responses t.trace = responses s.trace := by
  cases h with
  | ends | dispatches | waits => simp [hs]

/-- A POLL taken with `in_poll = 0` leaves it 1 exactly if it gives no response. -/
theorem Effect.poll_inPoll_iff {s t : State} (h : Effect .poll s t) (hs : s.inPoll = false) :
    t.inPoll = true ↔ responses t.trace = responses s.trace := by
  rcases h.poll_cases with rfl | ⟨-, ho⟩
  · simp [hs]
  · exact ho.inPoll_iff rfl

/-- Only POLL turns `in_poll` to 1. -/
theorem Effect.poll_of_opens {i : Instr} {s t : State} (h : Effect i s t) (hs : s.inPoll = false) (ht : t.inPoll = true) :
    i = .poll := by
  by_contra hi
  obtain ⟨hp, -⟩ := h.pollState hi
  rw [hp, hs] at ht
  cases ht

/-- No command turns `in_poll` to 0: a POLL while one is open is refused. -/
theorem Effect.inPoll_kept {i : Instr} {s t : State} (h : Effect i s t) (hs : s.inPoll = true) : t.inPoll = true := by
  by_cases hi : i = .poll
  · subst hi
    rcases h.poll_cases with rfl | ⟨hn, -⟩
    · exact hs
    · rw [hs] at hn
      cases hn
  · obtain ⟨hp, -⟩ := h.pollState hi
    rw [hp, hs]

/-- A step that turns `in_poll` to 1 took a POLL command. -/
theorem StepEffect.poll_of_opens {s t : State} (h : StepEffect s t) (hs : s.inPoll = false) (ht : t.inPoll = true) :
    ∃ cmd rest, s.input = .command cmd :: rest ∧ decode cmd = .ok .poll := by
  cases h with
  | holds | unaccepted | illegal | unasked | resetIdle | queue => exact absurd ht (by simp [hs])
  | reset => cases ht
  | command c rest i _ hin _ _ hd he => exact ⟨c, rest, hin, he.poll_of_opens hs ht ▸ hd⟩
  | completion _ _ _ _ _ ho => exact absurd (ho.inPoll_of_after ht) (by simp [hs])
  | queueDrains _ _ _ _ _ _ ho => exact absurd (ho.inPoll_of_after ht) (by simp [hs])

/-- A step that turns `in_poll` to 0 is a reset, or ends with the Transceiver's `none` and the response of the POLL. -/
theorem StepEffect.reset_or_response_of_closed {s t : State} (h : StepEffect s t) (hs : s.inPoll = true)
    (ht : t.inPoll = false) :
    (∃ b rest, s.input = .reset b :: rest) ∨ ∃ es, t.trace = plainOk :: .receive none :: (es ++ s.trace) := by
  cases h with
  | holds | unaccepted | illegal | unasked | queue => exact absurd ht (by simp [hs])
  | reset b rest hin => exact .inl ⟨b, rest, hin⟩
  | resetIdle rest hin => exact .inl ⟨false, rest, hin⟩
  | command _ _ _ _ _ _ _ _ he => exact absurd ht (by simp [he.inPoll_kept hs])
  | completion _ _ _ _ _ ho => exact .inr (ho.trace_of_closed hs ht)
  | queueDrains _ _ _ _ _ _ ho => exact .inr (ho.trace_of_closed hs ht)

/-- While a POLL is open, a step that takes no command and no level of the reset input leaves it open exactly if it gives no
response. -/
theorem StepEffect.inPoll_iff {s t : State} (h : StepEffect s t) (hc : ∀ cmd rest, s.input ≠ .command cmd :: rest)
    (hb : ∀ b rest, s.input ≠ .reset b :: rest) (hs : s.inPoll = true) :
    t.inPoll = true ↔ responses t.trace = responses s.trace := by
  cases h with
  | holds | unasked | queue => simp [hs]
  | unaccepted _ _ hin | command _ _ _ _ hin | illegal _ _ _ hin => exact absurd hin (hc _ _)
  | reset _ _ hin | resetIdle _ hin => exact absurd hin (hb _ _)
  | completion _ _ _ _ _ ho => exact ho.inPoll_iff hs
  | queueDrains _ _ _ _ _ _ ho => exact ho.inPoll_iff hs

/-- A command leaves an open POLL open. -/
theorem StepEffect.inPoll_kept {s t : State} (h : StepEffect s t) {cmd : Command} {rest : List Input}
    (hin : s.input = .command cmd :: rest) (hs : s.inPoll = true) : t.inPoll = true := by
  cases h with
  | holds | unaccepted | illegal | unasked | resetIdle | queue => exact hs
  | command _ _ _ _ _ _ _ _ he => exact he.inPoll_kept hs
  | completion _ _ _ hin' | reset _ _ hin' | queueDrains _ _ _ _ hin' => rw [hin] at hin'; cases hin'

/-- Settles O50, clause by clause. -/
theorem inPollIsOneExactlyDuringAPoll : Obligations.InPollIsOneExactlyDuringAPoll := by
  intro s t h
  have he := step_effect h
  refine ⟨he.poll_of_opens, he.reset_or_response_of_closed, ?_, fun _ _ => he.inPoll_kept, ?_, he.inPoll_iff⟩
  · intro cmd rest hin hd hp hr
    rw [step_of_decode hin (by simp [State.draining, hp]) hr hd] at h
    exact (effect_of_exec h).poll_inPoll_iff hp
  · intro b rest hin hb
    rw [step_reset hin, setReset_resets (s := { s with input := rest }) hb] at h
    cases h
    rfl

/-! ### Outcomes are not remembered (R31) -/

/-- What `g` does from `s` does not depend on the record: it leaves one state and adds one list of events, whatever the record
holds before. -/
def IgnoresRecord (g : State → Host.Outcome State Fault Refusal) (s : State) : Prop :=
  ∃ (u : State) (es : List PortEvent), ∀ tr, g { s with trace := tr } = .next { u with trace := es ++ tr }

/-- The loop of POLL does not read the record. -/
theorem drain_ignoresRecord (q : List PortFrame) (s : State) : ∃ (u : State) (es : List PortEvent), ∀ tr,
    drain q { s with trace := tr } = { u with trace := es ++ tr } := by
  induction q generalizing s with
  | nil =>
    by_cases hm : s.rxMore = true
    · exact ⟨{ s with rxq := [] }, [], fun _ => if_pos hm⟩
    · exact ⟨{ s with rxq := [], inPoll := false }, [.response okResponse, .receive none], fun _ => if_neg hm⟩
  | cons p q ih =>
    by_cases hp : dropped s.rt p
    · obtain ⟨u, es, h⟩ := ih s
      refine ⟨u, es ++ [.receive (some p)], fun tr => ?_⟩
      rw [drain_cons_dropped (s := { s with trace := tr }) q hp, List.append_assoc]
      exact h (.receive (some p) :: tr)
    · obtain ⟨fr, w, hn, hr⟩ := not_dropped hp
      exact ⟨enterDispatch w fr { s with rxq := q }, [.dispatch w fr.toPort, .receive (some p)],
        fun tr => drain_cons_routed (s := { s with trace := tr }) q hn hr⟩

/-- No command reads the record. -/
theorem exec_ignoresRecord (i : Instr) (s : State) : IgnoresRecord (exec i) s := by
  cases i with
  | pack t d c => exact ⟨s, [.response _], fun _ => rfl⟩
  | unpack x => exact ⟨s, [.response { okResponse with rx := unpackWord s.cfg x }], fun _ => rfl⟩
  | rkey x => exact ⟨s, [.response _], fun _ => rfl⟩
  | write fd start size v =>
    by_cases h0 : size = 0
    · exact ⟨s, [.response _], fun _ => if_pos h0⟩
    · by_cases h8 : start + size > 8
      · exact ⟨s, [.response _], fun _ => (if_neg h0).trans (if_pos h8)⟩
      · exact ⟨s.setF fd ((s.getF fd).write start size v), [.response _], fun _ => (if_neg h0).trans (if_neg h8)⟩
  | read fs start size =>
    by_cases h0 : size = 0
    · exact ⟨s, [.response _], fun _ => if_pos h0⟩
    · by_cases h8 : start + size > 8
      · exact ⟨s, [.response _], fun _ => (if_neg h0).trans (if_pos h8)⟩
      · by_cases hd : start + size > (s.getF fs).dlc
        · exact ⟨s, [.response _], fun _ => ((if_neg h0).trans (if_neg h8)).trans (if_pos hd)⟩
        · exact ⟨s, [.response { okResponse with rdata := (s.getF fs).memRead start size }],
            fun _ => ((if_neg h0).trans (if_neg h8)).trans (if_neg hd)⟩
  | make fd t d c len pl => exact ⟨s.setF fd (mkFrame t d c len pl), [.response _], fun _ => rfl⟩
  | msend fd t d c len pl =>
    exact ⟨(s.setF fd (mkFrame t d c len pl)).xcvSend (mkFrame t d c len pl),
      [.response (sendResponse s.sendAnswer), .send (mkFrame t d c len pl).toPort s.sendAnswer], fun _ => rfl⟩
  | attach t d x =>
    cases he : attachTable s.cfg.dupPolicy (devKey t d) (hrefOf s.cfg x) s.rt with
    | error c => exact ⟨s, [.response (failResponse c)], fun _ => by simp only [exec, execAttach, he]; rfl⟩
    | ok rt => exact ⟨s.setRt rt, [.response okResponse], fun _ => by simp only [exec, execAttach, he]; rfl⟩
  | detachk t d => exact ⟨s.setRt (removeSlot (Slot.holds (devKey t d)) s.rt), [.response _], fun _ => rfl⟩
  | detachd t d x =>
    exact ⟨s.setRt (removeSlot (Slot.holdsDevice (devKey t d) (hrefOf s.cfg x)) s.rt), [.response _], fun _ => rfl⟩
  | poll =>
    by_cases hp : s.inPoll = true
    · exact ⟨s, [.response _], fun _ => if_pos hp⟩
    · obtain ⟨u, es, h⟩ := drain_ignoresRecord s.rxq { s with inPoll := true }
      exact ⟨u, es, fun tr => (if_neg hp).trans (congrArg _ (h tr))⟩
  | send fs =>
    exact ⟨s.xcvSend (s.getF fs), [.response (sendResponse s.sendAnswer), .send (s.getF fs).toPort s.sendAnswer],
      fun _ => rfl⟩
  | fload fd id dlc e r er data =>
    cases hn : normFrame { id := id, data := data, dlc := dlc, ext := e, rtr := r, err := er } with
    | none => exact ⟨s, [.response (failResponse .illegal)], fun _ => by simp only [exec, execFload, hn]; rfl⟩
    | some fr => exact ⟨s.setF fd fr, [.response okResponse], fun _ => by simp only [exec, execFload, hn]; rfl⟩
  | fstore fs =>
    exact ⟨s, [.response { okResponse with
      rx := (s.getF fs).toPort.id, rdata := (s.getF fs).toPort.data, rmeta := (s.getF fs).toPort.metaBits }], fun _ => rfl⟩
  | feq fa fb =>
    exact ⟨s, [.response { okResponse with rx := (BitVec.ofBool ((s.getF fa).eqv (s.getF fb))).setWidth 32 }],
      fun _ => rfl⟩

/-- No input makes the block read the record. -/
theorem takeInput_ignoresRecord (e : Input) (s : State) : IgnoresRecord (takeInput e) s := by
  cases e with
  | command c =>
    by_cases hr : s.inReset = true
    · exact ⟨s, [], fun _ => if_pos hr⟩
    · cases hd : decode c with
      | ok i =>
        obtain ⟨u, es, h⟩ := exec_ignoresRecord i s
        exact ⟨u, es, fun tr => (if_neg hr).trans ((runCommand_of_decode hd _).trans (h tr))⟩
      | error e =>
        refine ⟨s, [.response (failResponse .illegal)], fun tr => (if_neg hr).trans ?_⟩
        simp only [runCommand, hd]
        rfl
  | completion =>
    cases hd : s.dispatch with
    | none => exact ⟨s, [], fun tr => by simp only [takeInput, takeCompletion, hd]; rfl⟩
    | some d =>
      obtain ⟨u, es, h⟩ := drain_ignoresRecord s.rxq { s with dispatch := none }
      refine ⟨u, es, fun tr => ?_⟩
      simp only [takeInput, takeCompletion, hd]
      exact congrArg _ (h tr)
  | reset asserted =>
    by_cases ha : asserted = true ∨ s.inReset = true
    · exact ⟨{ resetBlock s with inReset := asserted }, [],
        fun tr => congrArg _ (setReset_resets (s := { s with trace := tr }) ha)⟩
    · obtain ⟨rfl, hr⟩ : asserted = false ∧ s.inReset = false := by simpa using ha
      exact ⟨s, [], fun tr => congrArg _ (setReset_idle (s := { s with trace := tr }) hr)⟩
  | receiveQueue q more =>
    by_cases hw : s.draining = true
    · obtain ⟨u, es, h⟩ := drain_ignoresRecord q { s with rxq := q, rxMore := more }
      exact ⟨u, es, fun tr => congrArg _ ((if_pos hw).trans (h tr))⟩
    · exact ⟨{ s with rxq := q, rxMore := more }, [], fun _ => congrArg _ (if_neg hw)⟩

/-- Whether an input waits depends on the POLL, the dispatch and the reset input alone. -/
theorem mustWait_congr (e : Input) {s t : State} (hp : t.inPoll = s.inPoll) (hd : t.dispatch = s.dispatch)
    (hr : t.inReset = s.inReset) : mustWait e t = mustWait e s := by
  cases e <;> simp [mustWait, State.draining, hp, hd, hr]

/-- A step with an input before it takes the input, or waits. -/
theorem step_cons {s : State} {e : Input} {rest : List Input} (hin : s.input = e :: rest) :
    step s = if mustWait e s then .next s else takeInput e { s with input := rest } := by
  simp only [step, hin]

/-- No step reads the record. -/
theorem step_ignoresRecord (s : State) : IgnoresRecord step s := by
  cases hin : s.input with
  | nil => exact ⟨s, [], fun _ => by simp only [step, hin]; rfl⟩
  | cons e rest =>
    have hstep := fun tr => step_cons (s := { s with trace := tr }) hin
    have hwait : ∀ tr, mustWait e { s with trace := tr } = mustWait e s := fun _ => mustWait_congr e rfl rfl rfl
    cases hw : mustWait e s with
    | true => exact ⟨s, [], fun tr => (hstep tr).trans (if_pos ((hwait tr).trans hw))⟩
    | false =>
      obtain ⟨u, es, h⟩ := takeInput_ignoresRecord e { s with input := rest }
      exact ⟨u, es, fun tr => (hstep tr).trans ((if_neg (by simp [hwait, hw])).trans (h tr))⟩

/-- Settles O16: the events a step adds are those that it adds to the record `s.trace`. -/
theorem outcomesAreNotRemembered : Obligations.OutcomesAreNotRemembered := by
  intro s t tr h
  obtain ⟨u, es, hu⟩ := step_ignoresRecord s
  have ht : step s = .next { u with trace := es ++ s.trace } := hu s.trace
  rw [h] at ht
  cases ht
  exact ⟨es, rfl, hu tr⟩

end Sys2Proof.Machine
end

section
/-! Family `20_memory.md`: what WRITE, READ and ATTACH answer case by case, the bytes and the send requests of every command,
and the statements about the data buffers and the order of the port traffic. -/

namespace Sys2Proof.Machine

/-! ### WRITE and READ, case by case (R53, R121, R125, R130) -/

/-- Everything WRITE can do, in R203's order: size 0, the bound, admitted. -/
theorem exec_write_cases (fd : FReg) (start size : Nat) (v : DWord) (s : State) :
    (size = 0 ∧ exec (.write fd start size v) s = .next (s.fail .illegal)) ∨
    (size ≠ 0 ∧ 8 < start + size ∧ exec (.write fd start size v) s = .next (s.fail .encBound)) ∨
    (size ≠ 0 ∧ start + size ≤ 8 ∧
      exec (.write fd start size v) s = .next ((s.setF fd ((s.getF fd).write start size v)).respond okResponse)) := by
  by_cases h0 : size = 0
  · exact .inl ⟨h0, if_pos h0⟩
  · by_cases h8 : 8 < start + size
    · exact .inr (.inl ⟨h0, h8, (if_neg h0).trans (if_pos h8)⟩)
    · exact .inr (.inr ⟨h0, Nat.not_lt.1 h8, exec_write_admitted fd v s h0 (Nat.not_lt.1 h8)⟩)

/-- Everything READ can do, in R203's order: size 0, the bound, the declared length, admitted. -/
theorem exec_read_cases (fs : FReg) (start size : Nat) (s : State) :
    (size = 0 ∧ exec (.read fs start size) s = .next (s.fail .illegal)) ∨
    (size ≠ 0 ∧ 8 < start + size ∧ exec (.read fs start size) s = .next (s.fail .encBound)) ∨
    (size ≠ 0 ∧ start + size ≤ 8 ∧ (s.getF fs).dlc < start + size ∧
      exec (.read fs start size) s = .next (s.fail .encDlc)) ∨
    (size ≠ 0 ∧ start + size ≤ 8 ∧ start + size ≤ (s.getF fs).dlc ∧
      exec (.read fs start size) s = .next (s.respond { okResponse with rdata := (s.getF fs).memRead start size })) := by
  by_cases h0 : size = 0
  · exact .inl ⟨h0, if_pos h0⟩
  · by_cases h8 : 8 < start + size
    · exact .inr (.inl ⟨h0, h8, (if_neg h0).trans (if_pos h8)⟩)
    · have h8' := Nat.not_lt.1 h8
      by_cases hd : (s.getF fs).dlc < start + size
      · exact .inr (.inr (.inl ⟨h0, h8', hd, ((if_neg h0).trans (if_neg h8)).trans (if_pos hd)⟩))
      · have hd' := Nat.not_lt.1 hd
        exact .inr (.inr (.inr ⟨h0, h8', hd', exec_read_admitted fs s h0 h8' hd'⟩))

/-- Settles O26: R53's conditions are the last case of WRITE and of READ, and every other case only responds. -/
theorem accessIsAdmittedOrRefusedWhole : Obligations.AccessIsAdmittedOrRefusedWhole := by
  refine ⟨fun fd start size v s => ?_, fun fs start size s => ?_⟩
  · rcases exec_write_cases fd start size v s with ⟨h0, e⟩ | ⟨h0, h8, e⟩ | ⟨h0, h8, e⟩
    · exact ⟨_, _, e, rfl, iff_of_false nofun (by omega), fun _ => rfl, fun _ => rfl⟩
    · exact ⟨_, _, e, rfl, iff_of_false nofun (by omega), fun _ => rfl, fun h => absurd h h0⟩
    · exact ⟨_, _, e, rfl, iff_of_true rfl (by omega), nofun, fun h => absurd h h0⟩
  · rcases exec_read_cases fs start size s with ⟨h0, e⟩ | ⟨h0, h8, e⟩ | ⟨h0, h8, hd, e⟩ | ⟨h0, h8, hd, e⟩
    · exact ⟨_, _, e, rfl, iff_of_false nofun (by omega), fun _ => ⟨rfl, rfl⟩, fun _ => rfl⟩
    · exact ⟨_, _, e, rfl, iff_of_false nofun (by omega), fun _ => ⟨rfl, rfl⟩, fun h => absurd h h0⟩
    · exact ⟨_, _, e, rfl, iff_of_false nofun (by omega), fun _ => ⟨rfl, rfl⟩, fun h => absurd h h0⟩
    · exact ⟨_, _, e, rfl, iff_of_true rfl (by omega), nofun, fun h => absurd h h0⟩

/-! ### Reading inside what was written (R51, R52) -/

/-- `m` bytes read from `j` bytes into the `n` bytes that were written are bits `[8(j+m)-1 : 8j]` of the value. -/
theorem Frame.memRead_write (fr : Frame) {a n j m : Nat} (v : DWord) (hn : a + n ≤ 8) (hm : j + m ≤ n) :
    (fr.write a n v).memRead (a + j) m = BitVec.ofNat 64 (v.toNat / 2 ^ (8 * j) % 2 ^ (8 * m)) := by
  have hshift : v.toNat / 2 ^ (8 * j) = (v >>> (8 * j)).toNat := by
    rw [BitVec.toNat_ushiftRight, Nat.shiftRight_eq_div_pow]
  rw [hshift]
  refine eq_of_lanes fun l hl => ?_
  rw [Frame.laneOf_memRead _ _ _ hl, laneOf_low _ _ _ hl, laneOf_ushiftRight]
  split
  · next hlm =>
    rw [Frame.byte_write _ _ _ _ (by omega), if_pos (by omega), Nat.add_assoc, Nat.add_sub_cancel_left]
  · rfl

/-- Settles O27: the READ is admitted, since the WRITE left `dlc` at `a + n` or above, and `memRead_write` is its result. -/
theorem mixedWidthReadSeesBytes : Obligations.MixedWidthReadSeesBytes := by
  intro fd a n j m v s t hn han hm hjm h
  rw [exec_write_admitted fd v s hn han] at h
  cases h
  have hdlc : a + j + m ≤ ((s.getF fd).write a n v).dlc := by rw [Frame.write_dlc]; omega
  rw [exec_read_admitted fd _ hm (by omega) (by simpa using hdlc), State.getF_respond, State.getF_setF_same,
    Frame.memRead_write _ v han hjm]
  rfl

/-! ### Repeated accesses (R57) -/

/-- A command that only answers answers the same when repeated: it does not read the record of its first answer. -/
theorem exec_repeat_of_respond {i : Instr} {s : State} {r : Response} (h : exec i s = .next (s.respond r)) :
    exec i (s.respond r) = .next ((s.respond r).respond r) := by
  obtain ⟨u, es, hu⟩ := exec_ignoresRecord i s
  have h1 : exec i s = .next { u with trace := es ++ s.trace } := hu s.trace
  have h2 : exec i (s.respond r) = .next { u with trace := es ++ .response r :: s.trace } := hu (.response r :: s.trace)
  rw [h, Host.Outcome.next.injEq] at h1
  have htr : [.response r] ++ s.trace = es ++ s.trace := congrArg State.trace h1
  obtain rfl := List.append_cancel_right htr
  exact h2.trans (congrArg (fun w : State => Host.Outcome.next (w.respond r)) h1.symm)

/-- Writing the same bytes again changes nothing. -/
theorem Frame.write_write_self (fr : Frame) (a n : Nat) (v : DWord) : (fr.write a n v).write a n v = fr.write a n v := by
  refine Frame.ext_bytes rfl (by simp) rfl rfl rfl fun k hk => ?_
  rw [Frame.byte_write _ _ _ _ hk]
  split
  · next hc => rw [Frame.byte_write _ _ _ _ hk, if_pos hc]
  · rfl

/-- Writing back what a register holds changes nothing. -/
theorem State.setF_getF (s : State) (i : FReg) : s.setF i (s.getF i) = s := by
  simp [State.setF, State.getF]

/-- Settles O30: a command that only answers repeats its answer, and a WRITE repeated stores what the register holds. -/
theorem readsAndWritesAreIdempotent : Obligations.ReadsAndWritesAreIdempotent := by
  refine ⟨fun i s hi => ?_, fun fd start size v s => ?_⟩
  · suffices ∃ r, exec i s = .next (s.respond r) from this.imp fun _ h => ⟨h, exec_repeat_of_respond h⟩
    rcases hi with ⟨fs, start, size, rfl⟩ | ⟨fs, rfl⟩ | ⟨fa, fb, rfl⟩
    · rcases exec_read_cases fs start size s with ⟨-, e⟩ | ⟨-, -, e⟩ | ⟨-, -, -, e⟩ | ⟨-, -, -, e⟩ <;> exact ⟨_, e⟩
    · exact ⟨_, rfl⟩
    · exact ⟨_, rfl⟩
  · rcases exec_write_cases fd start size v s with ⟨-, e⟩ | ⟨-, -, e⟩ | ⟨h0, h8, e⟩
    · exact ⟨_, _, e, exec_repeat_of_respond e, rfl⟩
    · exact ⟨_, _, e, exec_repeat_of_respond e, rfl⟩
    · refine ⟨_, okResponse, e, ?_, rfl⟩
      generalize ht : (s.setF fd ((s.getF fd).write start size v)).respond okResponse = t
      have hreg : (t.getF fd).write start size v = t.getF fd := by
        rw [← ht, State.getF_respond, State.getF_setF_same, Frame.write_write_self]
      rw [exec_write_admitted fd v t h0 h8, hreg, State.setF_getF]

/-! ### A registration decides the next lookup (R63, R173) -/

/-- ATTACH only fails, or puts the new table in place and responds `ok = 1` (R161). -/
theorem exec_attach_cases (ty d : Byte) (x : Word) (s : State) :
    (∃ c, exec (.attach ty d x) s = .next (s.fail c)) ∨
    (∃ rt, attachTable s.cfg.dupPolicy (devKey ty d) (hrefOf s.cfg x) s.rt = .ok rt ∧
      exec (.attach ty d x) s = .next ((s.setRt rt).respond okResponse)) := by
  cases he : attachTable s.cfg.dupPolicy (devKey ty d) (hrefOf s.cfg x) s.rt with
  | error c => exact .inl ⟨c, by simp only [exec, execAttach, he]⟩
  | ok rt => exact .inr ⟨rt, rfl, by simp only [exec, execAttach, he]⟩

/-- A table that ATTACH has written holds the registration. -/
theorem exists_mem_of_attachTable {pol : Config.DupPolicy} {k : Ident} {r : Word} {rt rt' : List Slot}
    (he : attachTable pol k r rt = .ok rt') : ∃ sl ∈ rt', sl.valid = true ∧ sl.key = k ∧ sl.href = r := by
  rcases attachTable_cases pol k r rt with ⟨i, hi, ⟨hv, hk⟩, -, ⟨-, e⟩ | ⟨-, e⟩⟩ | ⟨-, -, e⟩ | ⟨-, i, hi, -, -, e⟩
  all_goals rw [e] at he; cases he
  · exact ⟨_, List.mem_set hi _, hv, hk, rfl⟩
  · exact ⟨_, List.mem_set hi _, rfl, rfl, rfl⟩

/-- After ATTACH the lookup of an identifier of the device finds the reference just registered. -/
theorem route_of_attachTable {c : Config.Params} {rt rt' : List Slot} (hwf : tableWf c rt) {pol : Config.DupPolicy}
    {ty d : Byte} {x id : Word} (he : attachTable pol (devKey ty d) (hrefOf c x) rt = .ok rt')
    (hk : rkey id = (devKey ty d).setWidth 32) : route rt' id = some (hrefOf c x) := by
  obtain ⟨-, hu, -⟩ := attachTable_wf hwf (devKey_low ty d) (hrefOf_lt c x) he
  obtain ⟨sl, hs, hv, hkey, hhref⟩ := exists_mem_of_attachTable he
  rw [← hhref]
  exact route_of_mem hu hs hv (by rw [hkey, hk])

/-- A completion whose next received value is a Frame with a registration dispatches that Frame (R170, R210). -/
theorem takeCompletion_routed {s : State} {o : DispatchRequest} {p : PortFrame} {q : List PortFrame} {fr : Frame} {h : Word}
    (hd : s.dispatch = some o) (hq : s.rxq = p :: q) (hn : normFrame p = some fr) (hr : route s.rt fr.id = some h) :
    takeCompletion s =
      .next (enterDispatch h fr (({ s with dispatch := none, rxq := q } : State).emit (.receive (some p)))) := by
  have hdrain : leaveDispatch s = _ := (congrArg (fun l => drain l { s with dispatch := none }) hq).trans
    (drain_cons_routed (s := { s with dispatch := none }) q hn hr)
  simp only [takeCompletion, hd, hdrain]

/-- Settles O51: a successful ATTACH leaves the open dispatch and the queue, and decides the lookup of the next frame. -/
theorem nestedAttachDecidesTheNextFrame : Obligations.NestedAttachDecidesTheNextFrame := by
  intro s t ty d x tr p q fr o hinv hd hq h htr hn hk
  rcases exec_attach_cases ty d x s with ⟨c, e⟩ | ⟨rt, he, e⟩ <;> rw [e] at h <;> cases h
  · rw [State.fail_trace, plainOk, List.cons.injEq, PortEvent.response.injEq] at htr
    cases htr.1
  · have hr := route_of_attachTable (StoredWf.of_inv hinv).table he hk
    have hnext := takeCompletion_routed (s := (s.setRt rt).respond okResponse) hd hq hn hr
    exact ⟨_, hnext, rfl, State.getF_enterDispatch_three _ _ _, rfl⟩

/-! ### Send requests (R61) -/

/-- Presented frames of a record made of two parts. -/
@[simp] theorem sentFrames_append (tr tr' : List PortEvent) :
    sentFrames (tr ++ tr') = sentFrames tr ++ sentFrames tr' := List.filterMap_append

/-- Receive requests present nothing to the Transceiver. -/
@[simp] theorem sentFrames_received (q : List PortFrame) : sentFrames (received q) = [] := by
  simp [sentFrames, received, List.filterMap_map]

/-- A drain adds to the record and makes no send request (R170). -/
theorem DrainOutcome.sends_nothing {s t : State} (h : DrainOutcome s t) :
    ∃ es, t.trace = es ++ s.trace ∧ sentFrames es = [] := by
  cases h with
  | ends => exact ⟨[.response _, .receive none] ++ received s.rxq, rfl, by rw [sentFrames_append, sentFrames_received]; rfl⟩
  | waits => exact ⟨received s.rxq, rfl, sentFrames_received _⟩
  | dispatches pre p _ fr sl =>
    exact ⟨[.dispatch sl.href fr.toPort, .receive (some p)] ++ received pre, rfl,
      by rw [sentFrames_append, sentFrames_received]; rfl⟩

/-- A command adds to the record, and its send requests are `sends`. -/
theorem Effect.sentFrames_eq {i : Instr} {s t : State} (h : Effect i s t) :
    ∃ es, t.trace = es ++ s.trace ∧ sentFrames es = Machine.sends i s := by
  cases h with
  | answers r _ hs => exact ⟨[.response r], rfl, hs.symm⟩
  | register _ _ hs | detaches _ _ hs => exact ⟨[.response okResponse], rfl, hs.symm⟩
  | attaches _ _ _ _ hi => exact ⟨[.response okResponse], rfl, hi ▸ rfl⟩
  | sends fs hi => exact ⟨[.response (sendResponse s.sendAnswer), .send (s.getF fs).toPort s.sendAnswer], rfl, hi ▸ rfl⟩
  | builds _ t d c len pl hi =>
    exact ⟨[.response (sendResponse s.sendAnswer), .send (mkFrame t d c len pl).toPort s.sendAnswer], rfl, hi ▸ rfl⟩
  | polls _ hi _ ho => exact hi ▸ ho.sends_nothing

/-- A command makes at most one send request, so its requests read the same in both directions. -/
theorem reverse_sends (i : Instr) (s : State) : (sends i s).reverse = sends i s := by cases i <;> rfl

theorem execAll_cons {i : Instr} {s t : State} (is : List Instr) (h : exec i s = .next t) :
    execAll (i :: is) s = execAll is t := by
  simp only [execAll, h]

theorem sendsAll_cons {i : Instr} {s t : State} (is : List Instr) (h : exec i s = .next t) :
    sendsAll (i :: is) s = sends i s ++ sendsAll is t := by
  simp only [sendsAll, h]

/-- The send requests of a sequence of commands, newest first as the record is. -/
theorem sentFrames_execAll (cmds : List Instr) {s t : State} (h : execAll cmds s = .next t) :
    ∃ es, t.trace = es ++ s.trace ∧ sentFrames es = (sendsAll cmds s).reverse := by
  induction cmds generalizing s with
  | nil => cases h; exact ⟨[], rfl, rfl⟩
  | cons i is ih =>
    obtain ⟨u, hu, he⟩ := exec_effect i s
    rw [execAll_cons is hu] at h
    obtain ⟨es₁, htr₁, hs₁⟩ := he.sentFrames_eq
    obtain ⟨es₂, htr₂, hs₂⟩ := ih h
    refine ⟨es₂ ++ es₁, by rw [htr₂, htr₁, List.append_assoc], ?_⟩
    rw [sentFrames_append, hs₁, hs₂, sendsAll_cons is hu, List.reverse_append, reverse_sends]

/-- Settles O54: per command by its effect, over a sequence by induction; POLL, which takes from the queue, sends nothing. -/
theorem sendsAreMadeInCommandOrder : Obligations.SendsAreMadeInCommandOrder := by
  refine ⟨fun i s t h => (effect_of_exec h).sentFrames_eq, fun cmds s t h => sentFrames_execAll cmds h, ?_⟩
  intro i s t h hs
  have he := effect_of_exec h
  have hi : i ≠ .poll := fun e => hs (e ▸ rfl)
  obtain ⟨-, -, hq⟩ := he.pollState hi
  obtain ⟨-, -, -, hmore⟩ := he.outside
  exact ⟨hq, hmore⟩

/-! ### Bytes, ids and flags that a command leaves (R50, R57) -/

/-- A command changes no byte that it does not store to. -/
theorem Effect.byte_eq {i : Instr} {s t : State} (h : Effect i s t) {k : FReg} {a : Nat} (ha : a < 8)
    (hs : storesTo i k a = false) : (t.getF k).byte a = (s.getF k).byte a := by
  cases h with
  | answers | attaches | detaches | sends => rfl
  | register k' fr _ _ _ _ hb =>
    rw [State.getF_respond, State.getF_setF]
    split
    · next e => subst e; exact hb a ha hs
    · rfl
  | builds fd ty d c len pl hi =>
    subst hi
    have hk : k ≠ fd := fun e => by simp [storesTo, e] at hs
    rw [State.getF_respond, State.getF_xcvSend, s.getF_setF_other _ hk]
  | polls _ hi _ ho =>
    subst hi
    rw [ho.getF (by simpa [storesTo] using hs)]
    rfl

/-- A command that writes a register without replacing it is a WRITE to it. -/
theorem write_of_writesReg {i : Instr} {k : FReg} (hw : writesReg i k = true) (hr : replacesReg i k = false) :
    ∃ start size v, i = .write k start size v := by
  cases i with
  | write fd start size v =>
    obtain rfl : fd = k := by simpa [writesReg] using hw
    exact ⟨start, size, v, rfl⟩
  | make | msend | fload | poll => exact absurd (hw.symm.trans hr) nofun
  | pack | unpack | rkey | read | attach | detachk | detachd | send | fstore | feq => cases hw

/-- WRITE leaves the id and the flags of its register. -/
theorem write_keeps_id_and_flags {k : FReg} {start size : Nat} {v : DWord} {s t : State}
    (h : exec (.write k start size v) s = .next t) :
    (t.getF k).id = (s.getF k).id ∧ (t.getF k).ext = (s.getF k).ext ∧ (t.getF k).rtr = (s.getF k).rtr ∧
      (t.getF k).err = (s.getF k).err := by
  rcases exec_write_cases k start size v s with ⟨-, e⟩ | ⟨-, -, e⟩ | ⟨-, -, e⟩ <;> rw [e] at h <;> cases h
  · exact ⟨rfl, rfl, rfl, rfl⟩
  · exact ⟨rfl, rfl, rfl, rfl⟩
  · rw [State.getF_respond, State.getF_setF_same]
    exact ⟨rfl, rfl, rfl, rfl⟩

/-- Settles O56: the bytes by the command's effect; a register that is not replaced is not written or is written by WRITE. -/
theorem commandsStoreOnlyTheBytesTheyName : Obligations.CommandsStoreOnlyTheBytesTheyName := by
  refine ⟨fun i s t h k a => (effect_of_exec h).byte_eq, fun i s t h k hr => ?_⟩
  cases hw : writesReg i k with
  | false => rw [(effect_of_exec h).getF_eq hw]; exact ⟨rfl, rfl, rfl, rfl⟩
  | true =>
    obtain ⟨start, size, v, rfl⟩ := write_of_writesReg hw hr
    exact write_keeps_id_and_flags h

end Sys2Proof.Machine
end

section
/-! Family `30_encoding.md`: the decoder's equations and the opcode map, what a step puts on the ports, and the statements about
the encoding and the ports. -/

namespace Sys2Proof

/-! ### The decoder, one equation per operation code (R77, R79) -/

theorem decode_reserved {cmd : Command} (hr : fieldRsv cmd.cw ≠ 0#2) : decode cmd = .error .reservedBits := by
  simp [decode, hr]

section
variable {cmd : Command} (hr : fieldRsv cmd.cw = 0#2)
include hr

theorem decode_unused (ho : fieldOp cmd.cw = 0x0#4 ∨ fieldOp cmd.cw = 0xF#4) : decode cmd = .error .unusedOpcode := by
  rcases ho with ho | ho <;> simp [decode, hr, ho]

theorem decode_pack (ho : fieldOp cmd.cw = 0x1#4) : decode cmd =
    ifZero (fieldF cmd.cw == 0#2) (.pack (fieldA cmd.cw) (fieldB cmd.cw) (fieldC cmd.cw)) := by
  simp [decode, hr, ho]

theorem decode_unpack (ho : fieldOp cmd.cw = 0x2#4) : decode cmd =
    ifZero (fieldF cmd.cw == 0#2 && fieldA cmd.cw == 0#8 && fieldB cmd.cw == 0#8 && fieldC cmd.cw == 0#8)
      (.unpack cmd.xdata) := by
  simp [decode, hr, ho]

theorem decode_rkey (ho : fieldOp cmd.cw = 0x3#4) : decode cmd =
    ifZero (fieldF cmd.cw == 0#2 && fieldA cmd.cw == 0#8 && fieldB cmd.cw == 0#8 && fieldC cmd.cw == 0#8)
      (.rkey cmd.xdata) := by
  simp [decode, hr, ho]

theorem decode_write (ho : fieldOp cmd.cw = 0x4#4) : decode cmd = ifZero (fieldC cmd.cw == 0#8)
    (.write (regOf (fieldF cmd.cw)) (fieldA cmd.cw).toNat (fieldB cmd.cw).toNat cmd.wdata) := by
  simp [decode, hr, ho]

theorem decode_read (ho : fieldOp cmd.cw = 0x5#4) : decode cmd = ifZero (fieldC cmd.cw == 0#8)
    (.read (regOf (fieldF cmd.cw)) (fieldA cmd.cw).toNat (fieldB cmd.cw).toNat) := by
  simp [decode, hr, ho]

theorem decode_make (ho : fieldOp cmd.cw = 0x6#4) : decode cmd = .ok
    (.make (regOf (fieldF cmd.cw)) (fieldA cmd.cw) (fieldB cmd.cw) (fieldC cmd.cw) cmd.xdata.toNat cmd.wdata) := by
  simp [decode, hr, ho]

theorem decode_msend (ho : fieldOp cmd.cw = 0x7#4) : decode cmd = .ok
    (.msend (regOf (fieldF cmd.cw)) (fieldA cmd.cw) (fieldB cmd.cw) (fieldC cmd.cw) cmd.xdata.toNat cmd.wdata) := by
  simp [decode, hr, ho]

theorem decode_attach (ho : fieldOp cmd.cw = 0x8#4) : decode cmd =
    ifZero (fieldF cmd.cw == 0#2 && fieldC cmd.cw == 0#8) (.attach (fieldA cmd.cw) (fieldB cmd.cw) cmd.xdata) := by
  simp [decode, hr, ho]

theorem decode_detachk (ho : fieldOp cmd.cw = 0x9#4) (hc : fieldC cmd.cw = 0x00#8) : decode cmd =
    ifZero (fieldF cmd.cw == 0#2) (.detachk (fieldA cmd.cw) (fieldB cmd.cw)) := by
  simp [decode, hr, ho, hc]

theorem decode_detachd (ho : fieldOp cmd.cw = 0x9#4) (hc : fieldC cmd.cw = 0x01#8) : decode cmd =
    ifZero (fieldF cmd.cw == 0#2) (.detachd (fieldA cmd.cw) (fieldB cmd.cw) cmd.xdata) := by
  simp [decode, hr, ho, hc]

theorem decode_detachSelector (ho : fieldOp cmd.cw = 0x9#4) (h0 : fieldC cmd.cw ≠ 0x00#8) (h1 : fieldC cmd.cw ≠ 0x01#8) :
    decode cmd = .error .detachSelector := by
  simp [decode, hr, ho, h0, h1]

theorem decode_poll (ho : fieldOp cmd.cw = 0xA#4) : decode cmd =
    ifZero (fieldF cmd.cw == 0#2 && fieldA cmd.cw == 0#8 && fieldB cmd.cw == 0#8 && fieldC cmd.cw == 0#8) .poll := by
  simp [decode, hr, ho]

theorem decode_send (ho : fieldOp cmd.cw = 0xB#4) : decode cmd =
    ifZero (fieldA cmd.cw == 0#8 && fieldB cmd.cw == 0#8 && fieldC cmd.cw == 0#8) (.send (regOf (fieldF cmd.cw))) := by
  simp [decode, hr, ho]

theorem decode_fload (ho : fieldOp cmd.cw = 0xC#4) : decode cmd =
    ifZero (fieldA cmd.cw == 0#8 && fieldB cmd.cw == 0#8 && !(fieldC cmd.cw).getLsbD 7)
      (.fload (regOf (fieldF cmd.cw)) cmd.xdata ((fieldC cmd.cw).extractLsb' 0 4) ((fieldC cmd.cw).getLsbD 4)
        ((fieldC cmd.cw).getLsbD 5) ((fieldC cmd.cw).getLsbD 6) cmd.wdata) := by
  simp [decode, hr, ho]

theorem decode_fstore (ho : fieldOp cmd.cw = 0xD#4) : decode cmd =
    ifZero (fieldA cmd.cw == 0#8 && fieldB cmd.cw == 0#8 && fieldC cmd.cw == 0#8)
      (.fstore (regOf (fieldF cmd.cw))) := by
  simp [decode, hr, ho]

theorem decode_feq (ho : fieldOp cmd.cw = 0xE#4) : decode cmd =
    ifZero ((fieldA cmd.cw).extractLsb' 2 6 == 0#6 && fieldB cmd.cw == 0#8 && fieldC cmd.cw == 0#8)
      (.feq (regOf (fieldF cmd.cw)) (regOf ((fieldA cmd.cw).extractLsb' 0 2))) := by
  simp [decode, hr, ho]

end

/-- Each instruction is read back by the equation of its operation code (R77). -/
theorem decode_encode {i : Instr} (h : i.wf = true) : decode (encode i) = .ok i := by
  cases i with
  | pack t d c => simp [encode, decode_pack, ifZero]
  | unpack x => simp [encode, decode_unpack, ifZero]
  | rkey x => simp [encode, decode_rkey, ifZero]
  | write fd start size v =>
    obtain ⟨hs, hn⟩ : start < 256 ∧ size < 256 := by simpa [Instr.wf] using h
    simp [encode, decode_write, ifZero, Nat.mod_eq_of_lt hs, Nat.mod_eq_of_lt hn]
  | read fs start size =>
    obtain ⟨hs, hn⟩ : start < 256 ∧ size < 256 := by simpa [Instr.wf] using h
    simp [encode, decode_read, ifZero, Nat.mod_eq_of_lt hs, Nat.mod_eq_of_lt hn]
  | make fd t d c len pl =>
    have hl : len < 4294967296 := by simpa [Instr.wf] using h
    simp [encode, decode_make, Nat.mod_eq_of_lt hl]
  | msend fd t d c len pl =>
    have hl : len < 4294967296 := by simpa [Instr.wf] using h
    simp [encode, decode_msend, Nat.mod_eq_of_lt hl]
  | attach t d x => simp [encode, decode_attach, ifZero]
  | detachk t d => simp [encode, decode_detachk, ifZero]
  | detachd t d x => simp [encode, decode_detachd, ifZero]
  | poll => simp [encode, decode_poll, ifZero]
  | send fs => simp [encode, decode_send, ifZero]
  | fload fd id dlc e r x data => simp [encode, decode_fload, ifZero]
  | fstore fs => simp [encode, decode_fstore, ifZero]
  | feq fa fb => simp [encode, decode_feq, ifZero]

/-- Settles O1: `decode_encode`. -/
theorem decodeEncodeRoundTrip : Obligations.DecodeEncodeRoundTrip := fun _ => decode_encode

/-! ### What a row of the opcode map says of the fields (R78) -/

section
variable {cw m p : Word} (h : cw &&& m = p)
include h

theorem fieldOp_of_match (hm : fieldOp m = 15#4) : fieldOp cw = fieldOp p := by
  obtain ⟨hop, -⟩ := fields_of_match h
  rw [← hop, hm, and_ones4]

theorem fieldF_of_match (hm : fieldF m = 3#2) : fieldF cw = fieldF p := by
  obtain ⟨-, hf, -⟩ := fields_of_match h
  rw [← hf, hm, and_ones2]

theorem fieldRsv_of_match (hm : fieldRsv m = 3#2) : fieldRsv cw = fieldRsv p := by
  obtain ⟨-, -, hrsv, -⟩ := fields_of_match h
  rw [← hrsv, hm, and_ones2]

theorem fieldA_of_match (hm : fieldA m = 255#8) : fieldA cw = fieldA p := by
  obtain ⟨-, -, -, ha, -⟩ := fields_of_match h
  rw [← ha, hm, and_ones8]

theorem fieldB_of_match (hm : fieldB m = 255#8) : fieldB cw = fieldB p := by
  obtain ⟨-, -, -, -, hb, -⟩ := fields_of_match h
  rw [← hb, hm, and_ones8]

theorem fieldC_of_match (hm : fieldC m = 255#8) : fieldC cw = fieldC p := by
  obtain ⟨-, -, -, -, -, hc⟩ := fields_of_match h
  rw [← hc, hm, and_ones8]

end

/-! ### The operands of a word that meets a row (R77, R78) -/

section
variable {cmd : Command}

theorem decode_of_matches_pack (h : cmd.cw &&& 0xFF000000#32 = 0x10000000#32) :
    decode cmd = .ok (.pack (fieldA cmd.cw) (fieldB cmd.cw) (fieldC cmd.cw)) := by
  rw [decode_pack (fieldRsv_of_match h rfl) (fieldOp_of_match h rfl), fieldF_of_match h rfl]
  rfl

theorem decode_of_word_unpack (h : cmd.cw = 0x20000000#32) : decode cmd = .ok (.unpack cmd.xdata) := by
  rw [decode_unpack (h ▸ rfl) (h ▸ rfl), h]
  rfl

theorem decode_of_word_rkey (h : cmd.cw = 0x30000000#32) : decode cmd = .ok (.rkey cmd.xdata) := by
  rw [decode_rkey (h ▸ rfl) (h ▸ rfl), h]
  rfl

theorem decode_of_matches_write (h : cmd.cw &&& 0xF30000FF#32 = 0x40000000#32) :
    decode cmd = .ok (.write (fieldF cmd.cw).toFin (fieldA cmd.cw).toNat (fieldB cmd.cw).toNat cmd.wdata) := by
  rw [decode_write (fieldRsv_of_match h rfl) (fieldOp_of_match h rfl), fieldC_of_match h rfl]
  rfl

theorem decode_of_matches_read (h : cmd.cw &&& 0xF30000FF#32 = 0x50000000#32) :
    decode cmd = .ok (.read (fieldF cmd.cw).toFin (fieldA cmd.cw).toNat (fieldB cmd.cw).toNat) := by
  rw [decode_read (fieldRsv_of_match h rfl) (fieldOp_of_match h rfl), fieldC_of_match h rfl]
  rfl

theorem decode_of_matches_make (h : cmd.cw &&& 0xF3000000#32 = 0x60000000#32) :
    decode cmd = .ok (.make (fieldF cmd.cw).toFin (fieldA cmd.cw) (fieldB cmd.cw) (fieldC cmd.cw)
      cmd.xdata.toNat cmd.wdata) :=
  decode_make (fieldRsv_of_match h rfl) (fieldOp_of_match h rfl)

theorem decode_of_matches_msend (h : cmd.cw &&& 0xF3000000#32 = 0x70000000#32) :
    decode cmd = .ok (.msend (fieldF cmd.cw).toFin (fieldA cmd.cw) (fieldB cmd.cw) (fieldC cmd.cw)
      cmd.xdata.toNat cmd.wdata) :=
  decode_msend (fieldRsv_of_match h rfl) (fieldOp_of_match h rfl)

theorem decode_of_matches_attach (h : cmd.cw &&& 0xFF0000FF#32 = 0x80000000#32) :
    decode cmd = .ok (.attach (fieldA cmd.cw) (fieldB cmd.cw) cmd.xdata) := by
  rw [decode_attach (fieldRsv_of_match h rfl) (fieldOp_of_match h rfl), fieldF_of_match h rfl, fieldC_of_match h rfl]
  rfl

theorem decode_of_matches_detachk (h : cmd.cw &&& 0xFF0000FF#32 = 0x90000000#32) :
    decode cmd = .ok (.detachk (fieldA cmd.cw) (fieldB cmd.cw)) := by
  rw [decode_detachk (fieldRsv_of_match h rfl) (fieldOp_of_match h rfl) (fieldC_of_match h rfl), fieldF_of_match h rfl]
  rfl

theorem decode_of_matches_detachd (h : cmd.cw &&& 0xFF0000FF#32 = 0x90000001#32) :
    decode cmd = .ok (.detachd (fieldA cmd.cw) (fieldB cmd.cw) cmd.xdata) := by
  rw [decode_detachd (fieldRsv_of_match h rfl) (fieldOp_of_match h rfl) (fieldC_of_match h rfl), fieldF_of_match h rfl]
  rfl

theorem decode_of_word_poll (h : cmd.cw = 0xA0000000#32) : decode cmd = .ok .poll := by
  rw [decode_poll (h ▸ rfl) (h ▸ rfl), h]
  rfl

theorem decode_of_matches_send (h : cmd.cw &&& 0xF3FFFFFF#32 = 0xB0000000#32) :
    decode cmd = .ok (.send (fieldF cmd.cw).toFin) := by
  rw [decode_send (fieldRsv_of_match h rfl) (fieldOp_of_match h rfl), fieldA_of_match h rfl, fieldB_of_match h rfl,
    fieldC_of_match h rfl]
  rfl

theorem decode_of_matches_fload (h : cmd.cw &&& 0xF3FFFF80#32 = 0xC0000000#32) :
    decode cmd = .ok (.fload (fieldF cmd.cw).toFin cmd.xdata ((fieldC cmd.cw).extractLsb' 0 4)
      ((fieldC cmd.cw).getLsbD 4) ((fieldC cmd.cw).getLsbD 5) ((fieldC cmd.cw).getLsbD 6) cmd.wdata) := by
  obtain ⟨-, -, -, -, -, hmc⟩ := fields_of_match h
  have hc : (fieldC cmd.cw)[7] = false := (and_bit7 _).1 hmc
  rw [decode_fload (fieldRsv_of_match h rfl) (fieldOp_of_match h rfl), fieldA_of_match h rfl, fieldB_of_match h rfl,
    BitVec.getLsbD_eq_getElem (by decide : 7 < 8), hc]
  rfl

theorem decode_of_matches_fstore (h : cmd.cw &&& 0xF3FFFFFF#32 = 0xD0000000#32) :
    decode cmd = .ok (.fstore (fieldF cmd.cw).toFin) := by
  rw [decode_fstore (fieldRsv_of_match h rfl) (fieldOp_of_match h rfl), fieldA_of_match h rfl, fieldB_of_match h rfl,
    fieldC_of_match h rfl]
  rfl

theorem decode_of_matches_feq (h : cmd.cw &&& 0xF3FCFFFF#32 = 0xE0000000#32) :
    decode cmd = .ok (.feq (fieldF cmd.cw).toFin ((fieldA cmd.cw).extractLsb' 0 2).toFin) := by
  obtain ⟨-, -, -, hma, -⟩ := fields_of_match h
  have ha : (fieldA cmd.cw).extractLsb' 2 6 = 0#6 := (and_high6 _).1 hma
  rw [decode_feq (fieldRsv_of_match h rfl) (fieldOp_of_match h rfl), ha, fieldB_of_match h rfl, fieldC_of_match h rfl]
  rfl

end

/-- A word that meets a row of the opcode map decodes to an instruction with the row's mnemonic. -/
theorem decode_of_row {r : OpcodeRow} (hr : r ∈ opcodeTable) {cmd : Command} (h : cmd.cw &&& r.mask = r.pattern) :
    ∃ i, decode cmd = .ok i ∧ i.mnemonic = r.mnemonic := by
  simp only [opcodeTable, List.mem_cons, List.not_mem_nil, or_false] at hr
  have hw := BitVec.and_allOnes (x := cmd.cw)
  rcases hr with rfl | rfl | rfl | rfl | rfl | rfl | rfl | rfl | rfl | rfl | rfl | rfl | rfl | rfl | rfl
  · exact ⟨_, decode_of_matches_pack h, rfl⟩
  · exact ⟨_, decode_of_word_unpack (hw ▸ h), rfl⟩
  · exact ⟨_, decode_of_word_rkey (hw ▸ h), rfl⟩
  · exact ⟨_, decode_of_matches_write h, rfl⟩
  · exact ⟨_, decode_of_matches_read h, rfl⟩
  · exact ⟨_, decode_of_matches_make h, rfl⟩
  · exact ⟨_, decode_of_matches_msend h, rfl⟩
  · exact ⟨_, decode_of_matches_attach h, rfl⟩
  · exact ⟨_, decode_of_matches_detachk h, rfl⟩
  · exact ⟨_, decode_of_matches_detachd h, rfl⟩
  · exact ⟨_, decode_of_word_poll (hw ▸ h), rfl⟩
  · exact ⟨_, decode_of_matches_send h, rfl⟩
  · exact ⟨_, decode_of_matches_fload h, rfl⟩
  · exact ⟨_, decode_of_matches_fstore h, rfl⟩
  · exact ⟨_, decode_of_matches_feq h, rfl⟩

/-- No word meets two rows: on the bits that both masks test, two rows have different patterns (R78). -/
theorem row_unique {r r' : OpcodeRow} (hr : r ∈ opcodeTable) (hr' : r' ∈ opcodeTable) {w : Word}
    (h : w &&& r.mask = r.pattern) (h' : w &&& r'.mask = r'.pattern) : r = r' := by
  have hdisjoint : ∀ r ∈ opcodeTable, ∀ r' ∈ opcodeTable, r.pattern &&& r'.mask = r'.pattern &&& r.mask → r = r' := by
    decide
  refine hdisjoint r hr r' hr' ?_
  rw [← h, ← h', BitVec.and_assoc, BitVec.and_assoc, BitVec.and_comm r.mask]

theorem exists_row (i : Instr) : ∃ r ∈ opcodeTable, r.mnemonic = i.mnemonic := by
  cases i <;> simp [opcodeTable, Instr.mnemonic]

/-- Every instruction is encoded to a word that meets its row. -/
theorem encode_meets_row (i : Instr) : Laws.EncodesItsRow.Statement i := by
  cases i with
  | pack t d c => exact Laws.EncodesItsRow.pack t d c
  | unpack x => exact Laws.EncodesItsRow.unpack x
  | rkey x => exact Laws.EncodesItsRow.rkey x
  | write fd start size v => exact Laws.EncodesItsRow.write fd start size v
  | read fs start size => exact Laws.EncodesItsRow.read fs start size
  | make fd t d c len pl => exact Laws.EncodesItsRow.make fd t d c len pl
  | msend fd t d c len pl => exact Laws.EncodesItsRow.msend fd t d c len pl
  | attach t d x => exact Laws.EncodesItsRow.attach t d x
  | detachk t d => exact Laws.EncodesItsRow.detachk t d
  | detachd t d x => exact Laws.EncodesItsRow.detachd t d x
  | poll => exact Laws.EncodesItsRow.poll
  | send fs => exact Laws.EncodesItsRow.send fs
  | fload fd id dlc e r x data => exact Laws.EncodesItsRow.fload fd id dlc e r x data
  | fstore fs => exact Laws.EncodesItsRow.fstore fs
  | feq fa fb => exact Laws.EncodesItsRow.feq fa fb

/-! ### A legal command is an encoding (R77) -/

/-- A word with `rsv = 00` is composed of its other fields. -/
theorem mkWord_eq_of_fields {cw : Word} {op : BitVec 4} {f : BitVec 2} {a b c : Byte} (hr : fieldRsv cw = 0#2)
    (ho : fieldOp cw = op) (hf : fieldF cw = f) (ha : fieldA cw = a) (hb : fieldB cw = b) (hc : fieldC cw = c) :
    mkWord op f a b c = cw := by
  subst ho hf ha hb hc
  rw [mkWord_eq, ← hr, joinWord_fields]

theorem fieldRsv_of_decode {cmd : Command} {i : Instr} (h : decode cmd = .ok i) : fieldRsv cmd.cw = 0#2 := by
  by_contra hr
  rw [decode_reserved hr] at h
  cases h

/-- Settles O2: the equation of the operation code gives the instruction and the fields that are zero, and the word is composed
of its fields. -/
theorem legalWordHasOneMeaning : Obligations.LegalWordHasOneMeaning := by
  intro cmd i h
  have hr := fieldRsv_of_decode h
  rcases op_cases (fieldOp cmd.cw) with ho | ho | ho | ho | ho | ho | ho | ho | ho | ho | ho | ho | ho | ho | ho | ho
  · rw [decode_unused hr (.inl ho)] at h
    cases h
  · simp only [decode_pack hr ho, ifZero_ok, beq_iff_eq] at h
    obtain ⟨hf, rfl⟩ := h
    exact ⟨rfl, mkWord_eq_of_fields hr ho hf rfl rfl rfl, .inr rfl, .inr rfl⟩
  · simp only [decode_unpack hr ho, ifZero_ok, Bool.and_eq_true, beq_iff_eq] at h
    obtain ⟨⟨⟨⟨hf, ha⟩, hb⟩, hc⟩, rfl⟩ := h
    exact ⟨rfl, mkWord_eq_of_fields hr ho hf ha hb hc, .inl rfl, .inr rfl⟩
  · simp only [decode_rkey hr ho, ifZero_ok, Bool.and_eq_true, beq_iff_eq] at h
    obtain ⟨⟨⟨⟨hf, ha⟩, hb⟩, hc⟩, rfl⟩ := h
    exact ⟨rfl, mkWord_eq_of_fields hr ho hf ha hb hc, .inl rfl, .inr rfl⟩
  · simp only [decode_write hr ho, ifZero_ok, beq_iff_eq] at h
    obtain ⟨hc, rfl⟩ := h
    have hwf := And.intro (fieldA cmd.cw).isLt (fieldB cmd.cw).isLt
    exact ⟨by simpa [Instr.wf] using hwf, mkWord_eq_of_fields hr ho (by simp) (by simp) (by simp) hc, .inr rfl, .inl rfl⟩
  · simp only [decode_read hr ho, ifZero_ok, beq_iff_eq] at h
    obtain ⟨hc, rfl⟩ := h
    have hwf := And.intro (fieldA cmd.cw).isLt (fieldB cmd.cw).isLt
    exact ⟨by simpa [Instr.wf] using hwf, mkWord_eq_of_fields hr ho (by simp) (by simp) (by simp) hc, .inr rfl, .inr rfl⟩
  · rw [decode_make hr ho] at h
    cases h
    exact ⟨by simpa [Instr.wf] using cmd.xdata.isLt, mkWord_eq_of_fields hr ho (by simp) rfl rfl rfl,
      .inl (by simp [encode]), .inl rfl⟩
  · rw [decode_msend hr ho] at h
    cases h
    exact ⟨by simpa [Instr.wf] using cmd.xdata.isLt, mkWord_eq_of_fields hr ho (by simp) rfl rfl rfl,
      .inl (by simp [encode]), .inl rfl⟩
  · simp only [decode_attach hr ho, ifZero_ok, Bool.and_eq_true, beq_iff_eq] at h
    obtain ⟨⟨hf, hc⟩, rfl⟩ := h
    exact ⟨rfl, mkWord_eq_of_fields hr ho hf rfl rfl hc, .inl rfl, .inr rfl⟩
  · by_cases h0 : fieldC cmd.cw = 0x00#8
    · simp only [decode_detachk hr ho h0, ifZero_ok, beq_iff_eq] at h
      obtain ⟨hf, rfl⟩ := h
      exact ⟨rfl, mkWord_eq_of_fields hr ho hf rfl rfl h0, .inr rfl, .inr rfl⟩
    · by_cases h1 : fieldC cmd.cw = 0x01#8
      · simp only [decode_detachd hr ho h1, ifZero_ok, beq_iff_eq] at h
        obtain ⟨hf, rfl⟩ := h
        exact ⟨rfl, mkWord_eq_of_fields hr ho hf rfl rfl h1, .inl rfl, .inr rfl⟩
      · rw [decode_detachSelector hr ho h0 h1] at h
        cases h
  · simp only [decode_poll hr ho, ifZero_ok, Bool.and_eq_true, beq_iff_eq] at h
    obtain ⟨⟨⟨⟨hf, ha⟩, hb⟩, hc⟩, rfl⟩ := h
    exact ⟨rfl, mkWord_eq_of_fields hr ho hf ha hb hc, .inr rfl, .inr rfl⟩
  · simp only [decode_send hr ho, ifZero_ok, Bool.and_eq_true, beq_iff_eq] at h
    obtain ⟨⟨⟨ha, hb⟩, hc⟩, rfl⟩ := h
    exact ⟨rfl, mkWord_eq_of_fields hr ho (by simp) ha hb hc, .inr rfl, .inr rfl⟩
  · simp only [decode_fload hr ho, ifZero_ok, Bool.and_eq_true, beq_iff_eq, Bool.not_eq_true'] at h
    obtain ⟨⟨⟨ha, hb⟩, hc⟩, rfl⟩ := h
    exact ⟨rfl, mkWord_eq_of_fields hr ho (by simp) ha hb (floadC_eta _ hc).symm, .inl rfl, .inl rfl⟩
  · simp only [decode_fstore hr ho, ifZero_ok, Bool.and_eq_true, beq_iff_eq] at h
    obtain ⟨⟨⟨ha, hb⟩, hc⟩, rfl⟩ := h
    exact ⟨rfl, mkWord_eq_of_fields hr ho (by simp) ha hb hc, .inr rfl, .inr rfl⟩
  · simp only [decode_feq hr ho, ifZero_ok, Bool.and_eq_true, beq_iff_eq] at h
    obtain ⟨⟨⟨ha, hb⟩, hc⟩, rfl⟩ := h
    refine ⟨rfl, mkWord_eq_of_fields hr ho (by simp) ?_ hb hc, .inr rfl, .inr rfl⟩
    rw [regBits_regOf, feqA_eta _ ha]
  · rw [decode_unused hr (.inr ho)] at h
    cases h

/-! ### The illegal words (R79) -/

/-- `ifZero` refuses exactly when a field is not zero. -/
theorem ifZero_error {z : Bool} {i : Instr} : (∃ e, ifZero z i = .error e) ↔ z = false := by
  cases z <;> simp [ifZero]

theorem ifZero_map {α : Type} (g : Instr → α) (z : Bool) (i : Instr) :
    (ifZero z i).map g = if z then .ok (g i) else .error .fieldNotZero := by
  cases z <;> rfl

/-- The illegal command words, by the fields that R77 marks "0" for each operation code (R79). -/
def illegalFields (cw : Word) : Prop :=
  fieldOp cw = 0x0#4 ∨ fieldOp cw = 0xF#4 ∨ fieldRsv cw ≠ 0#2 ∨
  (fieldF cw ≠ 0#2 ∧ fieldOp cw ∈ [0x1#4, 0x2#4, 0x3#4, 0x8#4, 0x9#4, 0xA#4]) ∨
  (fieldA cw ≠ 0#8 ∧ fieldOp cw ∈ [0x2#4, 0x3#4, 0xA#4, 0xB#4, 0xC#4, 0xD#4]) ∨
  ((fieldA cw).extractLsb' 2 6 ≠ 0#6 ∧ fieldOp cw = 0xE#4) ∨
  (fieldB cw ≠ 0#8 ∧ fieldOp cw ∈ [0x2#4, 0x3#4, 0xA#4, 0xB#4, 0xC#4, 0xD#4, 0xE#4]) ∨
  (fieldC cw ≠ 0#8 ∧ fieldOp cw ∈ [0x2#4, 0x3#4, 0x4#4, 0x5#4, 0x8#4, 0xA#4, 0xB#4, 0xD#4, 0xE#4]) ∨
  ((fieldC cw).getLsbD 7 = true ∧ fieldOp cw = 0xC#4) ∨
  (fieldOp cw = 0x9#4 ∧ fieldC cw ≠ 0x00#8 ∧ fieldC cw ≠ 0x01#8)

/-- A command is illegal exactly when its word is (R79). -/
theorem decode_error_iff (cmd : Command) : (∃ e, decode cmd = .error e) ↔ illegalFields cmd.cw := by
  unfold illegalFields
  by_cases hr : fieldRsv cmd.cw = 0#2
  · rcases op_cases (fieldOp cmd.cw) with ho | ho | ho | ho | ho | ho | ho | ho | ho | ho | ho | ho | ho | ho | ho | ho
    · simp [decode_unused hr (.inl ho), ho]
    · simp [decode_pack hr ho, ifZero_error, ho, hr]
    · simp [decode_unpack hr ho, ifZero_error, ho, hr, imp_iff_not_or, or_assoc]
    · simp [decode_rkey hr ho, ifZero_error, ho, hr, imp_iff_not_or, or_assoc]
    · simp [decode_write hr ho, ifZero_error, ho, hr]
    · simp [decode_read hr ho, ifZero_error, ho, hr]
    · simp [decode_make hr ho, ho, hr]
    · simp [decode_msend hr ho, ho, hr]
    · simp [decode_attach hr ho, ifZero_error, ho, hr, imp_iff_not_or]
    · by_cases h0 : fieldC cmd.cw = 0x00#8
      · simp [decode_detachk hr ho h0, ifZero_error, ho, hr, h0]
      · by_cases h1 : fieldC cmd.cw = 0x01#8
        · simp [decode_detachd hr ho h1, ifZero_error, ho, hr, h1]
        · simp [decode_detachSelector hr ho h0 h1, ho, h0, h1]
    · simp [decode_poll hr ho, ifZero_error, ho, hr, imp_iff_not_or, or_assoc]
    · simp [decode_send hr ho, ifZero_error, ho, hr, imp_iff_not_or, or_assoc]
    · simp [decode_fload hr ho, ifZero_error, ho, hr, imp_iff_not_or, or_assoc]
    · simp [decode_fstore hr ho, ifZero_error, ho, hr, imp_iff_not_or, or_assoc]
    · simp [decode_feq hr ho, ifZero_error, ho, hr, imp_iff_not_or, or_assoc]
    · simp [decode_unused hr (.inr ho), ho]
  · simp [decode_reserved hr, hr]

/-- Which operation a command selects, and why it is illegal, is in `cw` alone: the two decodings take the same branch, and the
operands are not part of a mnemonic (R79). -/
theorem decode_mnemonic_congr {cmd cmd' : Command} (hcw : cmd.cw = cmd'.cw) :
    (decode cmd).map Instr.mnemonic = (decode cmd').map Instr.mnemonic := by
  unfold decode
  rw [hcw]
  split
  · rfl
  · split <;> simp only [ifZero_map, apply_ite (Except.map Instr.mnemonic)] <;> rfl

/-- A legal command meets one row of the opcode map, that of its instruction. -/
theorem existsUnique_row_of_decode {cmd : Command} {i : Instr} (h : decode cmd = .ok i) :
    ∃! r, r ∈ opcodeTable ∧ cmd.cw &&& r.mask = r.pattern := by
  obtain ⟨r, hr, hm⟩ := exists_row i
  obtain ⟨-, hcw, -⟩ := legalWordHasOneMeaning cmd i h
  have hmeets : cmd.cw &&& r.mask = r.pattern := hcw ▸ encode_meets_row i r hr hm
  exact ⟨r, ⟨hr, hmeets⟩, fun r' ⟨hr', hmeets'⟩ => row_unique hr' hr hmeets' hmeets⟩

/-- Settles O4: the illegal words field by field, and the row of every legal one. -/
theorem illegalWordsAreExactlyThese : Obligations.IllegalWordsAreExactlyThese := by
  refine ⟨decode_error_iff, fun cmd => ?_, fun cmd e s h => ?_, fun _ _ => decode_mnemonic_congr⟩
  · cases h : decode cmd with
    | ok i => exact .inl (existsUnique_row_of_decode h)
    | error e => exact .inr ⟨e, rfl⟩
  · simp only [Machine.runCommand, h]
    rfl

/-- Settles O3: a word that meets a row decodes by it, and a legal word meets the row of its instruction, as its encoding does. -/
theorem decoderFollowsOpcodeMap : Obligations.DecoderFollowsOpcodeMap := by
  refine ⟨fun r hr cmd => ⟨decode_of_row hr, ?_⟩, fun r hr r' hr' w => row_unique hr hr', fun cmd ho i h => ?_⟩
  · rintro ⟨i, h, hm⟩
    obtain ⟨-, hcw, -⟩ := legalWordHasOneMeaning cmd i h
    exact hcw ▸ encode_meets_row i r hr hm.symm
  · obtain ⟨e, he⟩ := (decode_error_iff cmd).2 (ho.imp_right .inl)
    rw [he] at h
    cases h

end Sys2Proof

namespace Sys2Proof.Machine

/-! ### What a step puts on the ports is well formed (R80, R201, R24) -/

/-- A record of which every event is well formed. -/
def RecordWf (tr : List PortEvent) : Prop := ∀ e ∈ tr, e.wf

theorem recordWf_cons {e : PortEvent} {tr : List PortEvent} : RecordWf (e :: tr) ↔ e.wf ∧ RecordWf tr :=
  List.forall_mem_cons

theorem RecordWf.response {tr : List PortEvent} (h : RecordWf tr) {r : Response} (hr : r.wf) :
    RecordWf (.response r :: tr) :=
  recordWf_cons.2 ⟨hr, h⟩

/-- What is received may be any signals. -/
theorem RecordWf.receive {tr : List PortEvent} (h : RecordWf tr) (a : Option PortFrame) : RecordWf (.receive a :: tr) :=
  recordWf_cons.2 ⟨trivial, h⟩

theorem RecordWf.received {tr : List PortEvent} (h : RecordWf tr) (q : List PortFrame) : RecordWf (received q ++ tr) := by
  induction q generalizing tr with
  | nil => exact h
  | cons p q ih =>
    rw [received_cons]
    exact ih (h.receive (some p))

theorem RecordWf.send {tr : List PortEvent} (h : RecordWf tr) {fr : Frame} (hfr : fr.wf) (a : Bool) :
    RecordWf (.send fr.toPort a :: tr) :=
  recordWf_cons.2 ⟨Frame.toPort_wf hfr, h⟩

theorem RecordWf.dispatch {tr : List PortEvent} (h : RecordWf tr) {fr : Frame} (hfr : fr.wf) (w : Word) :
    RecordWf (.dispatch w fr.toPort :: tr) :=
  recordWf_cons.2 ⟨Frame.toPort_wf hfr, h⟩

/-- A drain responds, receives, and dispatches a Frame that `norm` made (R143). -/
theorem DrainOutcome.recordWf {s t : State} (h : DrainOutcome s t) (hs : RecordWf s.trace) : RecordWf t.trace := by
  cases h with
  | ends => exact ((hs.received _).receive none).response okResponse_wf
  | dispatches pre p _ fr sl _ _ hn => exact ((hs.received pre).receive (some p)).dispatch (normFrame_wf hn) sl.href
  | waits => exact hs.received _

/-- A command responds, and sends what a register holds or a frame that it has built (R180, R182). -/
theorem Effect.recordWf {i : Instr} {s t : State} (h : Effect i s t) (hf : ∀ k : FReg, (s.getF k).wf)
    (hs : RecordWf s.trace) : RecordWf t.trace := by
  cases h with
  | answers r hr => exact hs.response hr
  | register | attaches | detaches => exact hs.response okResponse_wf
  | sends fs => exact (hs.send (hf fs) _).response (sendResponse_wf _)
  | builds => exact (hs.send (mkFrame_wf ..) _).response (sendResponse_wf _)
  | polls _ _ _ ho => exact ho.recordWf hs

theorem StepEffect.recordWf {s t : State} (h : StepEffect s t) (hf : ∀ k : FReg, (s.getF k).wf) (hs : RecordWf s.trace) :
    RecordWf t.trace := by
  cases h with
  | holds | unaccepted | unasked | reset | resetIdle | queue => exact hs
  | command _ _ _ _ _ _ _ _ he => exact he.recordWf hf hs
  | illegal => exact hs.response (failResponse_wf .illegal nofun)
  | completion _ _ _ _ _ ho => exact ho.recordWf hs
  | queueDrains _ _ _ _ _ _ ho => exact ho.recordWf hs

/-- Settles O14: Frames in the registers, which `Inv` gives, make Frames on the send port. -/
theorem portTrafficIsWellFormed : Obligations.PortTrafficIsWellFormed :=
  fun _ _ hinv hs h => (step_effect h).recordWf (StoredWf.of_inv hinv).regs hs

/-! ### One response for every command (R80) -/

@[simp] theorem responses_send (p : PortFrame) (a : Bool) (tr : List PortEvent) :
    responses (.send p a :: tr) = responses tr :=
  List.countP_cons_of_neg nofun

/-- Responses given and commands still open: what R80 counts. -/
def taken (s : State) : Nat := responses s.trace + openCommands s

/-- A drain of an open POLL responds to it or leaves it open. -/
theorem DrainOutcome.taken_eq {s t : State} (h : DrainOutcome s t) (hp : s.inPoll = true) : taken t = taken s := by
  cases h with
  | ends | dispatches | waits => simp [taken, openCommands, hp]

theorem taken_of_response {s t : State} (htr : responses t.trace = responses s.trace + 1) (hp : t.inPoll = s.inPoll) :
    taken t = taken s + 1 := by
  simp only [taken, openCommands, htr, hp]
  omega

/-- A command responds, or is a POLL that is now open. -/
theorem Effect.taken_eq {i : Instr} {s t : State} (h : Effect i s t) : taken t = taken s + 1 := by
  cases h with
  | answers | register | attaches | detaches => exact taken_of_response (responses_response ..) rfl
  | sends | builds => exact taken_of_response (by simp) rfl
  | polls _ _ hn ho =>
    rw [ho.taken_eq rfl]
    simp [taken, openCommands, hn]

/-- An accepted command is counted once, a legal one by its effect and an illegal one by its response. -/
theorem taken_of_accepted {s t : State} {cmd : Command} {rest : List Input} (hin : s.input = .command cmd :: rest)
    (hw : s.draining = false) (hr : s.inReset = false) (h : step s = .next t) : taken t = taken s + 1 := by
  rw [step_accepted hin hw hr] at h
  rcases runCommand_cases h with ⟨i, -, he⟩ | ⟨e, -, rfl⟩
  · exact he.taken_eq
  · exact taken_of_response (responses_response ..) rfl

/-- A step that accepts no command and takes no level of the reset input counts nothing: a completion and an arrival resume a
POLL that is counted already. -/
theorem StepEffect.taken_eq {s t : State} (h : StepEffect s t) (hinv : Inv s) (hb : ∀ b rest, s.input ≠ .reset b :: rest)
    (hc : ¬ ∃ cmd rest, s.input = .command cmd :: rest ∧ s.draining = false ∧ s.inReset = false) : taken t = taken s := by
  cases h with
  | holds | unaccepted | unasked | queue => rfl
  | command c rest _ _ hin hw hr | illegal c rest _ hin hw hr => exact absurd ⟨c, rest, hin, hw, hr⟩ hc
  | reset b rest hin | resetIdle rest hin => exact absurd hin (hb _ rest)
  | completion _ _ _ _ hd ho => exact ho.taken_eq (hinv.inPoll_of_dispatch hd)
  | queueDrains _ _ _ _ _ hw ho => exact ho.taken_eq ((draining_iff s).1 hw).1

/-- Settles O15, by whether the step accepts a command. -/
theorem everyCommandGetsOneResponse : Obligations.EveryCommandGetsOneResponse := by
  intro s t hinv h hb
  refine ⟨?_, (step_effect h).taken_eq hinv hb⟩
  rintro ⟨cmd, rest, hin, hw, hr⟩
  exact taken_of_accepted hin hw hr h

/-! ### Frames on the ports (R75) -/

@[simp] theorem State.setF_sendAnswer (i : FReg) (fr : Frame) (s : State) : (s.setF i fr).sendAnswer = s.sendAnswer := rfl

/-- `rmeta` carries the `dlc` and the flags of the signals, each in its place (R80, R146). -/
theorem PortFrame.metaBits_fields (p : PortFrame) : p.metaBits.extractLsb' 0 4 = p.dlc ∧ p.metaBits.getLsbD 4 = p.ext ∧
    p.metaBits.getLsbD 5 = p.rtr ∧ p.metaBits.getLsbD 6 = p.err := by
  have h : ∀ (dlc : BitVec 4) (e r x : Bool),
      let m := BitVec.ofBool x ++ BitVec.ofBool r ++ BitVec.ofBool e ++ dlc
      m.extractLsb' 0 4 = dlc ∧ m.getLsbD 4 = e ∧ m.getLsbD 5 = r ∧ m.getLsbD 6 = x := by decide
  exact h p.dlc p.ext p.rtr p.err

/-- FLOAD of the signals of a Frame loads that Frame (R144, R75). -/
theorem exec_fload_toPort (fd : FReg) {fr : Frame} (h : fr.wf) (s : State) :
    exec (.fload fd fr.toPort.id fr.toPort.dlc fr.toPort.ext fr.toPort.rtr fr.toPort.err fr.toPort.data) s =
      .next ((s.setF fd fr).respond okResponse) := by
  have hn : normFrame ⟨fr.toPort.id, fr.toPort.data, fr.toPort.dlc, fr.toPort.ext, fr.toPort.rtr, fr.toPort.err⟩ = some fr :=
    normFrame_toPort h
  simp only [exec, execFload, hn]

/-- POLL with a Frame at the head of the queue whose key is registered dispatches it (R170, R208). -/
theorem exec_poll_routed {s : State} {fr : Frame} {w : Word} {q : List PortFrame} (hp : s.inPoll = false) (h : fr.wf)
    (hr : route s.rt fr.id = some w) (hq : s.rxq = fr.toPort :: q) : exec .poll s =
      .next (enterDispatch w fr (({ s with inPoll := true, rxq := q } : State).emit (.receive (some fr.toPort)))) := by
  have hdrain := drain_cons_routed (s := { s with inPoll := true }) q (normFrame_toPort h) hr
  rw [← hq] at hdrain
  simp only [exec, execPoll, hp, hdrain, Bool.false_eq_true, if_false]

/-- Settles O57, port by port. -/
theorem framesCrossPortsAsTheirSignals : Obligations.FramesCrossPortsAsTheirSignals := by
  refine ⟨fun fr h => ?_, fun p hp => ?_, ?_, fun fs s => ?_, fun fs s => ?_, ?_, fun fr w q s hp h hr hq => ?_⟩
  · exact ⟨rfl, fun j => fr.laneOf_toPort_data, Frame.toPort_dlc h.1, rfl, rfl, rfl⟩
  · exact if_pos hp
  · intro cmd fr s hm h hid hdata hdlc hext hrtr herr
    rw [runCommand_of_decode (decode_of_matches_fload hm), hid, hdata, hdlc, hext, hrtr, herr]
    exact exec_fload_toPort _ h s
  · exact ⟨_, rfl, (s.getF fs).toPort.metaBits_fields⟩
  · exact ⟨s.sendAnswer, _, rfl, by simp [sendResponse_event]⟩
  · intro fd ty d c len pl s
    exact ⟨s.sendAnswer, _, rfl, by simp [sendResponse_event]⟩
  · exact exec_poll_routed hp h hr hq

/-! ### Words written out, and the pseudo-commands (R77, R87) -/

/-- Settles O5: the seven closed words are decoded by evaluation. -/
theorem decodesWordsWrittenOut : Obligations.DecodesWordsWrittenOut := by
  unfold Obligations.DecodesWordsWrittenOut
  decide

/-- Settles O37: FCLR is FLOAD of the signals of `ZERO_FRAME`, and KEYOF is PACK with command 0. -/
theorem pseudoCommandsDoWhatTheySay : Obligations.PseudoCommandsDoWhatTheySay := by
  refine ⟨fun fd s => exec_fload_toPort fd zeroFrame_wf s, fun ty d s => ?_⟩
  rw [devKey_eq_pack]
  rfl

end Sys2Proof.Machine
end

section
/-! Family `40_identifier_codec.md`: the responses of PACK, UNPACK and RKEY, the identifier and its fields in both directions, the
routing key as a map on words, and the statements about the identifier codec. -/

namespace Sys2Proof.Machine

/-! ### The responses of the codec's commands (R100, R103, R106) -/

theorem exec_pack (t d c : Byte) (s : State) : exec (.pack t d c) s =
    .next { s with trace := okWith ((pack t d c).setWidth 32) 0#64 0#7 :: s.trace } := rfl

theorem exec_unpack (i : Word) (s : State) : exec (.unpack i) s =
    .next { s with trace := okWith (unpackWord s.cfg i) 0#64 0#7 :: s.trace } := rfl

theorem exec_rkey (i : Word) (s : State) : exec (.rkey i) s =
    .next { s with trace := okWith (rkey i) 0#64 0#7 :: s.trace } := rfl

/-! ### The identifier and its fields (R70, R105) -/

/-- An identifier on 32 bits is the same number. -/
theorem toNat_setWidth_ident (k : Ident) : (k.setWidth 32).toNat = k.toNat :=
  BitVec.toNat_setWidth_of_le (by decide)

theorem pack_setWidth_eq (t d c : Byte) :
    (pack t d c).setWidth 32 = BitVec.ofNat 32 (t.toNat % 16 * 128 + d.toNat % 16 * 8 + c.toNat % 8) := by
  rw [← toNat_pack, BitVec.ofNat_toNat]

theorem pack_toNat_le (t d c : Byte) : (pack t d c).toNat ≤ 0x7FF := Nat.le_of_lt_succ (pack t d c).isLt

/-- PACK masks its operands (R82 a). -/
theorem pack_masked (t d c : Byte) : pack t d c = pack (t &&& 0xF#8) (d &&& 0xF#8) (c &&& 0x7#8) := by
  apply BitVec.eq_of_toNat_eq
  simp [toNat_pack, and_15, and_7]

theorem pack_injective {t d c t' d' c' : Byte} (ht : t.toNat ≤ 15) (hd : d.toNat ≤ 15) (hc : c.toNat ≤ 7)
    (ht' : t'.toNat ≤ 15) (hd' : d'.toNat ≤ 15) (hc' : c'.toNat ≤ 7) (h : pack t d c = pack t' d' c') :
    t = t' ∧ d = d' ∧ c = c' := by
  have hn := congrArg BitVec.toNat h
  rw [toNat_pack, toNat_pack] at hn
  refine ⟨BitVec.eq_of_toNat_eq ?_, BitVec.eq_of_toNat_eq ?_, BitVec.eq_of_toNat_eq ?_⟩ <;> omega

theorem identType_pack (t d c : Byte) : (identType ((pack t d c).setWidth 32)).toNat = t.toNat % 16 := by
  rw [toNat_identType, toNat_setWidth_ident, toNat_pack]
  omega

theorem identDev_pack (t d c : Byte) : (identDev ((pack t d c).setWidth 32)).toNat = d.toNat % 16 := by
  rw [toNat_identDev, toNat_setWidth_ident, toNat_pack]
  omega

theorem identCommand_pack (t d c : Byte) : (identCommand ((pack t d c).setWidth 32)).toNat = c.toNat % 8 := by
  rw [toNat_identCommand, toNat_setWidth_ident, toNat_pack]
  omega

/-- A 4-bit field given as an operand is not changed by the mask (R82 a). -/
theorem toNat_setWidth_field (x : BitVec 4) : (x.setWidth 8).toNat = x.toNat := BitVec.toNat_setWidth_of_le (by decide)

theorem toNat_setWidth_command (x : BitVec 3) : (x.setWidth 8).toNat = x.toNat := BitVec.toNat_setWidth_of_le (by decide)

/-- A 4-bit field is in the range of a valid triple (R101). -/
theorem setWidth_field_le (x : BitVec 4) : (x.setWidth 8).toNat ≤ 15 :=
  (toNat_setWidth_field x).trans_le (Nat.le_of_lt_succ x.isLt)

theorem setWidth_command_le (x : BitVec 3) : (x.setWidth 8).toNat ≤ 7 :=
  (toNat_setWidth_command x).trans_le (Nat.le_of_lt_succ x.isLt)

/-- Packing the fields of a word gives its low 11 bits, as a number (R105 c). -/
theorem toNat_pack_fields (i : Word) :
    (pack ((identType i).setWidth 8) ((identDev i).setWidth 8) ((identCommand i).setWidth 8)).toNat =
      i.toNat % 2048 := by
  rw [toNat_pack, toNat_setWidth_field, toNat_setWidth_field, toNat_setWidth_command, toNat_identType, toNat_identDev,
    toNat_identCommand]
  omega

theorem toNat_and_identMask (i : Word) : (i &&& 0x7FF#32).toNat = i.toNat % 2048 :=
  Nat.and_two_pow_sub_one_eq_mod i.toNat 11

theorem pack_fields (i : Word) : (pack ((identType i).setWidth 8) ((identDev i).setWidth 8)
    ((identCommand i).setWidth 8)).setWidth 32 = i &&& 0x7FF#32 := by
  apply BitVec.eq_of_toNat_eq
  rw [toNat_setWidth_ident, toNat_pack_fields, toNat_and_identMask]

/-- Every identifier is packed from its own fields (R101 b). -/
theorem pack_fields_ident (i : Ident) : pack ((identType (i.setWidth 32)).setWidth 8)
    ((identDev (i.setWidth 32)).setWidth 8) ((identCommand (i.setWidth 32)).setWidth 8) = i := by
  apply BitVec.eq_of_toNat_eq
  rw [toNat_pack_fields, toNat_setWidth_ident]
  exact Nat.mod_eq_of_lt i.isLt

/-! ### The routing key on words (R106, R107) -/

theorem rkey_or (i j : Word) : rkey (i ||| j) = rkey i ||| rkey j := by
  apply BitVec.eq_of_getLsbD_eq
  intro n _
  simp only [rkey, BitVec.getLsbD_or, BitVec.getLsbD_and, Bool.and_or_distrib_right]

/-- A word of Command bits alone has the key 0. -/
theorem rkey_eq_zero {c : Word} (h : c.toNat ≤ 7) : rkey c = 0#32 := by
  apply BitVec.eq_of_toNat_eq
  rw [toNat_rkey, BitVec.toNat_ofNat]
  omega

theorem rkey_or_command (i : Word) {c : Word} (h : c.toNat ≤ 7) : rkey (i ||| c) = rkey i := by
  rw [rkey_or, rkey_eq_zero h, BitVec.or_zero]

/-- The key of an identifier proper lies in bits 10..3 (R106). -/
theorem rkey_of_ident {i : Word} (h : i.toNat ≤ 0x7FF) : rkey i = i &&& 0x7F8#32 := by
  have hi : i &&& 0x7FF#32 = i :=
    BitVec.eq_of_toNat_eq ((toNat_and_identMask i).trans (Nat.mod_eq_of_lt (Nat.lt_succ_of_le h)))
  calc rkey i = rkey (i &&& 0x7FF#32) := by rw [hi]
    _ = i &&& 0x7F8#32 := BitVec.and_assoc i 0x7FF#32 0xFFFFFFF8#32

theorem toNat_rkey_fields {i : Word} (h : i.toNat ≤ 0x7FF) :
    (rkey i).toNat = (identType i).toNat * 128 + (identDev i).toNat * 8 := by
  rw [toNat_rkey, toNat_identType, toNat_identDev]
  omega

/-- The key keeps bits 31..11, so with one of them set it is no 11-bit key (R106). -/
theorem setWidth_ne_rkey {i : Word} (k : Ident) (h : 0x7FF < i.toNat) : k.setWidth 32 ≠ rkey i := by
  intro he
  have hn := congrArg BitVec.toNat he
  rw [toNat_setWidth_ident, toNat_rkey] at hn
  have hk := k.isLt
  omega

/-! ### The device of a key (R108) -/

theorem toNat_devKey_fields (t d : BitVec 4) :
    (devKey (t.setWidth 8) (d.setWidth 8)).toNat = t.toNat * 128 + d.toNat * 8 := by
  rw [toNat_devKey, toNat_setWidth_field, toNat_setWidth_field, Nat.mod_eq_of_lt t.isLt, Nat.mod_eq_of_lt d.isLt]

theorem devKey_fields_injective {t d t' d' : BitVec 4}
    (h : devKey (t.setWidth 8) (d.setWidth 8) = devKey (t'.setWidth 8) (d'.setWidth 8)) : t = t' ∧ d = d' := by
  have hn := congrArg BitVec.toNat h
  rw [toNat_devKey_fields, toNat_devKey_fields] at hn
  have hd := d.isLt
  have hd' := d'.isLt
  exact ⟨BitVec.eq_of_toNat_eq (by omega), BitVec.eq_of_toNat_eq (by omega)⟩

/-- An identifier with clear Command bits is the key of the device that its fields name. -/
theorem devKey_fields_of_low {k : Ident} (h : k &&& 0x007#11 = 0#11) :
    devKey ((identType (k.setWidth 32)).setWidth 8) ((identDev (k.setWidth 32)).setWidth 8) = k := by
  have hlow : k.toNat % 8 = 0 := (and_7 k.toNat).symm.trans (congrArg BitVec.toNat h)
  have hk := k.isLt
  apply BitVec.eq_of_toNat_eq
  rw [toNat_devKey_fields, toNat_identType, toNat_identDev, toNat_setWidth_ident]
  omega

/-! ### The statements -/

/-- Settles O17: the row's decoding, and `pack` as a number. -/
theorem packGivesTheIdentifier : Obligations.PackGivesTheIdentifier := by
  refine ⟨fun _ => decode_of_matches_pack, fun ty d c s => ?_⟩
  rw [exec_pack, pack_setWidth_eq]

/-- Settles O18: an identifier is packed from its own fields, and they are the only valid triple that packs to it. -/
theorem packIsABijectionOnValidTriples : Obligations.PackIsABijectionOnValidTriples :=
  ⟨fun ty d c s s' => ⟨_, exec_pack ty d c s, exec_pack ty d c s'⟩,
    fun _ _ _ _ _ _ ht hd hc ht' hd' hc' => pack_injective ht hd hc ht' hd' hc',
    fun i => ⟨_, _, _, setWidth_field_le _, setWidth_field_le _, setWidth_command_le _, pack_fields_ident i⟩,
    pack_masked, pack_toNat_le⟩

/-- Settles O19: the word's decoding, and UNPACK's result word as a number. -/
theorem unpackGivesTheFields : Obligations.UnpackGivesTheFields := by
  refine ⟨fun _ => decode_of_word_unpack, fun ident s => ?_⟩
  rw [exec_unpack, ← toNat_unpackWord, BitVec.ofNat_toNat, BitVec.setWidth_eq]

/-- Settles O20, one direction by the fields of `pack`, the other by `pack_fields`. -/
theorem packAndUnpackRoundTrip : Obligations.PackAndUnpackRoundTrip :=
  ⟨fun ty d c => ⟨identType_pack ty d c, identDev_pack ty d c, identCommand_pack ty d c⟩, pack_fields⟩

/-- Settles O21: the word's decoding, the key as a number, and the operands up to and above `0x7FF`. -/
theorem rkeyClearsTheCommandBits : Obligations.RkeyClearsTheCommandBits := by
  refine ⟨fun _ => decode_of_word_rkey, fun ident s => ?_, fun _ h => ⟨rkey_of_ident h, toNat_rkey_fields h⟩,
    fun _ k => setWidth_ne_rkey k⟩
  rw [exec_rkey, ← toNat_rkey, BitVec.ofNat_toNat, BitVec.setWidth_eq]

/-- Settles O22: Command bits alone have the key 0, and the key of a packed triple is its device's. -/
theorem routingKeyIgnoresTheCommand : Obligations.RoutingKeyIgnoresTheCommand :=
  ⟨fun i _ => rkey_or_command i, fun ty d c c' => (rkey_pack ty d c).trans (rkey_pack ty d c').symm⟩

/-- Settles O23: the pair of fields of a key is its own DeviceType and DeviceId. -/
theorem deviceKeysAreTheKeysOfTheirIdentifiers : Obligations.DeviceKeysAreTheKeysOfTheirIdentifiers := by
  refine ⟨fun ty d => ⟨toNat_devKey ty d, devKey_low ty d, devKey_eq_pack ty d⟩, rkey_pack,
    fun k h => ⟨(identType (k.setWidth 32), identDev (k.setWidth 32)), devKey_fields_of_low h, ?_⟩⟩
  rintro ⟨t, d⟩ he
  obtain ⟨rfl, rfl⟩ := devKey_fields_injective (he.trans (devKey_fields_of_low h).symm)
  rfl

end Sys2Proof.Machine
end

section
/-! Family `41_payload_marshaller.md`: what a WRITE and a READ answer, and what a sequence of commands leaves of a register's `dlc`
and of bytes that it does not write. -/

namespace Sys2Proof.Machine

/-! ### WRITE and READ, whole (R121, R125) -/

/-- Byte `start + j` of a written frame is lane `j` of the value. -/
theorem Frame.byte_write_inside (fr : Frame) {start size j : Nat} (v : DWord) (h8 : start + size ≤ 8) (hj : j < size) :
    (fr.write start size v).byte (start + j) = laneOf v j := by
  rw [Frame.byte_write _ _ _ _ (by omega), if_pos (by omega), Nat.add_sub_cancel_left]

/-- A write leaves the bytes below and above its own. -/
theorem Frame.byte_write_outside (fr : Frame) {start size a : Nat} (v : DWord) (ha : a < 8)
    (ho : a < start ∨ start + size ≤ a) : (fr.write start size v).byte a = fr.byte a := by
  rw [Frame.byte_write _ _ _ _ ha, if_neg (by omega)]

/-- A value read from `n` bytes has `8n` bits. -/
theorem Frame.memRead_lt (fr : Frame) (a n : Nat) : (fr.memRead a n).toNat < 2 ^ (8 * n) :=
  toNat_lt_of_lanes fun j hj hn => by rw [Frame.laneOf_memRead _ _ _ hj, if_neg (Nat.not_lt.2 hn)]

/-- Settles O24: the refusals are WRITE's tests in order, and an admitted WRITE sets one register to `Frame.write` of it. -/
theorem writeStoresTheValue : Obligations.WriteStoresTheValue := by
  refine ⟨fun _ => decode_of_matches_write, fun _ _ _ _ => rfl,
    fun fd start size v s h0 h8 => (if_neg h0).trans (if_pos h8), fun fd start size v s h0 h8 => ?_⟩
  refine ⟨_, exec_write_admitted fd v s h0 h8, rfl, ?_⟩
  rw [State.getF_respond, State.getF_setF_same]
  exact ⟨fun j => Frame.byte_write_inside _ v h8, fun a => Frame.byte_write_outside _ v, rfl, rfl, rfl, rfl, rfl,
    fun k => s.getF_setF_other _⟩

/-- Settles O25: the refusals are READ's tests in order, and an admitted READ answers `Frame.memRead`. -/
theorem readReturnsTheDeclaredBytes : Obligations.ReadReturnsTheDeclaredBytes := by
  refine ⟨fun _ => decode_of_matches_read, fun _ _ _ => rfl,
    fun fs start size s h0 h8 => (if_neg h0).trans (if_pos h8),
    fun fs start size s h0 h8 hd => ((if_neg h0).trans (if_neg (Nat.not_lt.2 h8))).trans (if_pos hd),
    fun fs start size s h0 h8 hd => ?_⟩
  refine ⟨_, exec_read_admitted fs s h0 h8 hd, fun j hj => ?_, Frame.memRead_lt _ _ _⟩
  exact (Frame.laneOf_memRead _ start size (by omega)).trans (if_pos hj)

/-! ### `dlc` under commands that do not replace the register (R122) -/

/-- A command that is no WRITE to the register has no write end in it (R122). -/
theorem writeEnd_of_not_write {i : Instr} {k : FReg} (hi : ∀ start size v, i ≠ .write k start size v) : writeEnd k i = 0 := by
  cases i with
  | write fd start size v => exact if_neg fun ⟨hk, _⟩ => hi start size v (hk ▸ rfl)
  | pack | unpack | rkey | read | make | msend | attach | detachk | detachd | poll | send | fload | fstore | feq => rfl

/-- A WRITE that succeeds raises `dlc` to its end, and one that fails leaves it (R121). -/
theorem dlc_of_write {k : FReg} {start size : Nat} {v : DWord} {s t : State} (h : exec (.write k start size v) s = .next t) :
    (t.getF k).dlc = max (s.getF k).dlc (writeEnd k (.write k start size v)) := by
  rcases exec_write_cases k start size v s with ⟨h0, e⟩ | ⟨-, h8, e⟩ | ⟨h0, h8, e⟩ <;> rw [e] at h <;> cases h
  · simp [writeEnd, h0]
  · simp [writeEnd, Nat.not_le.2 h8]
  · simp [writeEnd, h0, h8]

/-- A command that does not replace a register takes its `dlc` to the maximum of it and of the end of a successful WRITE. -/
theorem dlc_of_not_replaced {i : Instr} {k : FReg} {s t : State} (h : exec i s = .next t)
    (hr : replacesReg i k = false ∨ t.getF k = s.getF k) : (t.getF k).dlc = max (s.getF k).dlc (writeEnd k i) := by
  by_cases hi : ∃ start size v, i = .write k start size v
  · obtain ⟨start, size, v, rfl⟩ := hi
    exact dlc_of_write h
  · have hkept : t.getF k = s.getF k := hr.elim
      (fun hr => (effect_of_exec h).getF_eq (Bool.eq_false_iff.2 fun hw => hi (write_of_writesReg hw hr))) id
    have hend : writeEnd k i = 0 := writeEnd_of_not_write fun start size v e => hi ⟨start, size, v, e⟩
    rw [hkept, hend, Nat.max_zero]

/-- `dlc` after a sequence of commands none of which replaces the register (R122). -/
theorem dlc_of_execAll {k : FReg} (cmds : List Instr) {s t : State} (hr : noneReplaces k cmds s)
    (h : execAll cmds s = .next t) : (t.getF k).dlc = cmds.foldl (fun m i => max m (writeEnd k i)) (s.getF k).dlc := by
  induction cmds generalizing s with
  | nil => cases h; rfl
  | cons i is ih =>
    obtain ⟨u, hu, -⟩ := exec_effect i s
    obtain ⟨hri, hris⟩ := hr u hu
    rw [execAll_cons is hu] at h
    rw [ih hris h, dlc_of_not_replaced hu hri, List.foldl_cons]

/-- WRITE keeps the Frame invariant of every register (R122, R24). -/
theorem write_keeps_wf {fd k : FReg} {start size : Nat} {v : DWord} {s t : State}
    (h : exec (.write fd start size v) s = .next t) (hk : (s.getF k).wf) : (t.getF k).wf := by
  rcases exec_write_cases fd start size v s with ⟨-, e⟩ | ⟨-, -, e⟩ | ⟨-, h8, e⟩ <;> rw [e] at h <;> cases h
  · exact hk
  · exact hk
  · rw [State.getF_respond, State.getF_setF]
    split
    · next e => exact Frame.write_wf (e ▸ hk) h8 v
    · exact hk

/-- A drain that changes a register has dispatched a frame, which is in `F3` and on the dispatch port (R173, R208). -/
theorem DrainOutcome.dispatched {s t : State} (h : DrainOutcome s t) {k : FReg} (hk : t.getF k ≠ s.getF k) :
    k = 3 ∧ ∃ w tr, t.trace = .dispatch w (t.getF 3).toPort :: tr := by
  obtain rfl : k = 3 := by_contra fun h3 => hk (h.getF h3)
  cases h with
  | ends | waits => exact absurd rfl hk
  | dispatches _ _ _ fr sl =>
    have h3 : (s.setF 3 fr).getF 3 = fr := s.getF_setF_same 3 fr
    exact ⟨rfl, sl.href, _, congrArg (fun x : Frame => PortEvent.dispatch sl.href x.toPort :: _) h3.symm⟩

/-- Settles O29: over a sequence by induction, and over a step by the cases of `StepEffect`, of which only a replacing command, a
drain and a reset can lower a `dlc`. -/
theorem dlcOnlyGrowsUnderWrites : Obligations.DlcOnlyGrowsUnderWrites := by
  refine ⟨fun fd cmds s t => dlc_of_execAll cmds, fun fd start size v s t h k => write_keeps_wf h, fun s t k h hlt => ?_⟩
  have hne : t.getF k ≠ s.getF k := fun e => Nat.lt_irrefl _ (e ▸ hlt)
  cases step_effect h with
  | holds | unaccepted | illegal | unasked | resetIdle | queue => exact absurd rfl hne
  | command cmd rest i _ hin hw hr hd =>
    refine .inl ⟨cmd, rest, i, hin, hd, ?_⟩
    by_contra hrep
    rw [step_of_decode hin hw hr hd] at h
    have hmax := dlc_of_not_replaced h (.inl (Bool.eq_false_iff.2 hrep))
    exact Nat.not_lt.2 (hmax ▸ Nat.le_max_left _ _) hlt
  | completion _ _ _ _ _ ho => exact .inr (.inl (ho.dispatched hne))
  | queueDrains _ _ _ _ _ _ ho => exact .inr (.inl (ho.dispatched hne))
  | reset b rest hin => exact .inr (.inr ⟨b, rest, hin⟩)

/-! ### Bytes that a sequence of commands does not write (R127) -/

/-- A command that replaces a register may store to all of it (R57). -/
theorem storesTo_of_replacesReg {i : Instr} {k : FReg} (hr : replacesReg i k = true) (a : Nat) : storesTo i k a = true := by
  cases i with
  | make | msend | fload | poll => exact hr
  | pack | unpack | rkey | write | read | attach | detachk | detachd | send | fstore | feq => cases hr

/-- Frames with the same bytes from `a` to `a + n - 1` read the same there. -/
theorem Frame.memRead_congr {x y : Frame} {a n : Nat} (h : ∀ j < n, x.byte (a + j) = y.byte (a + j)) :
    x.memRead a n = y.memRead a n := by
  refine eq_of_lanes fun j hj => ?_
  rw [Frame.laneOf_memRead _ _ _ hj, Frame.laneOf_memRead _ _ _ hj]
  split
  · next hjn => exact h j hjn
  · rfl

/-- A command that neither writes bytes of a register nor replaces it leaves their value, and declares no fewer bytes. -/
theorem memRead_of_not_written {i : Instr} {k : FReg} {a n : Nat} {s t : State} (hn : n ≠ 0) (han : a + n ≤ 8)
    (h : exec i s = .next t) (hw : (∀ j < n, storesTo i k (a + j) = false) ∨ t.getF k = s.getF k) :
    (t.getF k).memRead a n = (s.getF k).memRead a n ∧ (s.getF k).dlc ≤ (t.getF k).dlc := by
  rcases hw with hw | hkept
  · have hrep : replacesReg i k = false := Bool.eq_false_iff.2 fun hr =>
      Bool.eq_false_iff.1 (hw 0 (Nat.pos_of_ne_zero hn)) (storesTo_of_replacesReg hr _)
    refine ⟨Frame.memRead_congr fun j hj => (effect_of_exec h).byte_eq (by omega) (hw j hj), ?_⟩
    rw [dlc_of_not_replaced h (.inl hrep)]
    exact Nat.le_max_left _ _
  · rw [hkept]
    exact ⟨rfl, Nat.le_refl _⟩

/-- `memRead_of_not_written` over a sequence of commands. -/
theorem memRead_of_execAll {k : FReg} {a n : Nat} (cmds : List Instr) {s t : State} (hn : n ≠ 0) (han : a + n ≤ 8)
    (hw : noneWrites k a n cmds s) (h : execAll cmds s = .next t) :
    (t.getF k).memRead a n = (s.getF k).memRead a n ∧ (s.getF k).dlc ≤ (t.getF k).dlc := by
  induction cmds generalizing s with
  | nil => cases h; exact ⟨rfl, Nat.le_refl _⟩
  | cons i is ih =>
    obtain ⟨u, hu, -⟩ := exec_effect i s
    obtain ⟨hwi, hwis⟩ := hw u hu
    rw [execAll_cons is hu] at h
    obtain ⟨hread, hdlc⟩ := memRead_of_not_written hn han hu hwi
    obtain ⟨hread', hdlc'⟩ := ih hwis h
    exact ⟨hread'.trans hread, hdlc.trans hdlc'⟩

/-- Settles O28: the commands leave the value that `memRead_write` gives and a `dlc` that admits the READ. -/
theorem writtenValueReadsBack : Obligations.WrittenValueReadsBack := by
  intro fd a n v cmds s t u hn han h hw hu
  obtain ⟨hread, hdlc⟩ := memRead_of_execAll cmds hn han hw hu
  rw [exec_write_admitted fd v s hn han] at h
  cases h
  rw [State.getF_respond, State.getF_setF_same] at hread hdlc
  have hval := Frame.memRead_write (s.getF fd) (j := 0) v han (Nat.zero_add n).le
  rw [Nat.add_zero, Nat.mul_zero, Nat.pow_zero, Nat.div_one] at hval
  rw [Frame.write_dlc] at hdlc
  rw [exec_read_admitted fd u hn han (by omega), hread, hval]
  rfl

end Sys2Proof.Machine
end

section
/-! Family `42_frame_ops.md`: what FLOAD, FSTORE and FEQ answer, the `rmeta` signals as a number, FEQ's verdict on Frames, and the
statements about the frame operations. -/

namespace Sys2Proof.Machine

/-! ### FLOAD, in its two cases (R144) -/

/-- FLOAD of signals that `norm` makes a Frame of loads that Frame (R144, R143). -/
theorem exec_fload_of_norm {p : PortFrame} {fr : Frame} (fd : FReg) (s : State) (h : normFrame p = some fr) :
    exec (.fload fd p.id p.dlc p.ext p.rtr p.err p.data) s = .next ((s.setF fd fr).respond okResponse) := by
  simp only [exec, execFload, h]

/-- FLOAD of signals that are no Frame fails and changes nothing (R144, R12). -/
theorem exec_fload_of_norm_none {p : PortFrame} (fd : FReg) (s : State) (h : normFrame p = none) :
    exec (.fload fd p.id p.dlc p.ext p.rtr p.err p.data) s = .next (s.fail .illegal) := by
  simp only [exec, execFload, h]

/-! ### FSTORE and the `rmeta` signals (R80, R146) -/

theorem exec_fstore (fs : FReg) (s : State) : exec (.fstore fs) s = .next { s with
    trace := okWith (s.getF fs).id (s.getF fs).toPort.data (s.getF fs).toPort.metaBits :: s.trace } := rfl

/-- `rmeta` as a number: `err`, `rtr`, `ext` in bits 6, 5, 4 above the `dlc` signals. -/
theorem PortFrame.metaBits_eq_ofNat (p : PortFrame) : p.metaBits = BitVec.ofNat 7 (
    (if p.err then 1 else 0) * 64 + (if p.rtr then 1 else 0) * 32 + (if p.ext then 1 else 0) * 16 + p.dlc.toNat) := by
  have h : ∀ (dlc : BitVec 4) (e r x : Bool), BitVec.ofBool x ++ BitVec.ofBool r ++ BitVec.ofBool e ++ dlc = BitVec.ofNat 7 (
      (if x then 1 else 0) * 64 + (if r then 1 else 0) * 32 + (if e then 1 else 0) * 16 + dlc.toNat) := by decide
  exact h p.dlc p.ext p.rtr p.err

/-- The four `dlc` signals of a register, whatever its `dlc`. -/
theorem Frame.toNat_toPort_dlc (fr : Frame) : fr.toPort.dlc.toNat = fr.dlc % 16 := BitVec.toNat_ofNat _ _

/-! ### FEQ (R147) -/

theorem setWidth_ofBool (b : Bool) : (BitVec.ofBool b).setWidth 32 = if b then 1#32 else 0#32 := by cases b <;> rfl

theorem exec_feq (fa fb : FReg) (s : State) : exec (.feq fa fb) s = .next { s with
    trace := okWith (if (s.getF fa).eqv (s.getF fb) then 1#32 else 0#32) 0#64 0#7 :: s.trace } := by
  rw [← setWidth_ofBool]
  rfl

/-- On Frames FEQ's verdict is equality: the bytes that it does not compare are zero in both (R147 d, R24). -/
theorem Frame.eqv_iff_eq {x y : Frame} (hx : x.wf) (hy : y.wf) : x.eqv y = true ↔ x = y := by
  rw [Frame.eqv_iff]
  constructor
  · rintro ⟨hid, hdlc, hext, hrtr, herr, hb⟩
    refine Frame.ext_bytes hid hdlc hext hrtr herr fun a ha => ?_
    by_cases hd : a < x.dlc
    · exact hb a hd
    · obtain ⟨-, hx0⟩ := x.wf_iff.1 hx
      obtain ⟨-, hy0⟩ := y.wf_iff.1 hy
      rw [hx0 a ha (Nat.not_lt.1 hd), hy0 a ha (hdlc ▸ Nat.not_lt.1 hd)]
  · rintro rfl
    exact ⟨rfl, rfl, rfl, rfl, rfl, fun _ _ => rfl⟩

/-! ### The statements -/

/-- Settles O31: the row's decoding, and the register that MAKE sets, which is `mkFrame` of its operands. -/
theorem makeBuildsTheFrame : Obligations.MakeBuildsTheFrame := by
  refine ⟨fun _ => decode_of_matches_make, fun fd ty d c len pl s => ⟨_, rfl, rfl, ?_⟩⟩
  rw [State.getF_respond, State.getF_setF_same]
  exact ⟨pack_setWidth_eq ty d c, fun j => mkFrame_byte ty d c len pl, rfl, rfl, rfl, rfl, mkFrame_wf ty d c len pl,
    fun k => s.getF_setF_other _⟩

/-- Settles O32: the two cases of `norm`, and a Frame taken from its own signals. -/
theorem normBringsPortValuesToFrames : Obligations.NormBringsPortValuesToFrames := by
  refine ⟨fun p h => if_pos h, fun p h => ?_, fun fr => normFrame_toPort⟩
  rcases normFrame_cases p with ⟨h', -⟩ | ⟨-, hfr⟩
  · exact absurd h (Nat.not_le.2 h')
  · exact hfr

/-- Settles O33: the row's decoding, and FLOAD by what `norm` makes of its operands. -/
theorem floadLoadsTheFrame : Obligations.FloadLoadsTheFrame := by
  obtain ⟨hnone, hsome, -⟩ := normBringsPortValuesToFrames
  refine ⟨fun _ => decode_of_matches_fload, ?_, ?_⟩
  · intro fd id dlc ext rtr err data s h
    exact exec_fload_of_norm_none fd s (hnone ⟨id, data, dlc, ext, rtr, err⟩ h)
  · intro fd id dlc ext rtr err data s h
    obtain ⟨fr, hn, hid, hdlc, hext, hrtr, herr, hb⟩ := hsome ⟨id, data, dlc, ext, rtr, err⟩ h
    refine ⟨_, exec_fload_of_norm fd s hn, rfl, ?_⟩
    rw [State.getF_respond, State.getF_setF_same]
    exact ⟨hid, hdlc, hext, hrtr, herr, hb, fun k => s.getF_setF_other _⟩

/-- Settles O34: the row's decoding, the signals of the register on the response port, and R24 for its bytes from `dlc` on. -/
theorem fstoreReturnsTheWholeFrame : Obligations.FstoreReturnsTheWholeFrame := by
  refine ⟨fun _ => decode_of_matches_fstore, fun fs s => ?_⟩
  generalize hfr : s.getF fs = fr
  have hlane : ∀ j < 8, laneOf fr.toPort.data j = fr.byte j := fun j => fr.laneOf_toPort_data
  refine ⟨fr.toPort.data, ?_, hlane, fun hwf j hj hd => ?_⟩
  · rw [exec_fstore, hfr, PortFrame.metaBits_eq_ofNat, fr.toNat_toPort_dlc]
    rfl
  · obtain ⟨-, hzero⟩ := fr.wf_iff.1 hwf
    exact (hlane j hj).trans (hzero j hj hd)

/-- Settles O35: the row's decoding, and the verdict `Frame.eqv` by components. -/
theorem feqComparesFrames : Obligations.FeqComparesFrames :=
  ⟨fun _ => decode_of_matches_feq, fun fa fb s => ⟨_, exec_feq fa fb s, Frame.eqv_iff _ _⟩⟩

/-- Settles O36: `Inv` makes both registers Frames, on which the verdict is equality. -/
theorem feqIsEqualityInsideTheBlock : Obligations.FeqIsEqualityInsideTheBlock := by
  intro fa fb s hinv
  have hregs := (StoredWf.of_inv hinv).regs
  simp only [exec_feq, Frame.eqv_iff_eq (hregs fa) (hregs fb)]

end Sys2Proof.Machine
end

section
/-! Family `43_router.md`: what each router command answers case by case, the table it leaves, what a drain dispatches and
records, and the statements about the frame router. -/

namespace Sys2Proof.Machine

/-! ### Keys and references as numbers (R82, R108) -/

theorem devKey_eq_ofNat (t d : Byte) : devKey t d = BitVec.ofNat 11 (t.toNat % 16 * 128 + d.toNat % 16 * 8) := by
  rw [← toNat_devKey, BitVec.ofNat_toNat, BitVec.setWidth_eq]

/-- Two keys that are the same 32-bit word are the same key. -/
theorem setWidth_ident_inj {k k' : Ident} (h : k.setWidth 32 = k'.setWidth 32) : k = k' := by
  have hn := congrArg BitVec.toNat h
  rw [toNat_setWidth_ident, toNat_setWidth_ident] at hn
  exact BitVec.eq_of_toNat_eq hn

/-! ### Changing the one slot of a key (R21.1, R26) -/

/-- Setting the one slot that meets `p` is a map over the table. -/
theorem set_eq_map {rt : List Slot} {p : Slot → Prop} [DecidablePred p] (g : Slot → Slot) {i : Nat} (hi : i < rt.length)
    (hp : p rt[i]) (hu : ∀ j (hj : j < rt.length), p rt[j] → i = j) :
    rt.set i (g rt[i]) = rt.map fun sl => if p sl then g sl else sl := by
  refine List.ext_getElem (by simp) fun n hn _ => ?_
  have hn' : n < rt.length := by simpa using hn
  rw [List.getElem_set, List.getElem_map]
  by_cases he : i = n
  · subst he
    rw [if_pos rfl, if_pos hp]
  · rw [if_neg he, if_neg fun hq => he (hu n hn' hq)]

/-- A removal that tests for one key clears every slot it finds: with unique keys there is at most one. -/
theorem removeSlot_eq_map_of_key {rt : List Slot} (hu : uniqueKeys rt) {p : Slot → Bool} {k : Ident}
    (hp : ∀ sl, p sl = true → sl.valid = true ∧ sl.key = k) :
    removeSlot p rt = rt.map fun sl => if p sl then sl.cleared else sl := by
  refine removeSlot_eq_map fun i j hi hj pi pj => ?_
  obtain ⟨vi, ki⟩ := hp _ pi
  obtain ⟨vj, kj⟩ := hp _ pj
  exact (uniqueKeys_iff rt).1 hu i j hi hj vi vj (ki.trans kj.symm)

/-! ### Which registrations a command leaves (R161, R165, R167) -/

/-- A removal adds no valid slot. -/
theorem mem_of_mem_removeSlot {p : Slot → Bool} {rt : List Slot} {sl : Slot} (hs : sl ∈ removeSlot p rt)
    (hv : sl.valid = true) : sl ∈ rt := by
  rcases removeSlot_cases p rt with ⟨-, e⟩ | ⟨i, hi, -, -, e⟩ <;> rw [e] at hs
  · exact hs
  · rcases List.mem_or_eq_of_mem_set hs with hs | rfl
    · exact hs
    · cases hv

/-- ATTACH adds no slot with another key than its own. -/
theorem mem_of_mem_attachTable {pol : Config.DupPolicy} {k : Ident} {r : Word} {rt rt' : List Slot}
    (he : attachTable pol k r rt = .ok rt') {sl : Slot} (hs : sl ∈ rt') : sl ∈ rt ∨ sl.key = k := by
  rcases attachTable_cases pol k r rt with ⟨i, hi, ⟨-, hk⟩, -, ⟨-, e⟩ | ⟨-, e⟩⟩ | ⟨-, -, e⟩ | ⟨-, i, hi, -, -, e⟩
  all_goals rw [e] at he; cases he
  · exact (List.mem_or_eq_of_mem_set hs).imp_right fun hsl => by rw [hsl]; exact hk
  · exact (List.mem_or_eq_of_mem_set hs).imp_right (congrArg Slot.key)

/-- A removal that finds every slot of a key, and no other, leaves the key unregistered. -/
theorem unregistered_removeSlot {rt : List Slot} (hu : uniqueKeys rt) {p : Slot → Bool} {k : Ident}
    (hp : ∀ sl, p sl = true → sl.valid = true ∧ sl.key = k)
    (hall : ∀ sl ∈ rt, sl.valid = true → sl.key = k → p sl = true) : unregistered k (removeSlot p rt) := by
  intro sl' hs' hv' hk'
  rw [removeSlot_eq_map_of_key hu hp] at hs'
  obtain ⟨sl, hs, rfl⟩ := List.mem_map.1 hs'
  by_cases hq : p sl = true
  · rw [if_pos hq] at hv'
    cases hv'
  · rw [if_neg hq] at hv' hk'
    exact hq (hall sl hs hv' hk')

theorem unregistered_replicate_free (k : Ident) (n : Nat) : unregistered k (List.replicate n freeSlot) := by
  intro sl hs hv
  rw [List.eq_of_mem_replicate hs] at hv
  cases hv

/-- A key stays unregistered through every command but an ATTACH of it (R168). -/
theorem Effect.unregistered {i : Instr} {s t : State} (h : Effect i s t) {k : Ident} (hk : unregistered k s.rt)
    (hi : ∀ ty d x, i = .attach ty d x → devKey ty d ≠ k) : unregistered k t.rt := by
  cases h with
  | answers | register | sends | builds => exact hk
  | attaches ty d x _ ha he =>
    intro sl hs hv
    rcases mem_of_mem_attachTable he hs with hs | hkey
    · exact hk sl hs hv
    · exact hkey ▸ hi ty d x ha
  | detaches => exact fun sl hs hv => hk sl (mem_of_mem_removeSlot hs hv) hv
  | polls _ _ _ ho =>
    rw [ho.rt_eq]
    exact hk

/-- A key stays unregistered through every step but an ATTACH of it (R168). -/
theorem StepEffect.unregistered {s t : State} (h : StepEffect s t) {k : Ident} (hk : unregistered k s.rt)
    (hi : ∀ cmd rest ty d x, s.input = .command cmd :: rest → decode cmd = .ok (.attach ty d x) → devKey ty d ≠ k) :
    unregistered k t.rt := by
  cases h with
  | holds | unaccepted | illegal | unasked | resetIdle | queue => exact hk
  | command c rest i _ hin _ _ hd he => exact he.unregistered hk fun ty d x e => hi c rest ty d x hin (e ▸ hd)
  | completion _ _ _ _ _ ho => exact ho.rt_eq ▸ hk
  | queueDrains _ _ _ _ _ _ ho => exact ho.rt_eq ▸ hk
  | reset => exact unregistered_replicate_free k _

/-! ### What is dispatched is registered (R173) -/

/-- The events a step from `s` to `t` adds, each dispatch among them of a frame whose key a valid slot of `s` holds. -/
def AddsRegisteredDispatches (s t : State) : Prop :=
  ∃ es, t.trace = es ++ s.trace ∧
    ∀ w p, PortEvent.dispatch w p ∈ es → ∃ sl ∈ s.rt, sl.valid = true ∧ sl.key.setWidth 32 = rkey p.id

/-- A step that adds no dispatch. -/
theorem AddsRegisteredDispatches.of_none {s t : State} (es : List PortEvent) (htr : t.trace = es ++ s.trace)
    (hes : ∀ w p, PortEvent.dispatch w p ∉ es) : AddsRegisteredDispatches s t :=
  ⟨es, htr, fun w p hm => absurd hm (hes w p)⟩

theorem dispatch_not_mem_received (w : Word) (p : PortFrame) (q : List PortFrame) :
    PortEvent.dispatch w p ∉ received q := by
  simp [received]

/-- A drain dispatches to the slot that holds the frame's key. -/
theorem DrainOutcome.addsRegisteredDispatches {s t : State} (h : DrainOutcome s t) : AddsRegisteredDispatches s t := by
  cases h with
  | ends => exact .of_none ([.response _, .receive none] ++ received s.rxq) rfl (by simp [received])
  | waits => exact .of_none (received s.rxq) rfl fun w p => dispatch_not_mem_received w p _
  | dispatches pre p _ fr sl _ _ hn hs hv hk =>
    refine ⟨[.dispatch sl.href fr.toPort, .receive (some p)] ++ received pre, rfl, fun w p' hm => ?_⟩
    obtain ⟨rfl, rfl⟩ : w = sl.href ∧ p' = fr.toPort := by simpa [received] using hm
    exact ⟨sl, hs, hv, by rw [hk, Frame.toPort_id, normFrame_id hn]; rfl⟩

/-- A command dispatches only through the drain of POLL. -/
theorem Effect.addsRegisteredDispatches {i : Instr} {s t : State} (h : Effect i s t) : AddsRegisteredDispatches s t := by
  cases h with
  | answers | register | attaches | detaches => exact .of_none [.response _] rfl (by simp)
  | sends | builds => exact .of_none [.response _, .send _ _] rfl (by simp)
  | polls _ _ _ ho => exact ho.addsRegisteredDispatches

theorem StepEffect.addsRegisteredDispatches {s t : State} (h : StepEffect s t) : AddsRegisteredDispatches s t := by
  cases h with
  | holds | unaccepted | unasked | reset | resetIdle | queue => exact .of_none [] rfl (by simp)
  | illegal => exact .of_none [.response _] rfl (by simp)
  | command _ _ _ _ _ _ _ _ he => exact he.addsRegisteredDispatches
  | completion _ _ _ _ _ ho => exact ho.addsRegisteredDispatches
  | queueDrains _ _ _ _ _ _ ho => exact ho.addsRegisteredDispatches

/-! ### DETACHK and DETACHD (R165, R167, R168) -/

theorem exec_detachk (ty d : Byte) (s : State) : exec (.detachk ty d) s =
    .next ((s.setRt (removeSlot (Slot.holds (devKey ty d)) s.rt)).respond okResponse) := rfl

theorem exec_detachd (ty d : Byte) (x : Word) (s : State) : exec (.detachd ty d x) s =
    .next ((s.setRt (removeSlot (Slot.holdsDevice (devKey ty d) (hrefOf s.cfg x)) s.rt)).respond okResponse) := rfl

theorem Slot.key_of_holdsDevice {k : Ident} {w : Word} {sl : Slot} (h : sl.holdsDevice k w = true) :
    sl.valid = true ∧ sl.key = k := by
  obtain ⟨hv, hk, -⟩ := (Slot.holdsDevice_iff _ _ _).1 h
  exact ⟨hv, hk⟩

/-- Settles O43: a removal that finds the registered slot leaves the key unregistered; every step keeps it so, and what a step
dispatches is registered. -/
theorem detachedKeyIsNotDispatched : Obligations.DetachedKeyIsNotDispatched := by
  refine ⟨fun ty d s t hu h => ?_, fun ty d x s t hu hreg h => ?_, fun k s t hk h hi => ?_⟩
  · rw [exec_detachk] at h
    cases h
    exact ⟨unregistered_removeSlot hu (fun sl => (Slot.holds_iff _ sl).1) fun sl _ hv hk => (Slot.holds_iff _ sl).2 ⟨hv, hk⟩,
      rfl⟩
  · obtain ⟨reg, hmem, hvalid, hkey, hhref⟩ := hreg
    rw [exec_detachd] at h
    cases h
    refine ⟨unregistered_removeSlot hu (fun _ => Slot.key_of_holdsDevice) fun sl hs hv hk => ?_, rfl⟩
    obtain rfl : sl = reg := eq_of_holds hu hs hmem hv hvalid (hk.trans hkey.symm)
    exact (Slot.holdsDevice_iff _ _ _).2 ⟨hv, hk, hhref⟩
  · have he := step_effect h
    obtain ⟨es₀, htr₀, hes⟩ := he.addsRegisteredDispatches
    refine ⟨he.unregistered hk hi, fun es htr w p hm hp => ?_⟩
    obtain rfl : es = es₀ := List.append_cancel_right (htr.symm.trans htr₀)
    obtain ⟨sl, hs, hv, hkey⟩ := hes w p hm
    exact hk sl hs hv (setWidth_ident_inj (hkey.trans hp))

/-- Settles O40: the valid slot of the key is the only slot that meets `Slot.holds`. -/
theorem detachkRemovesTheKey : Obligations.DetachkRemovesTheKey := by
  refine ⟨fun _ => decode_of_matches_detachk, fun ty d k s hk hu => ?_⟩
  rw [← devKey_eq_ofNat] at hk
  subst hk
  rw [exec_detachk, removeSlot_eq_map_of_key hu fun sl => (Slot.holds_iff _ sl).1]
  simp only [Slot.holds_iff]
  rfl

/-- Settles O41: the valid slot of the key is the only slot that can meet `Slot.holdsDevice`. -/
theorem detachdRemovesTheDevice : Obligations.DetachdRemovesTheDevice := by
  refine ⟨fun _ => decode_of_matches_detachd, fun ty d x k w s hk hw hu => ?_⟩
  rw [← devKey_eq_ofNat] at hk
  subst hk hw
  rw [exec_detachd, removeSlot_eq_map_of_key hu fun _ => Slot.key_of_holdsDevice]
  simp only [Slot.holdsDevice_iff]
  rfl

/-! ### Dispatches in the record (R176) -/

/-- The receive requests of a drain stand between no dispatch and its receive. -/
theorem dispatchFollowsReceive_received {tr : List PortEvent} (h : dispatchFollowsReceive tr) (q : List PortFrame) :
    dispatchFollowsReceive (received q ++ tr) := by
  induction q generalizing tr with
  | nil => exact h
  | cons p q ih =>
    rw [received_cons]
    exact ih h

/-- A drain dispatches the frame that it has just received. -/
theorem DrainOutcome.dispatchFollowsReceive {s t : State} (h : DrainOutcome s t)
    (hs : dispatchFollowsReceive s.trace) : dispatchFollowsReceive t.trace := by
  cases h with
  | ends | waits => exact dispatchFollowsReceive_received hs s.rxq
  | dispatches pre p _ fr _ _ _ hn => exact ⟨⟨p, _, fr, rfl, hn, rfl⟩, dispatchFollowsReceive_received hs pre⟩

/-- What a command adds but for the drain of POLL is no dispatch. -/
theorem Effect.dispatchFollowsReceive {i : Instr} {s t : State} (h : Effect i s t)
    (hs : dispatchFollowsReceive s.trace) : dispatchFollowsReceive t.trace := by
  cases h with
  | answers | register | attaches | detaches | sends | builds => exact hs
  | polls _ _ _ ho => exact ho.dispatchFollowsReceive hs

theorem StepEffect.dispatchFollowsReceive {s t : State} (h : StepEffect s t)
    (hs : dispatchFollowsReceive s.trace) : dispatchFollowsReceive t.trace := by
  cases h with
  | holds | unaccepted | illegal | unasked | reset | resetIdle | queue => exact hs
  | command _ _ _ _ _ _ _ _ he => exact he.dispatchFollowsReceive hs
  | completion _ _ _ _ _ ho => exact ho.dispatchFollowsReceive hs
  | queueDrains _ _ _ _ _ _ ho => exact ho.dispatchFollowsReceive hs

/-- Settles O49, by the cases of `StepEffect`. -/
theorem dispatchFollowsItsReceive : Obligations.DispatchFollowsItsReceive :=
  fun _ _ hs h => (step_effect h).dispatchFollowsReceive hs

/-! ### ATTACH, case by case (R161) -/

section
variable {k : Ident} {w : Word} {rt : List Slot}

theorem attachTable_reject (hreg : ∃ sl ∈ rt, sl.valid = true ∧ sl.key = k) :
    attachTable .reject k w rt = .error .duplicate := by
  obtain ⟨sl, hs, hv, hk⟩ := hreg
  rcases attachTable_cases .reject k w rt with ⟨_, _, _, _, ⟨_, e⟩ | ⟨hpol, _⟩⟩ | ⟨hfresh, _⟩ | ⟨hfresh, _⟩
  · exact e
  · cases hpol
  · exact absurd hk (hfresh sl hs hv)
  · exact absurd hk (hfresh sl hs hv)

theorem attachTable_overwrite (hu : uniqueKeys rt) (hreg : ∃ sl ∈ rt, sl.valid = true ∧ sl.key = k) :
    attachTable .overwrite k w rt =
      .ok (rt.map fun sl => if sl.valid = true ∧ sl.key = k then ⟨true, k, w⟩ else sl) := by
  obtain ⟨sl, hs, hv, hk⟩ := hreg
  rcases attachTable_cases .overwrite k w rt with ⟨i, hi, ⟨hvi, hki⟩, _, ⟨hpol, _⟩ | ⟨_, e⟩⟩ | ⟨hfresh, _⟩ | ⟨hfresh, _⟩
  · cases hpol
  · have hslot : rt[i].withHref w = ⟨true, k, w⟩ := by rw [Slot.withHref, hvi, hki]
    rw [e, hslot]
    refine congrArg _ (set_eq_map (p := fun sl => sl.valid = true ∧ sl.key = k) (fun _ => ⟨true, k, w⟩) hi ⟨hvi, hki⟩ ?_)
    rintro j hj ⟨hvj, hkj⟩
    exact (uniqueKeys_iff rt).1 hu i j hi hj hvi hvj (hki.trans hkj.symm)
  · exact absurd hk (hfresh sl hs hv)
  · exact absurd hk (hfresh sl hs hv)

/-- A new key and no free slot. -/
theorem attachTable_full (pol : Config.DupPolicy) (hfull : ∀ sl ∈ rt, sl.valid = true ∧ sl.key ≠ k) :
    attachTable pol k w rt = .error .capacity := by
  rcases attachTable_cases pol k w rt with ⟨i, hi, ⟨_, hki⟩, _⟩ | ⟨_, _, e⟩ | ⟨_, i, hi, hfree, _⟩
  · exact absurd hki (hfull _ (List.getElem_mem hi)).2
  · exact e
  · rw [(hfull _ (List.getElem_mem hi)).1] at hfree
    cases hfree

/-- A new key and a free slot. -/
theorem exists_attachTable_free (pol : Config.DupPolicy) (hnew : unregistered k rt)
    (hfree : ∃ sl ∈ rt, sl.valid = false) : ∃ rt', attachTable pol k w rt = .ok rt' := by
  obtain ⟨sl, hs, hv⟩ := hfree
  rcases attachTable_cases pol k w rt with ⟨i, hi, ⟨hvi, hki⟩, _⟩ | ⟨_, hfull, _⟩ | ⟨_, i, hi, _, _, e⟩
  · exact absurd hki (hnew _ (List.getElem_mem hi) hvi)
  · rw [hfull sl hs] at hv
    cases hv
  · exact ⟨_, e⟩

/-- A new key takes the free slot with the lowest index (R26). -/
theorem attachTable_free (pol : Config.DupPolicy) (hnew : unregistered k rt) {n : Nat} {sl : Slot}
    (hn : rt[n]? = some sl) (hv : sl.valid = false) (hlow : ∀ m sl', m < n → rt[m]? = some sl' → sl'.valid = true) :
    attachTable pol k w rt = .ok (rt.set n ⟨true, k, w⟩) := by
  obtain ⟨hlt, rfl⟩ := List.getElem?_eq_some_iff.1 hn
  rcases attachTable_cases pol k w rt with ⟨i, hi, ⟨hvi, hki⟩, _⟩ | ⟨_, hfull, _⟩ | ⟨_, i, hi, hvi, hlowi, e⟩
  · exact absurd hki (hnew _ (List.getElem_mem hi) hvi)
  · rw [hfull _ (List.getElem_mem hlt)] at hv
    cases hv
  · rcases Nat.lt_trichotomy i n with hin | rfl | hni
    · rw [hlow i _ hin (List.getElem?_eq_getElem hi)] at hvi
      cases hvi
    · exact e
    · rw [hlowi n hni] at hv
      cases hv

end

theorem exec_attach_error {ty d : Byte} {x : Word} {s : State} {c : Cause}
    (h : attachTable s.cfg.dupPolicy (devKey ty d) (hrefOf s.cfg x) s.rt = .error c) :
    exec (.attach ty d x) s = .next (s.fail c) := by
  simp only [exec, execAttach, h]

theorem exec_attach_ok {ty d : Byte} {x : Word} {s : State} {rt : List Slot}
    (h : attachTable s.cfg.dupPolicy (devKey ty d) (hrefOf s.cfg x) s.rt = .ok rt) :
    exec (.attach ty d x) s = .next ((s.setRt rt).respond okResponse) := by
  simp only [exec, execAttach, h]

/-- Settles O38: the row's decoding, and the four cases of `attachTable`. -/
theorem attachRegistersTheHandler : Obligations.AttachRegistersTheHandler := by
  refine ⟨fun _ => decode_of_matches_attach, ?_, ?_, ?_, ?_⟩
  all_goals simp only [← devKey_eq_ofNat]
  · rintro ty d x _ s rfl hreg hpol
    exact exec_attach_error (hpol ▸ attachTable_reject hreg)
  · rintro ty d x _ s rfl hu hreg hpol
    exact exec_attach_ok (hpol ▸ attachTable_overwrite hu hreg)
  · rintro ty d x _ s rfl hfull
    exact exec_attach_error (attachTable_full _ hfull)
  · rintro ty d x _ s n sl rfl hnew hn hv hlow
    exact exec_attach_ok (attachTable_free _ hnew hn hv hlow)

/-! ### Filling the table (R162) -/

/-- The slot that ATTACH of a device makes. -/
def registration (p : Config.Params) (v : Byte × Byte × Word) : Slot := ⟨true, devKey v.1 v.2.1, hrefOf p v.2.2⟩

/-- A new key takes the first of the free slots behind the valid ones. -/
theorem attachTable_append {pre free : List Slot} {sl : Slot} (pol : Config.DupPolicy) {k : Ident} {w : Word}
    (hpre : ∀ a ∈ pre, a.valid = true ∧ a.key ≠ k) (hfree : ∀ a ∈ sl :: free, a.valid = false) :
    attachTable pol k w (pre ++ sl :: free) = .ok (pre ++ ⟨true, k, w⟩ :: free) := by
  have hnew : unregistered k (pre ++ sl :: free) := by
    intro a ha hv
    rcases List.mem_append.1 ha with ha | ha
    · exact (hpre a ha).2
    · rw [hfree a ha] at hv
      cases hv
  have hlow : ∀ m a, m < pre.length → (pre ++ sl :: free)[m]? = some a → a.valid = true := by
    intro m a hm ha
    rw [List.getElem?_append_left hm] at ha
    exact (hpre a (List.mem_of_getElem? ha)).1
  rw [attachTable_free (n := pre.length) (sl := sl) pol hnew (by simp) (hfree sl List.mem_cons_self) hlow]
  simp

/-- ATTACHes of devices with different new keys fill as many free slots in order, and all respond `ok = 1`. -/
theorem execAll_attach (devs : List (Byte × Byte × Word)) {s : State} {pre free : List Slot} (hrt : s.rt = pre ++ free)
    (hlen : free.length = devs.length) (hpre : ∀ sl ∈ pre, sl.valid = true) (hfree : ∀ sl ∈ free, sl.valid = false)
    (hnew : ∀ v ∈ devs, ∀ sl ∈ pre, sl.key ≠ devKey v.1 v.2.1) (hnodup : (devs.map fun v => devKey v.1 v.2.1).Nodup) :
    execAll (devs.map fun v => .attach v.1 v.2.1 v.2.2) s = .next { s with
      rt := pre ++ devs.map (registration s.cfg)
      trace := List.replicate devs.length plainOk ++ s.trace } := by
  induction devs generalizing s pre free with
  | nil =>
    rw [List.length_eq_zero_iff.1 hlen] at hrt
    simp only [List.map_nil, ← hrt]
    rfl
  | cons v devs ih =>
    obtain ⟨sl, free, rfl⟩ := List.exists_cons_of_length_eq_add_one hlen
    rw [List.map_cons, List.nodup_cons] at hnodup
    obtain ⟨hv, hnodup⟩ := hnodup
    have hslot := attachTable_append s.cfg.dupPolicy (w := hrefOf s.cfg v.2.2)
      (fun a ha => ⟨hpre a ha, hnew v List.mem_cons_self a ha⟩) hfree
    rw [← hrt] at hslot
    rw [List.map_cons, execAll_cons _ (exec_attach_ok hslot),
      ih (pre := pre ++ [registration s.cfg v]) (free := free) (by simp [registration]) (by simpa using hlen)]
    · simp [List.replicate_succ', plainOk, okResponse, Cause.code]
    · simpa [or_imp, forall_and, registration] using hpre
    · exact fun a ha => hfree a (List.mem_cons_of_mem _ ha)
    · intro u hu a ha
      rcases List.mem_append.1 ha with ha | ha
      · exact hnew u (List.mem_cons_of_mem _ hu) a ha
      · rw [List.mem_singleton.1 ha]
        exact fun e => hv (List.mem_map.2 ⟨u, hu, e.symm⟩)
    · exact hnodup

/-- A frame of an unregistered key is dropped (R174). -/
theorem dropped_of_unregistered {rt : List Slot} {k : Ident} (h : unregistered k rt) {p : PortFrame}
    (hk : rkey p.id = k.setWidth 32) : dropped rt p :=
  .inr fun sl hs hv e => h sl hs hv (setWidth_ident_inj (e.trans hk))

/-- A removal that finds a slot leaves a free one. -/
theorem exists_free_removeSlot {p : Slot → Bool} {rt : List Slot} {sl : Slot} (hs : sl ∈ rt) (hp : p sl = true) :
    ∃ a ∈ removeSlot p rt, a.valid = false := by
  rcases removeSlot_cases p rt with ⟨hnone, -⟩ | ⟨i, hi, -, -, e⟩
  · rw [hnone sl hs] at hp
    cases hp
  · exact ⟨rt[i].cleared, e ▸ List.mem_set hi _, rfl⟩

/-- Where a removal finds a slot, ATTACH of a key that was not registered responds `ok = 1` after it. -/
theorem exec_attach_after_removeSlot {ty d : Byte} (x : Word) {s : State} {p : Slot → Bool} {sl : Slot}
    (hnew : unregistered (devKey ty d) s.rt) (hs : sl ∈ s.rt) (hp : p sl = true) :
    ∃ w, exec (.attach ty d x) ((s.setRt (removeSlot p s.rt)).respond okResponse) = .next w ∧
      w.trace = plainOk :: plainOk :: s.trace := by
  have hnew' : unregistered (devKey ty d) (removeSlot p s.rt) := fun a ha hv => hnew a (mem_of_mem_removeSlot ha hv) hv
  obtain ⟨rt, hrt⟩ := exists_attachTable_free (w := hrefOf s.cfg x) s.cfg.dupPolicy hnew' (exists_free_removeSlot hs hp)
  exact ⟨_, exec_attach_ok (s := (s.setRt (removeSlot p s.rt)).respond okResponse) hrt, rfl⟩

/-- Settles O39: the ATTACHes fill the table with their registrations, so a further key finds no free slot until a removal
makes one. -/
theorem capacityIsTheNumberOfRegistrations : Obligations.CapacityIsTheNumberOfRegistrations := by
  intro s devs hcap hempty hlen hnodup
  refine ⟨_, execAll_attach devs (pre := []) rfl (hcap.trans hlen.symm) nofun hempty nofun hnodup, ?_, ?_⟩
  · rw [hlen]
  intro ty d x hnew
  generalize ht : { s with
    rt := [] ++ devs.map (registration s.cfg), trace := List.replicate devs.length plainOk ++ s.trace } = t
  have hrt : t.rt = devs.map (registration t.cfg) := ht ▸ rfl
  have hfull : ∀ sl ∈ t.rt, sl.valid = true ∧ sl.key ≠ devKey ty d := by
    rw [hrt]
    intro sl hs
    obtain ⟨v, hv, rfl⟩ := List.mem_map.1 hs
    exact ⟨rfl, fun e => hnew (List.mem_map.2 ⟨v, hv, e⟩)⟩
  have hunreg : unregistered (devKey ty d) t.rt := fun sl hs _ => (hfull sl hs).2
  refine ⟨exec_attach_error (attachTable_full _ hfull), fun p => dropped_of_unregistered hunreg, fun v hv i hi => ?_⟩
  have hmem : registration t.cfg v ∈ t.rt := hrt ▸ List.mem_map_of_mem hv
  rcases hi with rfl | rfl
  · exact ⟨_, (exec_attach_after_removeSlot x hunreg hmem ((Slot.holds_iff _ _).2 ⟨rfl, rfl⟩)).imp
      fun _ h => ⟨exec_detachk _ _ t, h⟩⟩
  · exact ⟨_, (exec_attach_after_removeSlot x hunreg hmem ((Slot.holdsDevice_iff _ _ _).2 ⟨rfl, rfl, rfl⟩)).imp
      fun _ h => ⟨exec_detachd _ _ _ t, h⟩⟩

/-! ### POLL (R170, R174, R210) -/

theorem exec_poll_nested {s : State} (h : s.inPoll = true) : exec .poll s = .next (s.fail .illegal) := if_pos h

theorem exec_poll_opens {s : State} (h : s.inPoll = false) :
    exec .poll s = .next (drain s.rxq { s with inPoll := true }) := if_neg (by simp [h])

/-- The completion of an open dispatch closes it and goes on with the drain (R210). -/
theorem step_completion {s : State} {rest : List Input} {d : DispatchRequest} (hin : s.input = .completion :: rest)
    (hd : s.dispatch = some d) : step s = .next (drain s.rxq { s with input := rest, dispatch := none }) := by
  simp [step, hin, mustWait, takeInput, takeCompletion, hd, leaveDispatch]

/-- Settles O44: POLL and a completion run `drain`, and `drain_own_queue` says what it does. -/
theorem pollDrainsAndDispatches : Obligations.PollDrainsAndDispatches := by
  refine ⟨fun _ => decode_of_word_poll, fun _ => exec_poll_nested, fun s hp _ => ?_, fun s rest d hin hd _ => ?_⟩
  · exact ⟨_, exec_poll_opens hp, drain_own_queue { s with inPoll := true }⟩
  · exact ⟨_, step_completion hin hd, drain_own_queue { s with input := rest, dispatch := none }⟩

/-- A dropped value that is a Frame has no valid slot with its key. -/
theorem key_ne_of_dropped {rt : List Slot} {p : PortFrame} (h : dropped rt p) {fr : Frame} (hn : normFrame p = some fr)
    {sl : Slot} (hs : sl ∈ rt) (hv : sl.valid = true) : sl.key.setWidth 32 ≠ p.id &&& 0xFFFFFFF8#32 := by
  rcases h with hd | hne
  · rw [normFrame, if_pos hd] at hn
    cases hn
  · exact hne sl hs hv

/-- A drain of dropped values only, up to the answer `none`, ends the POLL (R171, R174). -/
theorem DrainOutcome.eq_of_dropped {s t : State} (h : DrainOutcome s t) (hm : s.rxMore = false)
    (hd : ∀ p ∈ s.rxq, dropped s.rt p) : t = { s with
      rxq := [], inPoll := false, trace := plainOk :: .receive none :: (received s.rxq ++ s.trace) } := by
  cases h with
  | ends => rfl
  | waits _ hm' =>
    rw [hm] at hm'
    cases hm'
  | dispatches pre p post fr sl hq _ hn hs hv hk =>
    exact absurd hk (key_ne_of_dropped (hd p (by simp [hq])) hn hs hv)

/-- Settles O46: the drain ends the POLL that it opened. -/
theorem pollDropsForeignTrafficAndEnds : Obligations.PollDropsForeignTrafficAndEnds := by
  intro s hp hm hd
  rw [exec_poll_opens hp, (drain_own_queue { s with inPoll := true }).eq_of_dropped hm hd, ← hp]
  rfl

/-! ### Lookup (R173) -/

/-- Settles O47: R21 makes the slot unique, and an id above 11 bits is no key. -/
theorem lookupFindsTheOneHandler : Obligations.LookupFindsTheOneHandler := by
  refine ⟨fun s id w hinv => ⟨route_eq_some, ?_⟩, fun s id a b hinv ha hb va vb ka kb => ?_, fun rt id hid => ?_⟩
  · rintro ⟨sl, hs, hv, hk, rfl⟩
    obtain ⟨-, hu, -⟩ := (StoredWf.of_inv hinv).table
    exact route_of_mem hu hs hv hk
  · obtain ⟨-, hu, -⟩ := (StoredWf.of_inv hinv).table
    exact eq_of_holds hu ha hb va vb (setWidth_ident_inj (ka.trans kb.symm))
  · exact route_eq_none.2 fun sl _ _ => setWidth_ne_rkey sl.key hid

/-! ### Sending (R180, R182) -/

/-- While the environment's script holds an answer, it is the Transceiver's answer (R215). -/
theorem sendAnswer_of_script {s : State} {a : Bool} {rest : List Bool} (h : s.sendAnswers = a :: rest) :
    s.sendAnswer = a := by
  simp only [State.sendAnswer, h]

theorem exec_send (fs : FReg) (s : State) : exec (.send fs) s = .next { s with
    sendAnswers := s.sendAnswers.tail, sendCount := s.sendCount + 1
    trace := (if s.sendAnswer then plainOk else failed 5#3) :: .send (s.getF fs).toPort s.sendAnswer :: s.trace } := by
  rw [← sendResponse_event]
  rfl

theorem exec_make (fd : FReg) (ty d c : Byte) (len : Nat) (pl : DWord) (s : State) : exec (.make fd ty d c len pl) s =
    .next ((s.setF fd (mkFrame ty d c len pl)).respond okResponse) := rfl

theorem exec_msend (fd : FReg) (ty d c : Byte) (len : Nat) (pl : DWord) (s : State) :
    exec (.msend fd ty d c len pl) s = .next { s with
      f := s.f.set fd (mkFrame ty d c len pl), sendAnswers := s.sendAnswers.tail, sendCount := s.sendCount + 1
      trace := (if s.sendAnswer then plainOk else failed 5#3) ::
        .send (mkFrame ty d c len pl).toPort s.sendAnswer :: s.trace } := by
  rw [← sendResponse_event]
  rfl

/-- Settles O52: the row's decoding, and SEND's next state for the answer that the Transceiver gives. -/
theorem sendHandsTheFrameOver : Obligations.SendHandsTheFrameOver :=
  ⟨fun _ => decode_of_matches_send, fun fs s => ⟨_, exec_send fs s, fun _ _ => sendAnswer_of_script⟩⟩

/-- SEND of a register that MAKE has just set hands the built frame over, and gets the answer that MSEND would get. -/
theorem exec_send_of_make (fd : FReg) (ty d c : Byte) (len : Nat) (pl : DWord) (s : State) :
    ∃ v, exec (.send fd) ((s.setF fd (mkFrame ty d c len pl)).respond okResponse) = .next v ∧
      v.getF fd = mkFrame ty d c len pl ∧ v = { s with
        f := s.f.set fd (mkFrame ty d c len pl), sendAnswers := s.sendAnswers.tail, sendCount := s.sendCount + 1
        trace := (if s.sendAnswer then plainOk else failed 5#3) ::
          .send (mkFrame ty d c len pl).toPort s.sendAnswer :: plainOk :: s.trace } := by
  have hreg := s.getF_setF_same fd (mkFrame ty d c len pl)
  refine ⟨_, exec_send fd _, hreg, ?_⟩
  rw [State.getF_respond, hreg]
  rfl

/-- Settles O53: after MAKE the register holds the frame that MSEND builds, and the answer to SEND is the answer to MSEND. -/
theorem msendIsMakeThenSend : Obligations.MsendIsMakeThenSend := by
  refine ⟨fun _ => decode_of_matches_msend, fun fd ty d c len pl s => ?_⟩
  obtain ⟨v, hsend, hreg, hv⟩ := exec_send_of_make fd ty d c len pl s
  have hf : v.f = s.f.set fd (mkFrame ty d c len pl) := congrArg State.f hv
  refine ⟨s.sendAnswer, _, v, exec_make fd ty d c len pl s, hsend, ?_⟩
  rw [hreg, hf]
  exact ⟨exec_msend fd ty d c len pl s, hv, pack_setWidth_eq ty d c, rfl, fun j => mkFrame_byte ty d c len pl, rfl, rfl, rfl,
    fun _ _ => sendAnswer_of_script⟩

end Sys2Proof.Machine
end

section
/-! Family `60_exceptions.md`: no command and no step stops the block, what a failed command leaves, the cause by command, the
dispatch requests that a step records, and the statements about failures, dispatches and the idle block. -/

namespace Sys2Proof.Machine

/-! ### Every command and every step answers a next state (R200) -/

theorem exists_next_exec (i : Instr) (s : State) : ∃ t, exec i s = .next t := by
  obtain ⟨t, h, -⟩ := exec_effect i s
  exact ⟨t, h⟩

theorem runCommand_of_error {c : Command} {e : IllegalWord} (hd : decode c = .error e) (s : State) :
    runCommand c s = .next (s.fail .illegal) := by
  simp only [runCommand, hd]

theorem exists_next_runCommand (c : Command) (s : State) : ∃ t, runCommand c s = .next t := by
  cases hd : decode c with
  | ok i => rw [runCommand_of_decode hd]; exact exists_next_exec i s
  | error e => exact ⟨_, runCommand_of_error hd s⟩

theorem exists_next_takeInput (e : Input) (s : State) : ∃ t, takeInput e s = .next t := by
  cases e with
  | command c =>
    by_cases hr : s.inReset = true
    · exact ⟨s, if_pos hr⟩
    · obtain ⟨t, ht⟩ := exists_next_runCommand c s
      exact ⟨t, (if_neg hr).trans ht⟩
  | completion =>
    cases hd : s.dispatch with
    | none => exact ⟨s, by simp only [takeInput, takeCompletion, hd]⟩
    | some d => exact ⟨leaveDispatch s, by simp only [takeInput, takeCompletion, hd]⟩
  | reset asserted => exact ⟨setReset asserted s, rfl⟩
  | receiveQueue q more => exact ⟨changeQueue q more s, rfl⟩

theorem step_nil {s : State} (hin : s.input = []) : step s = .next s := by
  simp only [step, hin]

/-- A command presented while a POLL is between two requests, and reset is not asserted, waits (R205). -/
theorem step_waiting {s : State} {c : Command} {rest : List Input} (hin : s.input = .command c :: rest)
    (hw : s.draining = true) (hr : s.inReset = false) : step s = .next s := by
  rw [step_cons hin]
  exact if_pos (by simp [mustWait, hw, hr])

theorem exists_next_step (s : State) : ∃ t, step s = .next t := by
  cases hin : s.input with
  | nil => exact ⟨s, step_nil hin⟩
  | cons e rest =>
    rw [step_cons hin]
    split
    · exact ⟨s, rfl⟩
    · exact exists_next_takeInput e _

/-- Settles O9, by the cases of the decoder, of the instructions and of the inputs. -/
theorem noCommandStopsTheBlock : Obligations.NoCommandStopsTheBlock :=
  ⟨exists_next_runCommand, exists_next_exec, exists_next_step⟩

/-! ### The response of a drain (R170, R171) -/

/-- A response that stands before receive requests in a record is older than they are. -/
theorem length_lt_of_received_eq_response {q : List PortFrame} {r : Response} {tr tr' : List PortEvent}
    (h : received q ++ tr' = .response r :: tr) : tr.length < tr'.length := by
  rcases List.append_eq_cons_iff.1 h with ⟨-, rfl⟩ | ⟨es, he, -⟩
  · exact Nat.lt_succ_self _
  · have hmem : PortEvent.response r ∈ received q := he ▸ List.mem_cons_self
    simp [received] at hmem

/-- The only response that a drain can give is that of the POLL it ends. -/
theorem DrainOutcome.response_eq {s t : State} (h : DrainOutcome s t) {r : Response} {tr : List PortEvent}
    (htr : t.trace = .response r :: tr) (hlen : s.trace.length ≤ tr.length) : r = okResponse := by
  cases h with
  | ends => cases htr; rfl
  | dispatches => cases htr
  | waits => exact absurd hlen (Nat.not_le.2 (length_lt_of_received_eq_response htr))

/-! ### A failed command (R200, R12) -/

/-- Settles O10: a command that responds `ok = 0` only answers, or is a SEND or MSEND that the Transceiver answered 0. -/
theorem failedCommandChangesNoState : Obligations.FailedCommandChangesNoState := by
  intro i s t r tr h htr hlen hok
  cases effect_of_exec h with
  | answers r' hr =>
    cases htr
    obtain ⟨-, -, hzero⟩ := hr
    obtain ⟨hrx, hrdata, hrmeta⟩ := hzero hok
    exact ⟨hrx, hrdata, hrmeta, .inl rfl⟩
  | register | attaches | detaches => cases htr; cases hok
  | sends fs hi =>
    cases htr
    exact ⟨rfl, rfl, rfl, .inr (.inl ⟨fs, hi, if_neg (Bool.eq_false_iff.1 hok), rfl⟩)⟩
  | builds fd ty d c len pl hi =>
    cases htr
    exact ⟨rfl, rfl, rfl, .inr (.inr ⟨fd, ty, d, c, len, pl, hi, if_neg (Bool.eq_false_iff.1 hok), rfl⟩)⟩
  | polls _ _ _ ho =>
    rw [ho.response_eq htr hlen] at hok
    cases hok

/-! ### The cause of a command, by its tests in R203's order -/

section
variable {s t : State} {r : Response} {tr : List PortEvent}

theorem cause_of_write {fd : FReg} {start size : Nat} {v : DWord} (h : exec (.write fd start size v) s = .next t)
    (htr : t.trace = .response r :: tr) :
    r.cause = if size = 0 then 6#3 else if start + size > 8 then 1#3 else 0#3 := by
  rcases exec_write_cases fd start size v s with ⟨h0, e⟩ | ⟨h0, h8, e⟩ | ⟨h0, h8, e⟩ <;>
    rw [e] at h <;> cases h <;> cases htr
  · exact (if_pos h0).symm
  · exact ((if_neg h0).trans (if_pos h8)).symm
  · exact ((if_neg h0).trans (if_neg (Nat.not_lt.2 h8))).symm

theorem cause_of_read {fs : FReg} {start size : Nat} (h : exec (.read fs start size) s = .next t)
    (htr : t.trace = .response r :: tr) : r.cause = if size = 0 then 6#3 else if start + size > 8 then 1#3 else
      if start + size > (s.getF fs).dlc then 2#3 else 0#3 := by
  rcases exec_read_cases fs start size s with ⟨h0, e⟩ | ⟨h0, h8, e⟩ | ⟨h0, h8, hd, e⟩ | ⟨h0, h8, hd, e⟩ <;>
    rw [e] at h <;> cases h <;> cases htr
  · exact (if_pos h0).symm
  · exact ((if_neg h0).trans (if_pos h8)).symm
  · exact (((if_neg h0).trans (if_neg (Nat.not_lt.2 h8))).trans (if_pos hd)).symm
  · exact (((if_neg h0).trans (if_neg (Nat.not_lt.2 h8))).trans (if_neg (Nat.not_lt.2 hd))).symm

theorem cause_of_fload {fd : FReg} {id : Word} {dlc : BitVec 4} {ext rtr err : Bool} {data : DWord}
    (h : exec (.fload fd id dlc ext rtr err data) s = .next t) (htr : t.trace = .response r :: tr) :
    r.cause = if dlc.toNat > 8 then 6#3 else 0#3 := by
  rcases normFrame_cases ⟨id, data, dlc, ext, rtr, err⟩ with ⟨hd, hn⟩ | ⟨hd, fr, hn, -⟩
  · cases (exec_fload_of_norm_none fd s hn).symm.trans h
    cases htr
    exact (if_pos hd).symm
  · cases (exec_fload_of_norm fd s hn).symm.trans h
    cases htr
    exact (if_neg (Nat.not_lt.2 hd)).symm

/-- R203's first test of ATTACH: whether a valid slot holds the key. -/
theorem any_key_iff {k : Ident} {rt : List Slot} :
    rt.any (fun sl => sl.valid && sl.key == k) = true ↔ ¬ unregistered k rt := by
  simp [unregistered]

theorem cause_of_attach {ty d : Byte} {x : Word} (h : exec (.attach ty d x) s = .next t)
    (htr : t.trace = .response r :: tr) :
    r.cause = if s.rt.any (fun sl => sl.valid && sl.key == devKey ty d) then
        (if s.cfg.dupPolicy = .reject then 4#3 else 0#3)
      else if s.rt.all (fun sl => sl.valid) then 3#3 else 0#3 := by
  rcases attachTable_cases s.cfg.dupPolicy (devKey ty d) (hrefOf s.cfg x) s.rt with
    ⟨i, hi, ⟨hv, hk⟩, -, ⟨hpol, e⟩ | ⟨hpol, e⟩⟩ | ⟨hnew, hfull, e⟩ | ⟨hnew, i, hi, hfree, -, e⟩
  · cases (exec_attach_error e).symm.trans h
    cases htr
    exact ((if_pos (any_key_iff.2 fun hn => hn _ (List.getElem_mem hi) hv hk)).trans (if_pos hpol)).symm
  · cases (exec_attach_ok e).symm.trans h
    cases htr
    exact ((if_pos (any_key_iff.2 fun hn => hn _ (List.getElem_mem hi) hv hk)).trans (if_neg (by simp [hpol]))).symm
  · cases (exec_attach_error e).symm.trans h
    cases htr
    exact ((if_neg fun ha => any_key_iff.1 ha hnew).trans (if_pos (List.all_eq_true.2 hfull))).symm
  · cases (exec_attach_ok e).symm.trans h
    cases htr
    have hnotfull : ¬ s.rt.all (fun sl => sl.valid) = true := fun ha =>
      Bool.eq_false_iff.1 hfree (List.all_eq_true.1 ha _ (List.getElem_mem hi))
    exact ((if_neg fun ha => any_key_iff.1 ha hnew).trans (if_neg hnotfull)).symm

/-- A POLL that responds in its own step was refused, or has ended. -/
theorem cause_of_poll (h : exec .poll s = .next t) (htr : t.trace = .response r :: tr) (hlen : s.trace.length ≤ tr.length) :
    r.cause = if s.inPoll then 6#3 else 0#3 := by
  cases hp : s.inPoll with
  | true =>
    cases (exec_poll_nested hp).symm.trans h
    cases htr
    rfl
  | false =>
    cases (exec_poll_opens hp).symm.trans h
    rw [(drain_own_queue { s with inPoll := true }).response_eq htr hlen]
    rfl

/-- The Transceiver's answer, which the record holds, is the only test of a send (R180, R182). -/
theorem cause_of_sendResponse (p : PortFrame) (a : Bool) (tr : List PortEvent) :
    (sendResponse a).cause = if PortEvent.send p a :: tr = .send p true :: tr then 0#3 else 5#3 := by
  cases a with
  | true => exact (if_pos rfl).symm
  | false => exact (if_neg (by simp)).symm

theorem cause_of_send {fs : FReg} (h : exec (.send fs) s = .next t) (htr : t.trace = .response r :: tr) :
    r.cause = if tr = .send (s.getF fs).toPort true :: s.trace then 0#3 else 5#3 := by
  cases h
  cases htr
  exact cause_of_sendResponse _ _ _

theorem cause_of_msend {fd : FReg} {ty d c : Byte} {len : Nat} {pl : DWord}
    (h : exec (.msend fd ty d c len pl) s = .next t) (htr : t.trace = .response r :: tr) :
    r.cause = if tr = .send (mkFrame ty d c len pl).toPort true :: s.trace then 0#3 else 5#3 := by
  cases h
  cases htr
  exact cause_of_sendResponse _ _ _

end

/-- Settles O11, command by command; the commands that make no test respond with cause 0. -/
theorem firstFailingTestGivesTheCause : Obligations.FirstFailingTestGivesTheCause := by
  refine ⟨fun cmd e s hd => runCommand_of_error hd s, fun i s t r tr h htr hlen => ?_⟩
  cases i with
  | write => exact cause_of_write h htr
  | read => exact cause_of_read h htr
  | fload => exact cause_of_fload h htr
  | attach => exact cause_of_attach h htr
  | poll => exact cause_of_poll h htr hlen
  | send => exact cause_of_send h htr
  | msend => exact cause_of_msend h htr
  | pack | unpack | rkey | make | detachk | detachd | fstore | feq => cases h; cases htr; rfl

/-! ### The dispatch requests of a step (R211, R176) -/

/-- What is added to the record between `s` and `t` holds no dispatch request. -/
def AddsNoDispatch (s t : State) : Prop := ∃ es, t.trace = es ++ s.trace ∧ es.countP PortEvent.isDispatch = 0

/-- What is added holds one dispatch request, as its last event, and the request is open in `t`, with its frame in `F3`, inside
an open POLL. -/
def DispatchesLast (s t : State) : Prop :=
  ∃ w es, t.trace = .dispatch w (t.getF 3).toPort :: (es ++ s.trace) ∧ es.countP PortEvent.isDispatch = 0 ∧
    t.dispatch = some ⟨w, (t.getF 3).toPort⟩ ∧ t.inPoll = true

theorem countP_isDispatch_received (q : List PortFrame) : (received q).countP PortEvent.isDispatch = 0 := by
  simp [received, PortEvent.isDispatch]

/-- A drain ends with its first dispatch. -/
theorem DrainOutcome.dispatches_cases {s t : State} (h : DrainOutcome s t) (hp : s.inPoll = true) :
    AddsNoDispatch s t ∨ DispatchesLast s t := by
  cases h with
  | ends => exact .inl ⟨.response _ :: .receive none :: received s.rxq, rfl, countP_isDispatch_received s.rxq⟩
  | waits => exact .inl ⟨received s.rxq, rfl, countP_isDispatch_received s.rxq⟩
  | dispatches pre p _ fr sl =>
    have h3 : (s.setF 3 fr).getF 3 = fr := s.getF_setF_same 3 fr
    refine .inr ⟨sl.href, .receive (some p) :: received pre, ?_, countP_isDispatch_received pre, ?_, hp⟩
    · exact congrArg (fun x : Frame => PortEvent.dispatch sl.href x.toPort :: _) h3.symm
    · exact congrArg (fun x : Frame => some (DispatchRequest.mk sl.href x.toPort)) h3.symm

/-- Only a POLL taken with `in_poll = 0` can dispatch. -/
theorem Effect.dispatches_cases {i : Instr} {s t : State} (h : Effect i s t) :
    AddsNoDispatch s t ∨ DispatchesLast s t ∧ s.inPoll = false := by
  cases h with
  | answers | register | attaches | detaches => exact .inl ⟨[.response _], rfl, rfl⟩
  | sends | builds => exact .inl ⟨[.response _, .send _ _], rfl, rfl⟩
  | polls _ _ hn ho => exact (ho.dispatches_cases rfl).imp_right fun hd => ⟨hd, hn⟩

/-- A step dispatches only with no dispatch open before it, or by the completion of the open one. -/
theorem StepEffect.dispatches_cases {s t : State} (h : StepEffect s t) (hinv : Inv s) :
    AddsNoDispatch s t ∨
      DispatchesLast s t ∧ (s.dispatch = none ∨ ∃ rest, s.input = .completion :: rest) := by
  cases h with
  | holds | unaccepted | unasked | reset | resetIdle | queue => exact .inl ⟨[], rfl, rfl⟩
  | illegal => exact .inl ⟨[.response _], rfl, rfl⟩
  | command _ _ _ _ _ _ _ _ he =>
    refine he.dispatches_cases.imp_right fun ⟨hd, hp⟩ => ⟨hd, .inl (Option.eq_none_iff_forall_ne_some.2 fun d ho => ?_)⟩
    exact Bool.eq_false_iff.1 hp (hinv.inPoll_of_dispatch ho)
  | completion rest _ _ hin hd ho =>
    exact (ho.dispatches_cases (hinv.inPoll_of_dispatch hd)).imp_right fun h => ⟨h, .inr ⟨rest, hin⟩⟩
  | queueDrains _ _ _ _ _ hw ho =>
    obtain ⟨hp, hd⟩ := (draining_iff s).1 hw
    exact (ho.dispatches_cases hp).imp_right fun h => ⟨h, .inl hd⟩

/-- Settles O48, by whether the step dispatches. -/
theorem dispatchesDoNotNest : Obligations.DispatchesDoNotNest := by
  intro s t hinv h
  rcases (step_effect h).dispatches_cases hinv with ⟨es, htr, hes⟩ | ⟨⟨w, es, htr, hes, hd, hp⟩, hopen⟩
  · exact ⟨es, htr, hes.trans_le (Nat.zero_le 1), fun _ _ => hes, fun h1 => absurd (hes.symm.trans h1) nofun⟩
  · have hone : (PortEvent.dispatch w (t.getF 3).toPort :: es).countP PortEvent.isDispatch = 1 := by
      rw [List.countP_cons_of_pos rfl, hes]
    refine ⟨_, htr, hone.le, fun hsome hc => ?_, fun _ => ⟨w, _, es, rfl, hd, rfl, hp⟩⟩
    rcases hopen with hnone | ⟨rest, hin⟩
    · rw [hnone] at hsome
      cases hsome
    · exact absurd hin (hc rest)

/-! ### The idle block (R219, R205) -/

/-- With no POLL and no dispatch open, an input that is neither a command nor a level of the reset input reaches the
environment's fields alone. -/
theorem StepEffect.idle_eq {s t : State} (h : StepEffect s t) (hp : s.inPoll = false) (hd : s.dispatch = none)
    (hc : ∀ cmd rest, s.input ≠ .command cmd :: rest) (hb : ∀ b rest, s.input ≠ .reset b :: rest) :
    t = { s with input := t.input, rxq := t.rxq, rxMore := t.rxMore } := by
  cases h with
  | holds | unasked | queue => rfl
  | unaccepted _ _ hin | command _ _ _ _ hin | illegal _ _ _ hin => exact absurd hin (hc _ _)
  | reset _ _ hin | resetIdle _ hin => exact absurd hin (hb _ _)
  | completion _ _ _ _ hd' => rw [hd] at hd'; cases hd'
  | queueDrains _ _ _ _ _ hw => rw [State.draining, hp] at hw; cases hw

/-- Settles O7: an idle or waiting step, the inputs of an idle block, and a completion that nothing waits for. -/
theorem idleBlockHoldsItsState : Obligations.IdleBlockHoldsItsState := by
  refine ⟨fun s hs => ?_, fun s t hp hd hc hb h => (step_effect h).idle_eq hp hd hc hb, fun s rest => step_unasked⟩
  rcases hs with hin | ⟨cmd, rest, hin, hw, hr⟩
  · exact step_nil hin
  · exact step_waiting hin hw hr

end Sys2Proof.Machine
end

section
/-! Family `70_reset_and_hazards.md`: what a change of the receive queue does, what a step can do while reset is asserted, and
the statements about a POLL that waits for the Transceiver and about reset. -/

namespace Sys2Proof.Machine

/-! ### A POLL that waits for the Transceiver's answer (R171, R216, R240) -/

/-- A POLL between two requests goes on with the queue that it is given (R216). -/
theorem changeQueue_draining {s : State} (hw : s.draining = true) (q : List PortFrame) (more : Bool) :
    changeQueue q more s = drain q { s with rxq := q, rxMore := more } := if_pos hw

/-- In any other state nothing asks the Transceiver for a frame. -/
theorem changeQueue_of_not_draining {s : State} (hw : s.draining = false) (q : List PortFrame) (more : Bool) :
    changeQueue q more s = { s with rxq := q, rxMore := more } := if_neg (Bool.eq_false_iff.1 hw)

/-- A change of the receive queue is taken at once. -/
theorem step_receiveQueue {s : State} {rest : List Input} {q : List PortFrame} {more : Bool}
    (hin : s.input = .receiveQueue q more :: rest) : step s = .next (changeQueue q more { s with input := rest }) := by
  rw [step_cons hin]
  rfl

/-- Settles O45: a POLL, a completion and a change of the queue during a POLL run `drain`, and `drain_own_queue` says what it
does whether or not the Transceiver's next answer is settled. -/
theorem pollStaysOpenUntilAnswered : Obligations.PollStaysOpenUntilAnswered := by
  refine ⟨fun s hp => ?_, fun s rest d hin hd => ?_, fun s rest q more hin => ⟨fun hw => ?_, fun hw => ?_⟩⟩
  · exact ⟨_, exec_poll_opens hp, drain_own_queue { s with inPoll := true }⟩
  · exact ⟨_, step_completion hin hd, drain_own_queue { s with input := rest, dispatch := none }⟩
  · refine ⟨_, ?_, drain_own_queue { s with input := rest, rxq := q, rxMore := more }⟩
    rw [step_receiveQueue hin, changeQueue_draining (s := { s with input := rest }) hw]
  · rw [step_receiveQueue hin, changeQueue_of_not_draining (s := { s with input := rest }) hw]

/-! ### While reset is asserted (R230, R35) -/

/-- From a block with R35's values, a step while reset is asserted puts nothing on a port and leaves those values: no command is
accepted, and there is no POLL and no dispatch that another input could resume. -/
theorem StepEffect.trace_eq_and_blockIsReset {s t : State} (h : StepEffect s t) (hr : s.inReset = true) (hs : blockIsReset s) :
    t.trace = s.trace ∧ blockIsReset t := by
  cases h with
  | holds | unaccepted | unasked | resetIdle | queue => exact ⟨rfl, hs⟩
  | reset asserted rest => exact ⟨rfl, blockIsReset_resetBlock { s with input := rest } asserted⟩
  | command _ _ _ _ _ _ hn | illegal _ _ _ _ _ hn =>
    rw [hr] at hn
    cases hn
  | completion _ _ _ _ hd =>
    obtain ⟨-, -, -, hnone⟩ := hs
    rw [hnone] at hd
    cases hd
  | queueDrains _ _ _ _ _ hw =>
    obtain ⟨-, -, hclosed, -⟩ := hs
    obtain ⟨hopen, -⟩ := (draining_iff s).1 hw
    rw [hclosed] at hopen
    cases hopen

/-- Only the reset input changes its level: to the one that it is driven to. -/
theorem StepEffect.reset_of_inReset_ne {s t : State} (h : StepEffect s t) (hne : t.inReset ≠ s.inReset) :
    ∃ rest, s.input = .reset t.inReset :: rest := by
  cases h with
  | holds | unaccepted | illegal | unasked | resetIdle | queue => exact absurd rfl hne
  | reset _ rest hin => exact ⟨rest, hin⟩
  | command _ _ _ _ _ _ _ _ he =>
    obtain ⟨-, -, hkept, -⟩ := he.outside
    exact absurd hkept hne
  | completion _ _ _ _ _ ho | queueDrains _ _ _ _ _ _ ho =>
    obtain ⟨-, -, -, -, -, -, hkept⟩ := ho.frame
    exact absurd hkept hne

/-- Settles O58: `Inv` gives R35's values, which the cases of `StepEffect` keep; and a step that leaves reset took its release. -/
theorem noCommandIsAcceptedDuringReset : Obligations.NoCommandIsAcceptedDuringReset := by
  refine ⟨fun s cmd rest hr hin => step_unaccepted hin hr, fun s t hinv hr h => ?_,
    fun s t h => (step_effect h).reset_of_inReset_ne⟩
  obtain ⟨-, -, -, -, -, hreset⟩ := hinv
  obtain ⟨htr, hrt, hf, hp, hd⟩ := (step_effect h).trace_eq_and_blockIsReset hr (hreset hr)
  refine ⟨htr, hrt, hf, hp, hd, ?_⟩
  cases hn : t.inReset with
  | true => exact .inl rfl
  | false => exact .inr (hn ▸ (step_effect h).reset_of_inReset_ne (by simp [hn, hr]))

end Sys2Proof.Machine
end
